-- ==== Sys2Proof/Word.lean ====
section
/-! DEFINITION. The widths of the values the engine holds (10_state.md rules R21, R41, R43). -/

namespace Sys2Proof

/-- One byte of source or output memory (20_memory.md R61, R62). -/
abbrev Byte := BitVec 8

/-- One 32-bit register of the host window, and one fetched word (10 R29, 20 R64). -/
abbrev Word := BitVec 32

/-- A 64-bit datapath register: ACC, AVAIL, COPYREM, DIST, PBASE, OBASE (10 R21, R35, R36). -/
abbrev Dword := BitVec 64

/-- One 16-bit table RAM entry: VALUE in bits 15:7, DEPTH in bits 6:4, LEN in bits 3:0 (10 R41). -/
abbrev Entry := BitVec 16

/-- One code length of the LENS scratch (10 R43). -/
abbrev CodeLen := BitVec 4

end Sys2Proof
end

