-- ==== Sys2Proof/Config.lean ====
section
/-! DEFINITION. What an implementation fixes: the settled constants of 00_scope.md R4, the parameters of R5,
and the free values, which are opaque constants without a body. -/

namespace Sys2Proof.Config

/-! ### Settled constants (00_scope.md R4) -/

/-- Refill does nothing while more than this many bits are valid (40 R110). -/
abbrev refillThreshold : Nat := 32

/-- Bytes of one fetch (40 R110). -/
abbrev fetchBytes : Nat := 4

/-- Primary index width of the large table. -/
abbrev largePb : Nat := 10

/-- Primary index width of the small table. -/
abbrev smallPb : Nat := 8

/-- Longest code. -/
abbrev maxCodeLen : Nat := 15

/-- An overflow depth above this fails with InvalidTableEntry (42 R167). -/
abbrev ovfDepthLimit : Nat := 8

/-- An overflow slot counter above this fails with SampleOverflow (42 R168). -/
abbrev ovfCapacity : Nat := 0x1FF

/-- Entries of an overflow RAM (10 R41). -/
abbrev ovfEntries : Nat := 512

/-- Entries of the LENS scratch (10 R43). -/
abbrev lensEntries : Nat := 511

/-- The symbol that ends a symbol run (43 R193). -/
abbrev sentinel : Nat := 0x100

/-- The first back-reference symbol (43 R194). -/
abbrev copyBaseSym : Nat := 0x101

/-- Added to every copy length (30 R85). -/
abbrev minCopy : Nat := 3

/-- Added to every distance (30 R85). -/
abbrev distBias : Nat := 1

/-- Bytes of the container header (30 R91). -/
abbrev headerBytes : Nat := 12

/-! ### Parameters (00_scope.md R5) -/

/-- One row of a static table pair: a base below 2^32 and an extra-bit count of at most 32 (00 R5(a)). -/
structure ExtraRow where
  base  : BitVec 32
  extra : Fin 33
  deriving DecidableEq, Repr, Inhabited

/-- STATIC_TABLES: `lengths` pairs T1 with T2 (its length is N12), `dists` pairs T3 with T4 (its length is N34)
(00 R5(a), 43 R198). -/
structure StaticTables where
  lengths : List ExtraRow
  dists   : List ExtraRow
  deriving DecidableEq, Repr, Inhabited

/-- CSIZE_MODE (00 R5(b)): whether compressedSize counts the 12 header bytes. -/
inductive CsizeMode where
  | payloadOnly
  | includesHeader
  deriving DecidableEq, Repr, Inhabited

/-- PLAIN_TYPE_MASK (00 R5(d)), used on the host side only (45 R246). -/
inductive TypeMask where
  | mask0F
  | mask8F
  deriving DecidableEq, Repr, Inhabited

/-- The parameters a model takes (00 R5), and whether source and output memory are one physical memory (20 R60).
ADDR_W is at most 64, the width of PBASE and OBASE. -/
structure Params where
  tables     : StaticTables
  csizeMode  : CsizeMode
  addrW      : Fin 65
  typeMask   : TypeMask
  oneMemory  : Bool
  deriving DecidableEq, Repr, Inhabited

/-- N12, the number of length rows (43 R198). -/
def Params.n12 (p : Params) : Nat := p.tables.lengths.length

/-- N34, the number of distance rows (43 R198). -/
def Params.n34 (p : Params) : Nat := p.tables.dists.length

/-- How many addresses there are (20 R61, R62). -/
def Params.addrSpace (p : Params) : Nat := 2 ^ p.addrW.val

/-- The static tables of the hardware, which the spec leaves open (43 R198, 91 NS1): uninterpreted. Log 7. -/
opaque staticTables : StaticTables

/-- The parameters at reset: the defaults of 00 R5, and the uninterpreted static tables. DESIGN CHOICE (safe for the
tables, unsafe for the rest; statements range over all parameters). Logs 7 and 9. -/
def defaults : Params where
  tables    := staticTables
  csizeMode := .payloadOnly
  addrW     := 64
  typeMask  := .mask0F
  oneMemory := false

/-- The candidate static tables of 43 R199 [general knowledge, not in source]. PRESUMED (unsafe): nothing in the model
uses them; a test or a claim that does names them. Log 8. -/
def candidateTables : StaticTables where
  lengths := List.zipWith ExtraRow.mk
    [0, 1, 2, 3, 4, 5, 6, 7, 8, 10, 12, 14, 16, 20, 24, 28, 32, 40, 48, 56, 64, 80, 96, 112, 128, 160, 192, 224, 255]
    [0, 0, 0, 0, 0, 0, 0, 0, 1, 1, 1, 1, 2, 2, 2, 2, 3, 3, 3, 3, 4, 4, 4, 4, 5, 5, 5, 5, 0]
  dists := List.zipWith ExtraRow.mk
    [0, 1, 2, 3, 4, 6, 8, 12, 16, 24, 32, 48, 64, 96, 128, 192, 256, 384, 512, 768, 1024, 1536, 2048, 3072, 4096, 6144,
      8192, 12288, 16384, 24576]
    [0, 0, 0, 0, 1, 1, 2, 2, 3, 3, 4, 4, 5, 5, 6, 6, 7, 7, 8, 8, 9, 9, 10, 10, 11, 11, 12, 12, 13, 13]

/-! ### Free values

A drawn value is applied to the draw counter of State, so that every draw is fresh; nothing constrains them. Log 3. -/

/-- A byte drawn freshly at each read: a source byte outside SRC_IMAGE (20 R61), a host read of output while BUSY
(20 R72). -/
opaque freeByte : Nat → Byte

/-- What output memory holds at an address before its first write, which the spec does not give: one byte for each address,
so that repeated reads of it agree (20 R68). Log 5. -/
opaque unwrittenByte : Nat → Byte

/-- Entry `i` of a table RAM whose contents the spec does not give (70 R300, 41 R136); the first argument is the draw, the
second says which RAM. -/
opaque freeEntry : Nat → Nat → Nat → Entry

/-- Entry `i` of LENS after the reset input (70 R300). -/
opaque freeLen : Nat → Nat → CodeLen

end Sys2Proof.Config
end

