-- ==== Sys2Proof/Syntax.lean ====
section
/-! DEFINITION. The abstract syntax: the sequencer states (10 R22), the register window's names (10 R30 to R39), the
host's bus accesses (30 R95), and one constructor of `Instr` for each row of opcode_table.json. -/

namespace Sys2Proof

/-- The two tables, large (literal/length) and small (distance) (10 R22). -/
inductive Tbl where
  | large
  | small
  deriving DecidableEq, Repr

/-- The sequencer states (10 R22). -/
inductive Seq where
  | idle
  | bt
  | lcnt
  | lbyte
  | tcnt (w : Tbl)
  | tflag (w : Tbl)
  | tnib (w : Tbl)
  | tbuild (w : Tbl)
  | sym
  | lextra
  | dsym
  | dextra
  | copy
  | eob
  deriving DecidableEq, Repr

/-- The registers of the host window (10 R30 to R39). -/
inductive Reg where
  | ctrl | status | hdrflag | csize | dsize
  | pbaseLo | pbaseHi | obaseLo | obaseHi
  | outLen | cursor | availLo | availHi
  deriving DecidableEq, Repr

/-- One element of the compressed bitstream, one implicit step, or one host command: one constructor per row of
opcode_table.json. A row read in `TCNT(w)`, `TFLAG(w)` or `TNIB(w)` carries `w`; a symbol row carries the length `len` of
the code it was read from (30 R82: the code has L bits); an extra-bits row carries its width `k` (30 R92: `XB k, x`). -/
inductive Instr where
  /-- BT.LIT: block type 0 (41 R130). -/
  | btLit
  /-- BT.TBL: block type 1 (41 R130). -/
  | btTbl
  /-- LCNT: literal byte count (41 R131). -/
  | lcnt (n : BitVec 15)
  /-- LBYTE: one literal byte (41 R132). -/
  | lbyte (b : Byte)
  /-- TCNT: symbol count of table w (41 R133). -/
  | tcnt (w : Tbl) (c : BitVec 9)
  /-- LEN0: length flag 0 (41 R134). -/
  | len0 (w : Tbl)
  /-- LEN: length flag 1; the nibble that follows is LEN.NIB (41 R134). Log 11. -/
  | len (w : Tbl)
  /-- LEN.NIB: length nibble (41 R135). -/
  | lenNib (w : Tbl) (l : CodeLen)
  /-- SYM.LIT: a literal byte (43 R192). -/
  | symLit (v : Byte) (len : CodeLen)
  /-- SYM.END: the sentinel 0x100 (43 R193). -/
  | symEnd (len : CodeLen)
  /-- SYM.BREF: a back-reference symbol (43 R194). -/
  | symBref (v : BitVec 9) (len : CodeLen)
  /-- XB.LEN: length extra bits (43 R195). -/
  | xbLen (k : Fin 33) (x : Word)
  /-- DSYM: a distance symbol (43 R196). -/
  | dsym (d : BitVec 9) (len : CodeLen)
  /-- XB.DIST: distance extra bits (43 R197). -/
  | xbDist (k : Fin 33) (y : Word)
  /-- EOB.0: another block follows (41 R137). -/
  | eob0
  /-- EOB.1: end of payload (41 R137). -/
  | eob1
  /-- TBUILD.L: build the large table (41 R136). -/
  | tbuildL
  /-- TBUILD.S: build the small table (41 R136). -/
  | tbuildS
  /-- COPY: one byte of a back-reference (44 R222). -/
  | copy
  /-- START: the host's start command (45 R241). -/
  | start
  /-- REGWRITE: a host register write of `width` bits at byte offset `off` (45 R240). -/
  | regwrite (off : Nat) (width : Nat) (data : Word)
  /-- REGREAD: a host register read of `width` bits at byte offset `off` (45 R244). -/
  | regread (off : Nat) (width : Nat)
  /-- RESET: the reset input (70 R300). -/
  | reset
  deriving DecidableEq, Repr

/-- What the host puts on the engine's register interface: the encoding of the HOST rows (30 R95). -/
inductive BusAccess where
  | write (off : Nat) (width : Nat) (data : Word)
  | read (off : Nat) (width : Nat)
  | resetInput
  deriving DecidableEq, Repr

/-- Which agent moves at one step of the machine (00 R9): the engine, the host on the register interface (30 R95), or the
host on one of the memories (20 R69, R72, R74; 70 R303, R304). Log 1. -/
inductive Turn where
  | engine
  | bus (e : BusAccess)
  | srcWrite (a : Nat) (b : Byte)
  | outWrite (a : Nat) (b : Byte)
  | outRead (a : Nat)
  deriving DecidableEq, Repr

/-- A two-level code table: `P`, with `2^pb` entries, and the overflow entries `O` (10 R41, 42 R160). -/
structure CodeTable (pb : Nat) where
  primary  : Vector Entry (2 ^ pb)
  overflow : Vector Entry Config.ovfEntries
  deriving DecidableEq, Repr

/-- A symbol with its code (42 R163): `rc` is the code in stream form, its first bit read is bit 0. -/
structure Code where
  sym : Nat
  len : Nat
  rc  : Nat
  deriving DecidableEq, Repr

/-- The long codes that share a primary prefix, in the order of S (42 R166). -/
structure Group where
  pfx     : Nat
  depth   : Nat
  members : List Code
  deriving DecidableEq, Repr

/-- What Resolve finds: the symbol value and the code length to take (43 R190). -/
structure Resolved where
  value : BitVec 9
  len   : CodeLen
  deriving DecidableEq, Repr

/-- What the decoder needs beside the bits: the sequencer state, with the table a symbol is resolved in (43 R190) or the
number of extra bits (43 R195, R197). -/
inductive Ctx where
  | idle
  | bt
  | lcnt
  | lbyte
  | tcnt (w : Tbl)
  | tflag (w : Tbl)
  | tnib (w : Tbl)
  | tbuild (w : Tbl)
  | sym (t : CodeTable Config.largePb)
  | lextra (k : Fin 33)
  | dsym (t : CodeTable Config.smallPb)
  | dextra (k : Fin 33)
  | copy
  | eob
  deriving DecidableEq, Repr

/-- Why the decoder gives no instruction. -/
inductive DecodeError where
  /-- SEQ is IDLE: the engine reads no element (10 R22). -/
  | noElement
  /-- The overflow index is above 511 (43 R190: `fault OverflowIndex`, unreachable by R191). -/
  | overflowIndex
  deriving DecidableEq, Repr

/-- The code lengths the current tables were built from: what an assembler must know to write a symbol (30 R92). -/
structure CodeBook where
  large : List CodeLen
  small : List CodeLen
  deriving DecidableEq, Repr

end Sys2Proof
end

