-- ==== Sys2Proof/WellFormed.lean ====
section
/-! DEFINITION. The checks the opcode table's operand ranges put on an instruction. -/

namespace Sys2Proof

/-- `x` fits in `k` bits, and there is at least one (30 R82: F_XB has k ≥ 1). -/
def wfExtra (k : Fin 33) (x : Word) : Bool :=
  decide (1 ≤ k.val) && decide (x.toNat < 2 ^ k.val)

/-- The operands are in the ranges of opcode_table.json: a back-reference symbol is 0x101 to 0x1FE, a distance symbol 0 to
510, an extra field fits its width, and a register write is not the one that is the START command. -/
def Instr.wf : Instr → Bool
  | .symBref v _ => decide (0x101 ≤ v.toNat) && decide (v.toNat ≤ 0x1FE)
  | .dsym d _ => decide (d.toNat ≤ 510)
  | .xbLen k x => wfExtra k x
  | .xbDist k y => wfExtra k y
  | .regwrite off width data => !(decide (off = 0) && decide (width = 32) && data.getLsbD 0)
  | .btLit | .btTbl | .lcnt _ | .lbyte _ | .tcnt _ _ | .len0 _ | .len _ | .lenNib _ _ => true
  | .symLit _ _ | .symEnd _ | .eob0 | .eob1 | .tbuildL | .tbuildS | .copy => true
  | .start | .regread _ _ | .reset => true

end Sys2Proof
end

