-- ==== Sys2Proof/Decode.lean ====
section
/-! DEFINITION. The decoder of the bitstream (30_encoding.md R80 to R90), symbol resolution (43 R190), the decoder of host
accesses (30 R95); then canonical codes (42 R162, R163), which an encoder needs, and the encoder (30 R82, R86, R92). -/

namespace Sys2Proof

/-! ### Bit fields (30 R81): the first bit of a field is its bit 0 -/

/-- The `k` bits of `x`, least significant first: consumption order (30 R81). -/
def fieldBits : Nat → Nat → List Bool
  | 0, _ => []
  | k + 1, x => decide (x % 2 = 1) :: fieldBits k (x / 2)

/-- The number whose bits in consumption order are `bs` (30 R81). -/
def bitsToNat : List Bool → Nat
  | [] => 0
  | b :: bs => b.toNat + 2 * bitsToNat bs

/-- `Peek(k)`: the low `k` bits of the window (40 R116). -/
def peek (win : Dword) (k : Nat) : Nat := win.toNat % 2 ^ k

theorem peek_lt (win : Dword) (k : Nat) : peek win k < 2 ^ k := Nat.mod_lt _ (Nat.two_pow_pos k)

/-- `PeekAt(p, k)`: `k` bits of the window from bit `p` on (40 R116). -/
def peekAt (win : Dword) (p k : Nat) : Nat := win.toNat / 2 ^ p % 2 ^ k

/-- `rev_L(c)`: bit `i` of the result is bit `L-1-i` of `c` (00 R7). -/
def rev : Nat → Nat → Nat
  | 0, _ => 0
  | l + 1, c => c % 2 * 2 ^ l + rev l (c / 2)

/-! ### Table entries (10 R41) -/

/-- VALUE, bits 15:7: a symbol, or the overflow base of an escape. -/
def entryValue (e : Entry) : BitVec 9 := e.extractLsb' 7 9

/-- DEPTH, bits 6:4: the overflow index bits of an escape. -/
def entryDepth (e : Entry) : BitVec 3 := e.extractLsb' 4 3

/-- LEN, bits 3:0: the code length; 0 marks an escape. -/
def entryLen (e : Entry) : CodeLen := e.extractLsb' 0 4

/-- The primary entry the window selects: `P[Peek(pb)]` (43 R190). -/
def primaryEntry {pb : Nat} (t : CodeTable pb) (win : Dword) : Entry :=
  t.primary[peek win pb]'(peek_lt win pb)

/-- The overflow index an escape entry selects: `base + PeekAt(pb, d)` (43 R190). -/
def overflowIndex (pb : Nat) (e : Entry) (win : Dword) : Nat :=
  (entryValue e).toNat + peekAt win pb (entryDepth e).toNat

/-- `Resolve` on a refilled window, without its Take (43 R190, R201): a direct entry answers at once, an escape (or an
unwritten slot) through the overflow table. The bits are peeked only (90_conflicts.md C7). -/
def resolve {pb : Nat} (t : CodeTable pb) (win : Dword) : Except DecodeError Resolved :=
  let e := primaryEntry t win
  if entryLen e ≠ 0 then
    .ok { value := entryValue e, len := entryLen e }
  else
    if h : overflowIndex pb e win < Config.ovfEntries then
      let e2 := t.overflow[overflowIndex pb e win]
      .ok { value := entryValue e2, len := entryLen e2 }
    else
      .error .overflowIndex

/-! ### The decoder -/

/-- The symbol classes of the large table (30 R84, 43 R192 to R194). -/
def symbolInstr (r : Resolved) : Instr :=
  if r.value.toNat < Config.sentinel then .symLit (r.value.setWidth 8) r.len
  else if r.value.toNat = Config.sentinel then .symEnd r.len
  else .symBref r.value r.len

/-- The element the window holds, in the context of the sequencer state (30 R82, R88). Total: every bit pattern of every
state that reads bits decodes. It rejects by name where no element is read, and where the spec has a model fault. -/
def decode (ctx : Ctx) (win : Dword) : Except DecodeError Instr :=
  match ctx with
  | .idle => .error .noElement
  | .bt => .ok (if win.getLsbD 0 then .btTbl else .btLit)
  | .lcnt => .ok (.lcnt (win.setWidth 15))
  | .lbyte => .ok (.lbyte (win.setWidth 8))
  | .tcnt w => .ok (.tcnt w (win.setWidth 9))
  | .tflag w => .ok (if win.getLsbD 0 then .len w else .len0 w)
  | .tnib w => .ok (.lenNib w (win.setWidth 4))
  | .tbuild .large => .ok .tbuildL
  | .tbuild .small => .ok .tbuildS
  | .sym t => (resolve t win).map symbolInstr
  | .lextra k => .ok (.xbLen k (BitVec.ofNat 32 (peek win k.val)))
  | .dsym t => (resolve t win).map fun r => .dsym r.value r.len
  | .dextra k => .ok (.xbDist k (BitVec.ofNat 32 (peek win k.val)))
  | .copy => .ok .copy
  | .eob => .ok (if win.getLsbD 0 then .eob1 else .eob0)

/-- The host row a bus access is (30 R95): a 32-bit write to CTRL with bit 0 set is START (45 R241). -/
def decodeBus : BusAccess → Instr
  | .write off width data =>
    if off = 0 ∧ width = 32 ∧ data.getLsbD 0 = true then .start else .regwrite off width data
  | .read off width => .regread off width
  | .resetInput => .reset

/-- How many payload bits the row consumes (10 R24). -/
def Instr.width : Instr → Nat
  | .btLit | .btTbl | .eob0 | .eob1 | .len0 _ | .len _ => 1
  | .lcnt _ => 15
  | .lbyte _ => 8
  | .tcnt _ _ => 9
  | .lenNib _ _ => 4
  | .symLit _ l | .symEnd l | .symBref _ l | .dsym _ l => l.toNat
  | .xbLen k _ | .xbDist k _ => k.val
  | .tbuildL | .tbuildS | .copy => 0
  | .start | .regwrite _ _ _ | .regread _ _ | .reset => 0

/-- The host's question about one table word: the element whose bits are `w`, read where the first element of a run is
read, the block-type state (41 R130). Log 12. -/
def decodeTableWord (nbits w : Nat) : Option Instr :=
  (decode .bt (BitVec.ofNat 64 (w % 2 ^ nbits))).toOption

/-! ### Canonical codes (42 R162, R163) -/

/-- The symbols of code length `l`, in ascending order, counting from symbol `s` (42 R162). -/
def symbolsOfLen (l : Nat) : Nat → List CodeLen → List Nat
  | _, [] => []
  | s, x :: xs => if x.toNat = l then s :: symbolsOfLen l (s + 1) xs else symbolsOfLen l (s + 1) xs

/-- The list S: the present symbols with their lengths, by ascending length and, within one length, by ascending symbol
(42 R162). -/
def sortedSymbols (lens : List CodeLen) : List (Nat × Nat) :=
  (List.range' 1 Config.maxCodeLen).flatMap fun l => (symbolsOfLen l 0 lens).map fun s => (s, l)

/-- The running code at a symbol of length `l`: shifted left by the growth of the length (42 R163). -/
def shiftCode (code : BitVec 16) (prev l : Nat) : BitVec 16 :=
  if prev < l then code <<< (l - prev) else code

/-- Canonical code values in S order, with a 16-bit running code (42 R163). -/
def assignCodes (code : BitVec 16) (prev : Nat) : List (Nat × Nat) → List Code
  | [] => []
  | (s, l) :: rest =>
    { sym := s, len := l, rc := rev l ((shiftCode code prev l).toNat % 2 ^ l) }
      :: assignCodes (shiftCode code prev l + 1) (if prev < l then l else prev) rest

/-- The codes of a list of code lengths, in S order (42 R162, R163). -/
def canonicalCodes (lens : List CodeLen) : List Code := assignCodes 0 0 (sortedSymbols lens)

/-! ### The encoder -/

/-- The bits of symbol `s` in the code of `lens`: its code in stream form (30 R86); an absent symbol has none. -/
def symbolBits (lens : List CodeLen) (s : Nat) : List Bool :=
  match (canonicalCodes lens).find? (fun c => c.sym = s) with
  | some c => fieldBits c.len c.rc
  | none => []

/-- The payload bits of an element, in consumption order (30 R82, R92); an implicit step or a host command has none
(30 R94, R95). -/
def encode (book : CodeBook) : Instr → List Bool
  | .btLit => [false]
  | .btTbl => [true]
  | .lcnt n => fieldBits 15 n.toNat
  | .lbyte b => fieldBits 8 b.toNat
  | .tcnt _ c => fieldBits 9 c.toNat
  | .len0 _ => [false]
  | .len _ => [true]
  | .lenNib _ l => fieldBits 4 l.toNat
  | .symLit v _ => symbolBits book.large v.toNat
  | .symEnd _ => symbolBits book.large Config.sentinel
  | .symBref v _ => symbolBits book.large v.toNat
  | .xbLen k x => fieldBits k.val x.toNat
  | .dsym d _ => symbolBits book.small d.toNat
  | .xbDist k y => fieldBits k.val y.toNat
  | .eob0 => [false]
  | .eob1 => [true]
  | .tbuildL | .tbuildS | .copy => []
  | .start | .regwrite _ _ _ | .regread _ _ | .reset => []

/-- The notation `LEN l` (30 R92): the flag of LEN, then the nibble of LEN.NIB. -/
def encodeLen (book : CodeBook) (w : Tbl) (l : CodeLen) : List Bool :=
  encode book (.len w) ++ encode book (.lenNib w l)

/-- The bus access of a host command (30 R95); no bitstream element has one. -/
def encodeBus : Instr → Option BusAccess
  | .start => some (.write 0 32 1)
  | .regwrite off width data => some (.write off width data)
  | .regread off width => some (.read off width)
  | .reset => some .resetInput
  | .btLit | .btTbl | .lcnt _ | .lbyte _ | .tcnt _ _ | .len0 _ | .len _ | .lenNib _ _ => none
  | .symLit _ _ | .symEnd _ | .symBref _ _ | .xbLen _ _ | .dsym _ _ | .xbDist _ _ => none
  | .eob0 | .eob1 | .tbuildL | .tbuildS | .copy => none

/-- The context a row is read in: the "state" column of opcode_table.json, with the tables in force. A host command is
read in none. -/
def Instr.ctx (tl : CodeTable Config.largePb) (ts : CodeTable Config.smallPb) : Instr → Ctx
  | .btLit | .btTbl => .bt
  | .lcnt _ => .lcnt
  | .lbyte _ => .lbyte
  | .tcnt w _ => .tcnt w
  | .len0 w | .len w => .tflag w
  | .lenNib w _ => .tnib w
  | .symLit _ _ | .symEnd _ | .symBref _ _ => .sym tl
  | .xbLen k _ => .lextra k
  | .dsym _ _ => .dsym ts
  | .xbDist k _ => .dextra k
  | .eob0 | .eob1 => .eob
  | .tbuildL => .tbuild .large
  | .tbuildS => .tbuild .small
  | .copy => .copy
  | .start | .regwrite _ _ _ | .regread _ _ | .reset => .idle

/-- A window that begins with the bits `bs` and goes on with `rest`. -/
def windowOf (bs rest : List Bool) : Dword := BitVec.ofNat 64 (bitsToNat (bs ++ rest))

end Sys2Proof
end

