-- ==== Sys2Proof/Machine/State.lean ====
section
/-! DEFINITION. The machine's state (10_state.md), the reasons a step can stop, and the state after reset (10 R47). -/

namespace Sys2Proof.Machine

/-- STATE (10 R25). -/
inductive RunState where
  | idle
  | busy
  | done
  | error
  deriving DecidableEq, Repr

/-- ERR (10 R28, 60 R270): the codes that are ever written. The reserved codes are not representable. Log 20. -/
inductive ErrCode where
  /-- 0: no error. -/
  | none
  /-- 1: UnsupportedCompressionType (45 R242). -/
  | unsupportedCompressionType
  /-- 8: InvalidTableEntry (42 R167). -/
  | invalidTableEntry
  /-- 9: SampleOverflow (42 R168). -/
  | sampleOverflow
  /-- 12: InternalFailure (43 R200). -/
  | internalFailure
  deriving DecidableEq, Repr

/-- A byte memory: (address, byte) pairs, addresses strictly rising; an unlisted address has no value of its own (20 R61,
log 4; log 5). -/
abbrev Memory := List Host.Cell

/-- The canonical form of a memory: addresses strictly rising. -/
abbrev Memory.wf (m : Memory) : Prop := m.Pairwise fun x y => x.1 < y.1

/-- The whole machine. The first four groups are the spec's; the last is the model's own. -/
structure State where
  -- datapath registers (10 R21)
  acc      : Dword
  avail    : Dword
  cursor   : Word
  plimit   : Word
  endianL  : Bool
  ocur     : Word
  litrem   : BitVec 16
  tcount   : BitVec 9
  tidx     : BitVec 9
  lidx     : BitVec 8
  didx     : BitVec 9
  copyrem  : Dword
  dist     : Dword
  -- sequencer and flags (10 R22, R25 to R28)
  seq      : Seq
  run      : RunState
  trunc    : Bool
  ovr      : Bool
  err      : ErrCode
  -- host register window (10 R32 to R36); the other registers are views
  hdrflag  : BitVec 8
  csize    : Word
  dsize    : Word
  pbase    : Dword
  obase    : Dword
  -- table RAMs and scratch (10 R41, R43), memories (20 R60)
  lp       : Vector Entry (2 ^ Config.largePb)
  lo       : Vector Entry Config.ovfEntries
  sp       : Vector Entry (2 ^ Config.smallPb)
  so       : Vector Entry Config.ovfEntries
  lens     : Vector CodeLen Config.lensEntries
  src      : Memory
  out      : Memory
  -- source addresses the host wrote inside the payload window of the run (20 R74(a)); rising (log 15)
  tainted  : List Nat
  -- the model's own: draws so far (log 3), the host's last register and memory reads (log 18), whose turn it is (log 1),
  -- the parameters (log 7)
  draws    : Nat
  rdata    : Word
  mdata    : Byte
  turns    : List Turn
  cfg      : Config.Params
  deriving DecidableEq, Repr

/-- Reasons the machine stops with a fault. All four mark states the rules prove unreachable (00 R8): the hardware never
does this, so stopping is safe. -/
inductive Fault where
  /-- Refill would fetch with AVAIL below 0 (40 R110, R113; 60 R284). Raised by every step that reads bits. Safe. -/
  | refillWithDeficit
  /-- Resolve's overflow index is above 511 (43 R190, R191; 60 R284). Raised by the decoding of a symbol. Safe. -/
  | overflowIndex
  /-- LIDX or DIDX is past the static tables (excluded by 43 R194, R196, R198). Raised by XB.LEN and XB.DIST and by their
  decoding. Safe. Log 13. -/
  | staticIndexOutOfRange
  /-- STATE is BUSY and SEQ is IDLE (excluded by 10 R22). Raised by the fetch. Safe. Log 13. -/
  | noElement
  deriving DecidableEq, Repr

/-- Reasons a step has no meaning. -/
inductive Refusal where
  /-- The instruction has no meaning in the model yet. Raised by `exec` only. Safe. -/
  | notModelled (mnemonic : String)
  /-- START with an output region that overlaps the payload window: unspecified, a model refuses (20 R74(b), 93 U4). Raised
  by START and by REGWRITE to CTRL. Safe. -/
  | outputOverlapsSource
  /-- A host write into the output region of a run: unspecified, a model refuses (70 R304, 93 U5). Raised by a host memory
  turn. Safe. -/
  | hostWroteOutput
  deriving DecidableEq, Repr

/-- How a step or a meaning ends. -/
abbrev Result := Host.Outcome State Fault Refusal

/-- The state after reset (10 R47, 70 R300): every register 0, SEQ and STATE IDLE. The table RAMs and LENS, which the spec
leaves unspecified, hold 0 (DESIGN CHOICE, unsafe, log 6); memories list nothing; the model's own fields are empty or 0
(DESIGN CHOICE, logs 1, 3, 18); the parameters are `Config.defaults` (log 7). -/
def State.reset : State where
  acc := 0
  avail := 0
  cursor := 0
  plimit := 0
  endianL := false
  ocur := 0
  litrem := 0
  tcount := 0
  tidx := 0
  lidx := 0
  didx := 0
  copyrem := 0
  dist := 0
  seq := .idle
  run := .idle
  trunc := false
  ovr := false
  err := .none
  hdrflag := 0
  csize := 0
  dsize := 0
  pbase := 0
  obase := 0
  lp := Vector.replicate _ 0
  lo := Vector.replicate _ 0
  sp := Vector.replicate _ 0
  so := Vector.replicate _ 0
  lens := Vector.replicate _ 0
  src := []
  out := []
  tainted := []
  draws := 0
  rdata := 0
  mdata := 0
  turns := []
  cfg := Config.defaults

end Sys2Proof.Machine
end

