-- ==== Sys2Proof/Machine/Ops.lean ====
section
/-! DEFINITION. The named operations over memories, free values and registers that the meanings share: byte memories
(20_memory.md R61, R62), the spans the host must keep apart (R74), raising an error (60_exceptions.md R272), appending an
output byte (44_copy_engine.md R220). -/

namespace Sys2Proof.Machine

/-! ### Byte memories -/

/-- The byte listed at an address. -/
def Memory.read? : Memory → Nat → Option Byte
  | [], _ => none
  | (k, v) :: m, a => if a = k then some v else Memory.read? m a

/-- Store a byte, keeping addresses strictly rising. -/
def Memory.write : Memory → Nat → Byte → Memory
  | [], a, b => [(a, b)]
  | (k, v) :: m, a, b =>
    if a < k then (a, b) :: (k, v) :: m
    else if a = k then (a, b) :: m
    else (k, v) :: Memory.write m a b

/-- Add an address to a strictly rising list of addresses. -/
def addAddress : List Nat → Nat → List Nat
  | [], a => [a]
  | k :: l, a => if a < k then a :: k :: l else if a = k then k :: l else k :: addAddress l a

/-- Addresses wrap modulo 2^ADDR_W (20 R61, R62, R69). -/
def State.wrap (s : State) (a : Nat) : Nat := a % s.cfg.addrSpace

/-- The memory the source space is: the output memory itself where the two are one physical memory (20 R60). Log 9. -/
def State.srcMem (s : State) : Memory := if s.cfg.oneMemory then s.out else s.src

/-- A fresh free byte (20 R61). Log 3. -/
def drawByte (s : State) : Byte × State :=
  (Config.freeByte s.draws, { s with draws := s.draws + 1 })

/-- The defined byte at a source address: none outside SRC_IMAGE (20 R61) and where the host wrote during the run
(20 R74(a)). -/
def State.srcByte? (s : State) (a : Nat) : Option Byte :=
  if s.wrap a ∈ s.tainted then none else s.srcMem.read? (s.wrap a)

/-- `SrcRead(a)` (20 R61): the defined byte, otherwise a draw. It never faults. -/
def srcRead (a : Nat) (s : State) : Byte × State :=
  match s.srcByte? a with
  | some b => (b, s)
  | none => drawByte s

/-- The byte the output memory holds at an address, none if it was never written. -/
def State.outByte? (s : State) (a : Nat) : Option Byte := s.out.read? (s.wrap a)

/-- `OutRead(a)` (20 R62): the byte last written; at an address never written, which R62 shows the engine never reads, the
byte that was there before (log 5). A read has no side effect, and reads of an unchanged byte agree (20 R68). -/
def outRead (a : Nat) (s : State) : Byte :=
  match s.outByte? a with
  | some b => b
  | none => Config.unwrittenByte (s.wrap a)

/-- `OutWrite(a, b)` (20 R62). -/
def outWrite (a : Nat) (b : Byte) (s : State) : State :=
  { s with out := s.out.write (s.wrap a) b }

/-- `a` lies in the `len` addresses from `base` on, in an address space of `m` addresses that wraps. -/
def inSpan (m base len a : Nat) : Bool := decide ((a + (m - base % m)) % m < len)

/-- `a` lies in `[PBASE, PBASE + PLIMIT + 3]`, the bytes a run may fetch (20 R67, R74). -/
def State.inPayloadWindow (s : State) (a : Nat) : Bool :=
  inSpan s.cfg.addrSpace s.pbase.toNat (s.plimit.toNat + 4) a

/-- `a` lies in the output region `[OBASE, OBASE + DSIZE)` (20 R69, R74). -/
def State.inOutputRegion (s : State) (a : Nat) : Bool :=
  inSpan s.cfg.addrSpace s.obase.toNat s.dsize.toNat a

/-- The output region and the payload window share an address (20 R74(b)): the start of one lies in the other. -/
def State.regionsOverlap (s : State) : Bool :=
  decide (s.dsize ≠ 0) && (s.inPayloadWindow s.obase.toNat || s.inOutputRegion s.pbase.toNat)

/-! ### Errors -/

/-- `raise Err(code)` (60 R272): ERR, STATE and SEQ change, nothing else. The machine's one exception entry; there is no
return from it (60 R275). -/
def raiseErr (c : ErrCode) (s : State) : State :=
  { s with err := c, run := .error, seq := .idle }

/-! ### Output -/

/-- Failsafe truncation (44 R220, R221): DONE with TRUNC, nothing written. -/
def truncateRun (s : State) : State :=
  { s with trunc := true, run := .done, seq := .idle }

/-- The address of the next output byte, `OBASE + OCUR` (44 R220). -/
def State.outAddr (s : State) : Nat := s.obase.toNat + s.ocur.toNat

/-- Write the next output byte and advance OCUR (44 R220). -/
def appendByte (b : Byte) (s : State) : State :=
  { outWrite s.outAddr b s with ocur := s.ocur + 1 }

/-- `Append(b)` and what the calling step does after it (44 R220): at `OCUR ≥ DSIZE` the run ends by failsafe truncation
and the rest of the step is not done. -/
def appendThen (b : Byte) (s : State) (rest : State → State) : State :=
  if s.dsize ≤ s.ocur then truncateRun s else rest (appendByte b s)

/-! ### Table RAMs -/

/-- Table contents the spec does not give: free values (70 R300, 41 R136). `ram` tells the RAMs of one draw apart. Logs 6
and 10. -/
def freeRam (draw ram n : Nat) : Vector Entry n :=
  Vector.ofFn fun i => Config.freeEntry draw ram i.val

/-- LENS contents after the reset input: free values (70 R300). Log 6. -/
def freeLens (draw : Nat) : Vector CodeLen Config.lensEntries :=
  Vector.ofFn fun i => Config.freeLen draw i.val

/-- Table w as its two RAMs (43 R190). -/
def State.largeTable (s : State) : CodeTable Config.largePb := { primary := s.lp, overflow := s.lo }

/-- Table w as its two RAMs (43 R190). -/
def State.smallTable (s : State) : CodeTable Config.smallPb := { primary := s.sp, overflow := s.so }

/-- `LENS[TIDX] <- l; TIDX <- TIDX + 1` (41 R134, R135). -/
def storeLen (l : CodeLen) (s : State) : State :=
  { s with lens := s.lens.setIfInBounds s.tidx.toNat l, tidx := s.tidx + 1 }

end Sys2Proof.Machine
end

