-- ==== Sys2Proof/Machine/Flags.lean ====
section
/-! DEFINITION. The flags (10_state.md R25 to R28): their encodings, the STATUS word, and the rule that sets OVR. -/

namespace Sys2Proof.Machine

/-- STATE's encoding (10 R25). -/
def RunState.bits : RunState → BitVec 2
  | .idle => 0
  | .busy => 1
  | .done => 2
  | .error => 3

/-- ERR's encoding (60 R270). -/
def ErrCode.bits : ErrCode → BitVec 8
  | .none => 0
  | .unsupportedCompressionType => 1
  | .invalidTableEntry => 8
  | .sampleOverflow => 9
  | .internalFailure => 12

/-- One flag as a word. -/
def flagWord (b : Bool) : Word := BitVec.ofNat 32 b.toNat

/-- The STATUS register (10 R31, 45 R244): ERR in bits 15:8, OVR in bit 3, TRUNC in bit 2, STATE in bits 1:0. -/
def State.status (s : State) : Word :=
  (s.err.bits.setWidth 32 <<< 8) ||| (flagWord s.ovr <<< 3) ||| (flagWord s.trunc <<< 2) ||| s.run.bits.setWidth 32

/-- OVR after a Take that leaves AVAIL at `avail`: set when AVAIL is negative, never cleared (40 R114, R120; 10 R27).
Log 24. -/
def ovrAfter (ovr : Bool) (avail : Dword) : Bool := ovr || decide (avail.toInt < 0)

/-- BITPOS (10 R23): the payload bits consumed since START. -/
def State.bitpos (s : State) : Int := 8 * (s.cursor.toNat : Int) - s.avail.toInt

end Sys2Proof.Machine
end

