-- ==== Sys2Proof/Machine/Operands.lean ====
section
/-! DEFINITION. Every way an element or a command gets its operands: the bit window's Refill, Take and Read
(40_bit_window.md R110 to R115), the static table rows (43 R194 to R198), the copy source (44 R222), and the registers of
the host window by offset and width (10 R29). -/

namespace Sys2Proof.Machine

/-! ### Bit window -/

/-- `Word32` (40 R111): little-endian has the byte at the lowest address in bits 7:0, big-endian in bits 31:24. -/
def word32 (b0 b1 b2 b3 : Byte) (big : Bool) : Word :=
  if big then b0 ++ b1 ++ b2 ++ b3 else b3 ++ b2 ++ b1 ++ b0

/-- The word at `PBASE + CURSOR`, read byte by byte in the order `b_0 .. b_3` (20 R67, 40 R110). -/
def fetchedWord (s : State) : Word × State :=
  let base := s.pbase.toNat + s.cursor.toNat
  let r0 := srcRead base s
  let r1 := srcRead (base + 1) r0.2
  let r2 := srcRead (base + 2) r1.2
  let r3 := srcRead (base + 3) r2.2
  (word32 r0.1 r1.1 r2.1 r3.1 s.endianL, r3.2)

/-- How many bytes of the next fetch count as valid: `min(4, PLIMIT - CURSOR)`, 0 when the payload is exhausted
(40 R110, R112). -/
def State.fetchCount (s : State) : Nat := min Config.fetchBytes (s.plimit.toNat - s.cursor.toNat)

/-- Merge a fetched word above the valid bits (40 R110): all 32 bits, but only `8n` count as valid (40 R112). -/
def mergeWord (w : Word) (n : Nat) (s : State) : State :=
  { s with
    acc := (w.setWidth 64 <<< s.avail.toNat) ||| (s.acc &&& BitVec.ofNat 64 (2 ^ s.avail.toNat - 1))
    cursor := s.cursor + BitVec.ofNat 32 n
    avail := s.avail + BitVec.ofNat 64 (8 * n) }

/-- `Refill()` (40 R110): nothing with more than 32 valid bits or at the end of the payload; otherwise one fetch. -/
def refill (s : State) : Except Fault State :=
  if (Config.refillThreshold : Int) < s.avail.toInt then .ok s
  else if s.fetchCount = 0 then .ok s
  else if s.avail.toInt < 0 then .error .refillWithDeficit
  else .ok (mergeWord (fetchedWord s).1 s.fetchCount (fetchedWord s).2)

/-- `Take(k)` (40 R114), less the value it returns, which is the decoded operand. -/
def take (k : Nat) (s : State) : State :=
  { s with
    acc := s.acc >>> k
    avail := s.avail - BitVec.ofNat 64 k
    ovr := ovrAfter s.ovr (s.avail - BitVec.ofNat 64 k) }

/-- A step that reads a `k`-bit element: Refill, Take, then the rest of the step (40 R115, 43 R190). -/
def readThen (k : Nat) (s : State) (rest : State → State) : Result :=
  match refill s with
  | .error f => .fault f
  | .ok t => .next (rest (take k t))

/-! ### Static tables -/

/-- `T1[i]`, `T2[i]`, for `i < N12` (43 R198). -/
def State.lengthRow? (s : State) (i : Nat) : Option Config.ExtraRow := s.cfg.tables.lengths[i]?

/-- `T3[d]`, `T4[d]`, for `d < N34` (43 R198). -/
def State.distRow? (s : State) (d : Nat) : Option Config.ExtraRow := s.cfg.tables.dists[d]?

/-- `copyCount = T1[i] + x + 3` (30 R85). -/
def copyCount (r : Config.ExtraRow) (x : Word) : Dword :=
  BitVec.ofNat 64 (r.base.toNat + x.toNat + Config.minCopy)

/-- `distance = T3[d] + y + 1` (30 R85). -/
def copyDistance (r : Config.ExtraRow) (y : Word) : Dword :=
  BitVec.ofNat 64 (r.base.toNat + y.toNat + Config.distBias)

/-! ### Copy source -/

/-- The byte a COPY step produces (44 R222, R224): the output byte DIST back, or 0 before the start of the output, for which
no memory is read. -/
def copySource (s : State) : Byte :=
  if s.dist.toNat ≤ s.ocur.toNat then outRead (s.obase.toNat + (s.ocur.toNat - s.dist.toNat)) s else 0

/-! ### The register window -/

/-- Every register of the window (10 R30 to R39). -/
def allRegs : List Reg :=
  [.ctrl, .status, .hdrflag, .csize, .dsize, .pbaseLo, .pbaseHi, .obaseLo, .obaseHi, .outLen, .cursor, .availLo, .availHi]

/-- A register's byte offset (10 R30 to R39). -/
def regOffset : Reg → Nat
  | .ctrl => 0x00
  | .status => 0x04
  | .hdrflag => 0x08
  | .csize => 0x0C
  | .dsize => 0x10
  | .pbaseLo => 0x14
  | .pbaseHi => 0x18
  | .obaseLo => 0x1C
  | .obaseHi => 0x20
  | .outLen => 0x24
  | .cursor => 0x28
  | .availLo => 0x2C
  | .availHi => 0x30

/-- The register an access reaches: none for a misaligned offset, another width than 32 bits, or a reserved offset
(10 R29, 45 R240, R244). -/
def regAt (off width : Nat) : Option Reg :=
  if off % 4 ≠ 0 ∨ width ≠ 32 then none else allRegs.find? fun r => regOffset r = off

/-- Bits at and above ADDR_W of an address register stay 0 (10 R35, R36). -/
def maskAddr (s : State) (v : Dword) : Dword := BitVec.ofNat 64 (v.toNat % s.cfg.addrSpace)

/-- `v` with its low half replaced. -/
def setLow (v : Dword) (x : Word) : Dword := v.extractLsb' 32 32 ++ x

/-- `v` with its high half replaced. -/
def setHigh (v : Dword) (x : Word) : Dword := x ++ v.extractLsb' 0 32

/-- What a register reads as (45 R244). A read has no side effect. -/
def readReg (r : Reg) (s : State) : Word :=
  match r with
  | .ctrl => 0
  | .status => s.status
  | .hdrflag => s.hdrflag.setWidth 32
  | .csize => s.csize
  | .dsize => s.dsize
  | .pbaseLo => s.pbase.extractLsb' 0 32
  | .pbaseHi => s.pbase.extractLsb' 32 32
  | .obaseLo => s.obase.extractLsb' 0 32
  | .obaseHi => s.obase.extractLsb' 32 32
  | .outLen => s.ocur
  | .cursor => s.cursor
  | .availLo => s.avail.extractLsb' 0 32
  | .availHi => s.avail.extractLsb' 32 32

end Sys2Proof.Machine
end

