-- ==== Sys2Proof/Machine/Sequencer.lean ====
section
/-! DEFINITION. The block sequencer's elements (41_block_sequencer.md R130 to R135, R137): block type, literal run, table
header, end of block. Each meaning is the row's own step: Refill, Take of the row's width, then the effect. -/

namespace Sys2Proof.Machine

/-- `next(w)` (41, opening): TCNT(Small) after the large table, SYM after the small one. -/
def nextTable : Tbl → Seq
  | .large => .tcnt .small
  | .small => .sym

/-- SEQ after a length entry was stored: TBUILD(w) when TIDX has reached TCOUNT (41 R134, R135). -/
def afterLen (w : Tbl) (s : State) : State :=
  { s with seq := if s.tidx = s.tcount then .tbuild w else .tflag w }

/-- BT.LIT (41 R130). -/
def execBtLit (s : State) : Result :=
  readThen 1 s fun t => { t with seq := .lcnt }

/-- BT.TBL (41 R130). -/
def execBtTbl (s : State) : Result :=
  readThen 1 s fun t => { t with seq := .tcnt .large }

/-- LCNT (41 R131). -/
def execLcnt (n : BitVec 15) (s : State) : Result :=
  readThen 15 s fun t => { t with litrem := n.setWidth 16, seq := if n = 0 then .eob else .lbyte }

/-- LBYTE (41 R132). -/
def execLbyte (b : Byte) (s : State) : Result :=
  readThen 8 s fun t =>
    appendThen b t fun u => { u with litrem := u.litrem - 1, seq := if u.litrem - 1 = 0 then .eob else .lbyte }

/-- TCNT (41 R133): a count of 0 keeps table w (41 R140). -/
def execTcnt (w : Tbl) (c : BitVec 9) (s : State) : Result :=
  readThen 9 s fun t =>
    if c = 0 then { t with seq := nextTable w } else { t with tcount := c, tidx := 0, seq := .tflag w }

/-- LEN0 (41 R134): the flag is 0, symbol TIDX is absent. -/
def execLen0 (w : Tbl) (s : State) : Result :=
  readThen 1 s fun t => afterLen w (storeLen 0 t)

/-- LEN (41 R134): the flag is 1, the nibble follows. -/
def execLen (w : Tbl) (s : State) : Result :=
  readThen 1 s fun t => { t with seq := .tnib w }

/-- LEN.NIB (41 R135, 30 R90). -/
def execLenNib (w : Tbl) (l : CodeLen) (s : State) : Result :=
  readThen 4 s fun t => afterLen w (storeLen l t)

/-- EOB.0 (41 R137). -/
def execEob0 (s : State) : Result :=
  readThen 1 s fun t => { t with seq := .bt }

/-- EOB.1 (41 R137, R138). -/
def execEob1 (s : State) : Result :=
  readThen 1 s fun t => { t with run := .done, seq := .idle }

end Sys2Proof.Machine
end

