-- ==== Sys2Proof/Machine/Builder.lean ====
section
/-! DEFINITION. The canonical table builder (42_table_builder.md R160 to R173) and the TBUILD steps (41 R136). -/

namespace Sys2Proof.Machine

/-- A direct or overflow entry, `(s << 7) | L` (42 R165, R170). -/
def directEntry (c : Code) : Entry := BitVec.ofNat 16 (c.sym <<< 7 ||| c.len)

/-- An escape entry, `(base << 7) | (D << 4)` (42 R169). -/
def escapeEntry (base depth : Nat) : Entry := BitVec.ofNat 16 (base <<< 7 ||| depth <<< 4)

/-- Write `v` at every position `f` selects, counting from `j`. -/
def fillFrom (f : Nat → Bool) (v : Entry) : Nat → List Entry → List Entry
  | _, [] => []
  | j, e :: es => (if f j then v else e) :: fillFrom f v (j + 1) es

theorem fillFrom_length (f : Nat → Bool) (v : Entry) : ∀ j es, (fillFrom f v j es).length = es.length
  | _, [] => rfl
  | j, e :: es => by simp [fillFrom, fillFrom_length f v (j + 1) es]

/-- Write `v` at every index of a RAM that `f` selects. -/
def fill {n : Nat} (f : Nat → Bool) (v : Entry) (t : Vector Entry n) : Vector Entry n :=
  ⟨⟨fillFrom f v 0 t.toList⟩, by simp [fillFrom_length]⟩

/-- Step 0 (42 R161): every entry 0. -/
def emptyTable (pb : Nat) : CodeTable pb :=
  { primary := Vector.replicate _ 0, overflow := Vector.replicate _ 0 }

/-- Step 4 (42 R165): every primary slot whose low L bits are the short code's. -/
def writeShort {pb : Nat} (t : CodeTable pb) (c : Code) : CodeTable pb :=
  { t with primary := fill (fun j => decide (j % 2 ^ c.len = c.rc)) (directEntry c) t.primary }

/-- The prefix of a long code: its first pb stream bits (42 R166). -/
def codePrefix (pb : Nat) (c : Code) : Nat := c.rc % 2 ^ pb

/-- The suffix of a long code (42 R166). -/
def codeSuffix (pb : Nat) (c : Code) : Nat := c.rc >>> pb

/-- The prefixes of long codes, in the order of their first members (42 R166). -/
def prefixes (pb : Nat) : List Code → List Nat
  | [] => []
  | c :: cs => codePrefix pb c :: (prefixes pb cs).filter (fun p => p ≠ codePrefix pb c)

/-- `D(g)`: the longest suffix of a group (42 R166). -/
def groupDepth (pb : Nat) : List Code → Nat
  | [] => 0
  | c :: cs => max (c.len - pb) (groupDepth pb cs)

/-- Step 5a (42 R166): the long codes grouped by prefix, in group order. -/
def groups (pb : Nat) (long : List Code) : List Group :=
  (prefixes pb long).map fun p =>
    let ms := long.filter fun c => codePrefix pb c = p
    { pfx := p, depth := groupDepth pb ms, members := ms }

/-- Step 5d (42 R170): the slots of one long code inside its group's sub-table at `base`. -/
def writeOverflow (pb base depth : Nat) (o : Vector Entry Config.ovfEntries) (c : Code) :
    Vector Entry Config.ovfEntries :=
  fill (fun x => decide (base ≤ x ∧ x < base + 2 ^ depth ∧ (x - base) % 2 ^ (c.len - pb) = codeSuffix pb c))
    (directEntry c) o

/-- Steps 5c and 5d for one group (42 R169, R170). -/
def writeGroup {pb : Nat} (base : Nat) (g : Group) (t : CodeTable pb) : CodeTable pb :=
  { primary := t.primary.setIfInBounds g.pfx (escapeEntry base g.depth)
    overflow := g.members.foldl (writeOverflow pb base g.depth) t.overflow }

/-- Step 5b (42 R167, R168, R173): allocate the groups in order; the depth check, then the capacity check, each before the
group is written. -/
def allocate {pb : Nat} : List Group → Nat → CodeTable pb → Except ErrCode (CodeTable pb)
  | [], _, t => .ok t
  | g :: gs, ctr, t =>
    if Config.ovfDepthLimit < g.depth then .error .invalidTableEntry
    else if Config.ovfCapacity < ctr + 2 ^ g.depth then .error .sampleOverflow
    else allocate gs (ctr + 2 ^ g.depth) (writeGroup ctr g t)

/-- `Build` (42 R160): the table of a list of code lengths, or InvalidTableEntry or SampleOverflow. -/
def build (pb : Nat) (lens : List CodeLen) : Except ErrCode (CodeTable pb) :=
  let codes := canonicalCodes lens
  let short := codes.filter fun c => c.len < pb
  let long := codes.filter fun c => pb ≤ c.len
  allocate (groups pb long) 0 (short.foldl writeShort (emptyTable pb))

/-- `LENS[0..TCOUNT-1]` (41 R136). -/
def State.codeLens (s : State) : List CodeLen := s.lens.toList.take s.tcount.toNat

/-- TBUILD.L (41 R136). After a failed build LP and LO hold free values: the spec says only that no later step reads them
(log 10). -/
def execTbuildL (s : State) : Result :=
  match build Config.largePb s.codeLens with
  | .ok t => .next { s with lp := t.primary, lo := t.overflow, seq := nextTable .large }
  | .error e =>
    .next (raiseErr e { s with lp := freeRam s.draws 0 _, lo := freeRam s.draws 1 _, draws := s.draws + 1 })

/-- TBUILD.S (41 R136). After a failed build SP and SO hold free values (log 10). -/
def execTbuildS (s : State) : Result :=
  match build Config.smallPb s.codeLens with
  | .ok t => .next { s with sp := t.primary, so := t.overflow, seq := nextTable .small }
  | .error e =>
    .next (raiseErr e { s with sp := freeRam s.draws 2 _, so := freeRam s.draws 3 _, draws := s.draws + 1 })

end Sys2Proof.Machine
end

