-- ==== Sys2Proof/Machine/Symbols.lean ====
section
/-! DEFINITION. Symbols, extra bits and distances (43_symbol_decode.md R190 to R201). The decoder resolves the symbol and
its length (`resolve`); the meaning Refills, takes that length and has the effect. -/

namespace Sys2Proof.Machine

/-- SYM.LIT (43 R192). -/
def execSymLit (v : Byte) (len : CodeLen) (s : State) : Result :=
  readThen len.toNat s fun t => appendThen v t fun u => { u with seq := .sym }

/-- SYM.END (43 R193). -/
def execSymEnd (len : CodeLen) (s : State) : Result :=
  readThen len.toNat s fun t => { t with seq := .eob }

/-- What a back-reference symbol does with its index (43 R194): InternalFailure past the table (43 R200), the extra bits
next if the row has some, otherwise the count and the distance symbol next. -/
def startCopy (i : Nat) (t : State) : State :=
  match t.lengthRow? i with
  | none => raiseErr .internalFailure t
  | some r =>
    if 0 < r.extra.val then { t with lidx := BitVec.ofNat 8 i, seq := .lextra }
    else { t with copyrem := copyCount r 0, seq := .dsym }

/-- SYM.BREF (43 R194). -/
def execSymBref (v : BitVec 9) (len : CodeLen) (s : State) : Result :=
  readThen len.toNat s fun t => startCopy (v.toNat - Config.copyBaseSym) t

/-- XB.LEN (43 R195). -/
def execXbLen (k : Fin 33) (x : Word) (s : State) : Result :=
  match s.lengthRow? s.lidx.toNat with
  | none => .fault .staticIndexOutOfRange
  | some r => readThen k.val s fun t => { t with copyrem := copyCount r x, seq := .dsym }

/-- What a distance symbol does (43 R196, R200). -/
def startDistance (d : BitVec 9) (t : State) : State :=
  match t.distRow? d.toNat with
  | none => raiseErr .internalFailure t
  | some r =>
    if 0 < r.extra.val then { t with didx := d, seq := .dextra }
    else { t with dist := copyDistance r 0, seq := .copy }

/-- DSYM (43 R196). -/
def execDsym (d : BitVec 9) (len : CodeLen) (s : State) : Result :=
  readThen len.toNat s fun t => startDistance d t

/-- XB.DIST (43 R197). -/
def execXbDist (k : Fin 33) (y : Word) (s : State) : Result :=
  match s.distRow? s.didx.toNat with
  | none => .fault .staticIndexOutOfRange
  | some r => readThen k.val s fun t => { t with dist := copyDistance r y, seq := .copy }

end Sys2Proof.Machine
end

