-- ==== Sys2Proof/Machine/CopyEngine.lean ====
section
/-! DEFINITION. The copy engine's step (44_copy_engine.md R222 to R226). -/

namespace Sys2Proof.Machine

/-- COPY (44 R222): one byte; it reads no bits and never Refills. -/
def execCopy (s : State) : Result :=
  .next (appendThen (copySource s) s fun u =>
    { u with copyrem := u.copyrem - 1, seq := if u.copyrem - 1 = 0 then .sym else .copy })

end Sys2Proof.Machine
end

