-- ==== Sys2Proof/Machine/HostCommands.lean ====
section
/-! DEFINITION. The host's commands (45_host_commands.md R240 to R245) and the reset input (70_reset_and_hazards.md R300). -/

namespace Sys2Proof.Machine

/-- PLIMIT from CSIZE (45 R241, 00 R5(b)): the header's 12 bytes are taken off in IncludesHeader mode, clamped at 0. -/
def payloadLimit (mode : Config.CsizeMode) (csize : Word) : Word :=
  match mode with
  | .payloadOnly => csize
  | .includesHeader => BitVec.ofNat 32 (csize.toNat - Config.headerBytes)

/-- What START clears and latches (45 R241): flags, datapath registers, tables; ENDIAN_L and PLIMIT. The host's writes to
source memory become visible to the run (20 R72(a)), so no address is tainted. -/
def initRun (s : State) : State :=
  { s with
    trunc := false, ovr := false, err := .none
    acc := 0, avail := 0, cursor := 0, ocur := 0
    litrem := 0, tcount := 0, tidx := 0, lidx := 0, didx := 0, copyrem := 0, dist := 0
    lp := Vector.replicate _ 0, lo := Vector.replicate _ 0, sp := Vector.replicate _ 0, so := Vector.replicate _ 0
    endianL := s.hdrflag.getLsbD 7
    plimit := payloadLimit s.cfg.csizeMode s.csize
    tainted := [] }

/-- The START command (45 R241 to R243): ignored while BUSY; a compression type other than 1 raises
UnsupportedCompressionType; a run whose output region overlaps its payload window is refused (20 R74(b), log 14). -/
def startRun (s : State) : Result :=
  if s.run = .busy then .next s
  else if s.hdrflag.setWidth 4 ≠ (1 : BitVec 4) then .next (raiseErr .unsupportedCompressionType (initRun s))
  else if (initRun s).regionsOverlap then .refused .outputOverlapsSource
  else .next { initRun s with seq := .bt, run := .busy }

/-- START (45 R241). -/
def execStart (s : State) : Result := startRun s

/-- A register write that reaches register `r` (45 R240): while BUSY the writable registers keep their value (10 R40);
read-only registers ignore it. -/
def writeReg (r : Reg) (x : Word) (s : State) : Result :=
  match r with
  | .ctrl => if x.getLsbD 0 then startRun s else .next s
  | .hdrflag => .next (if s.run = .busy then s else { s with hdrflag := x.setWidth 8 })
  | .csize => .next (if s.run = .busy then s else { s with csize := x })
  | .dsize => .next (if s.run = .busy then s else { s with dsize := x })
  | .pbaseLo => .next (if s.run = .busy then s else { s with pbase := maskAddr s (setLow s.pbase x) })
  | .pbaseHi => .next (if s.run = .busy then s else { s with pbase := maskAddr s (setHigh s.pbase x) })
  | .obaseLo => .next (if s.run = .busy then s else { s with obase := maskAddr s (setLow s.obase x) })
  | .obaseHi => .next (if s.run = .busy then s else { s with obase := maskAddr s (setHigh s.obase x) })
  | .status | .outLen | .cursor | .availLo | .availHi => .next s

/-- REGWRITE (45 R240): an access that reaches no register is ignored (10 R29). -/
def execRegwrite (off width : Nat) (data : Word) (s : State) : Result :=
  match regAt off width with
  | none => .next s
  | some r => writeReg r data s

/-- What a read at an offset returns: 0 where it reaches no register (10 R29, 45 R244). -/
def readWindow (off width : Nat) (s : State) : Word :=
  match regAt off width with
  | none => 0
  | some r => readReg r s

/-- REGREAD (45 R244): the host receives the value (`rdata`, log 18); no side effect on the engine. -/
def execRegread (off width : Nat) (s : State) : Result :=
  .next { s with rdata := readWindow off width s }

/-- RESET (70 R300, 10 R47): every register takes its reset value; table RAMs and LENS are unspecified, so free values
(log 6); the memories keep their contents, and what is outside the engine is unchanged. -/
def execReset (s : State) : Result :=
  .next { s with
    acc := 0, avail := 0, cursor := 0, plimit := 0, endianL := false, ocur := 0
    litrem := 0, tcount := 0, tidx := 0, lidx := 0, didx := 0, copyrem := 0, dist := 0
    seq := .idle, run := .idle, trunc := false, ovr := false, err := .none
    hdrflag := 0, csize := 0, dsize := 0, pbase := 0, obase := 0
    lp := freeRam s.draws 0 _, lo := freeRam s.draws 1 _, sp := freeRam s.draws 2 _, so := freeRam s.draws 3 _
    lens := freeLens s.draws
    draws := s.draws + 1 }

end Sys2Proof.Machine
end

