-- ==== Sys2Proof/Machine/Dispatch.lean ====
section
/-! DEFINITION. One arm per constructor of `Instr`, each a direct call of its meaning. -/

namespace Sys2Proof.Machine

def exec (i : Instr) (s : State) : Host.Outcome State Fault Refusal :=
  match i with
  | .btLit => Sys2Proof.Machine.execBtLit s
  | .btTbl => Sys2Proof.Machine.execBtTbl s
  | .lcnt n => Sys2Proof.Machine.execLcnt n s
  | .lbyte b => Sys2Proof.Machine.execLbyte b s
  | .tcnt w c => Sys2Proof.Machine.execTcnt w c s
  | .len0 w => Sys2Proof.Machine.execLen0 w s
  | .len w => Sys2Proof.Machine.execLen w s
  | .lenNib w l => Sys2Proof.Machine.execLenNib w l s
  | .symLit v l => Sys2Proof.Machine.execSymLit v l s
  | .symEnd l => Sys2Proof.Machine.execSymEnd l s
  | .symBref v l => Sys2Proof.Machine.execSymBref v l s
  | .xbLen k x => Sys2Proof.Machine.execXbLen k x s
  | .dsym d l => Sys2Proof.Machine.execDsym d l s
  | .xbDist k y => Sys2Proof.Machine.execXbDist k y s
  | .eob0 => Sys2Proof.Machine.execEob0 s
  | .eob1 => Sys2Proof.Machine.execEob1 s
  | .tbuildL => Sys2Proof.Machine.execTbuildL s
  | .tbuildS => Sys2Proof.Machine.execTbuildS s
  | .copy => Sys2Proof.Machine.execCopy s
  | .start => Sys2Proof.Machine.execStart s
  | .regwrite off width data => Sys2Proof.Machine.execRegwrite off width data s
  | .regread off width => Sys2Proof.Machine.execRegread off width s
  | .reset => Sys2Proof.Machine.execReset s

end Sys2Proof.Machine
end

