-- ==== Sys2Proof/Machine/Fetch.lean ====
section
/-! DEFINITION. Fetching the element the engine executes next: the context the sequencer state gives, the refilled window,
the decoder (00_scope.md R9, 40_bit_window.md R110); and placing one table word where a run begins. -/

namespace Sys2Proof.Machine

/-- The decoding context of a state (30 R82, R87): SEQ, with the table or the extra-bit count it reads with. -/
def contextOf (s : State) : Except Fault Ctx :=
  match s.seq with
  | .idle => .ok .idle
  | .bt => .ok .bt
  | .lcnt => .ok .lcnt
  | .lbyte => .ok .lbyte
  | .tcnt w => .ok (.tcnt w)
  | .tflag w => .ok (.tflag w)
  | .tnib w => .ok (.tnib w)
  | .tbuild w => .ok (.tbuild w)
  | .sym => .ok (.sym s.largeTable)
  | .lextra =>
    match s.lengthRow? s.lidx.toNat with
    | some r => .ok (.lextra r.extra)
    | none => .error .staticIndexOutOfRange
  | .dsym => .ok (.dsym s.smallTable)
  | .dextra =>
    match s.distRow? s.didx.toNat with
    | some r => .ok (.dextra r.extra)
    | none => .error .staticIndexOutOfRange
  | .copy => .ok .copy
  | .eob => .ok .eob

/-- The states whose step reads bits, and so Refills (00 R9, 30 R94). -/
def readsBits : Seq → Bool
  | .idle | .tbuild _ | .copy => false
  | .bt | .lcnt | .lbyte | .tcnt _ | .tflag _ | .tnib _ | .sym | .lextra | .dsym | .dextra | .eob => true

/-- The window the element is decoded from: refilled if the step reads bits (40 R110). -/
def windowFor (s : State) : Except Fault Dword :=
  if readsBits s.seq then (refill s).map (·.acc) else .ok s.acc

/-- A decoder's rejection as a fault of the machine. -/
def decodeFault : DecodeError → Fault
  | .noElement => .noElement
  | .overflowIndex => .overflowIndex

/-- The element the engine executes next. -/
def fetchInstr (s : State) : Except Fault Instr :=
  match contextOf s with
  | .error f => .error f
  | .ok c =>
    match windowFor s with
    | .error f => .error f
    | .ok w =>
      match decode c w with
      | .error e => .error (decodeFault e)
      | .ok i => .ok i

/-- One step of the engine (00 R9): while BUSY the element at the window, otherwise nothing (60 R283, log 2). -/
def engineStep (s : State) : Result :=
  if s.run = .busy then
    match fetchInstr s with
    | .error f => .fault f
    | .ok i => exec i s
  else .next s

/-- Store byte `i` of `w` at `base + i`, for the four bytes of a word. -/
def storeTableWord (base w : Nat) (m : Memory) (wrap : Nat → Nat) : Memory :=
  (((m.write (wrap base) (BitVec.ofNat 8 w)).write (wrap (base + 1)) (BitVec.ofNat 8 (w / 2 ^ 8))).write
    (wrap (base + 2)) (BitVec.ofNat 8 (w / 2 ^ 16))).write (wrap (base + 3)) (BitVec.ofNat 8 (w / 2 ^ 24))

/-- A state at the beginning of a run (45 R241: SEQ = BT, an empty window) over a payload of one 32-bit little-endian word
that holds the bits of `w`, with the engine to move. Log 12. -/
def placeTableWord (nbits w : Nat) (s : State) : State :=
  { s with
    acc := 0, avail := 0, cursor := 0, plimit := 4, endianL := false, seq := .bt, run := .busy, turns := [], tainted := []
    src := if s.cfg.oneMemory then s.src else storeTableWord s.pbase.toNat (w % 2 ^ nbits) s.src s.wrap
    out := if s.cfg.oneMemory then storeTableWord s.pbase.toNat (w % 2 ^ nbits) s.out s.wrap else s.out }

end Sys2Proof.Machine
end

