-- ==== Sys2Proof/Machine/HostMemory.lean ====
section
/-! DEFINITION. The host's own accesses to the two memories: before a run to load it, and during a run
(20_memory.md R69, R72, R74; 70_reset_and_hazards.md R303, R304; 93 U3, U5, U7). -/

namespace Sys2Proof.Machine

/-- A host write lands in the output region of a run in progress (70 R304, 93 U5). -/
def State.hostWriteRefused (s : State) (a : Nat) : Bool :=
  decide (s.run = .busy) && s.inOutputRegion (s.wrap a)

/-- Mark a source address the host wrote inside the payload window of a run: its fetches are draws (20 R74(a), 93 U3). -/
def taint (a : Nat) (s : State) : State :=
  if s.run = .busy ∧ s.inPayloadWindow (s.wrap a) = true then { s with tainted := addAddress s.tainted (s.wrap a) } else s

/-- The host writes a byte of source memory. Where source and output are one memory, it is a write to that memory, and is
refused like one (logs 9, 15, 16). -/
def hostSrcWrite (a : Nat) (b : Byte) (s : State) : Result :=
  if s.cfg.oneMemory then
    if s.hostWriteRefused a then .refused .hostWroteOutput
    else .next (taint a { s with out := s.out.write (s.wrap a) b })
  else .next (taint a { s with src := s.src.write (s.wrap a) b })

/-- The host writes a byte of output memory (log 16). -/
def hostOutWrite (a : Nat) (b : Byte) (s : State) : Result :=
  if s.hostWriteRefused a then .refused .hostWroteOutput
  else if s.cfg.oneMemory then .next (taint a { s with out := s.out.write (s.wrap a) b })
  else .next { s with out := s.out.write (s.wrap a) b }

/-- The host reads a byte of output memory: while BUSY a draw (20 R69, R72; 93 U7), otherwise the byte there (20 R68,
R72(b)). Log 17. -/
def hostOutRead (a : Nat) (s : State) : Result :=
  if s.run = .busy then .next { (drawByte s).2 with mdata := (drawByte s).1 } else .next { s with mdata := outRead a s }

end Sys2Proof.Machine
end

