-- ==== Sys2Proof/Machine/Step.lean ====
section
/-! DEFINITION. One step of the machine: the agent whose turn it is moves (00_scope.md R9, log 1). -/

namespace Sys2Proof.Machine

/-- One step. The first turn is used up; with none left the engine moves. A bus access runs the host row it decodes to. -/
def step (s : State) : Host.Outcome State Fault Refusal :=
  match s.turns with
  | [] => engineStep s
  | .engine :: rest => engineStep { s with turns := rest }
  | .bus e :: rest => exec (decodeBus e) { s with turns := rest }
  | .srcWrite a b :: rest => hostSrcWrite a b { s with turns := rest }
  | .outWrite a b :: rest => hostOutWrite a b { s with turns := rest }
  | .outRead a :: rest => hostOutRead a { s with turns := rest }

/-- The state in which the next step runs the element whose bits are `w` (log 12). -/
def State.withFetchWord (s : State) (nbits w : Nat) : State := placeTableWord nbits w s

end Sys2Proof.Machine
end

