-- ==== Sys2Proof/Machine/Container.lean ====
section
/-! DEFINITION. The host software around the engine (45_host_commands.md R246 to R252), outside the block (00_scope.md R3):
functions over the bytes of a container, the sequence of turns that loads and starts the engine, and the host's whole run of
it, from the load to the result. -/

namespace Sys2Proof.Machine

/-- The host-side errors (45 R252, 60 R270). -/
inductive HostError where
  | unsupportedCompressionType
  | notEdlContainer
  | invalidTableEntry
  | sampleOverflow
  | internalFailure
  deriving DecidableEq, Repr

/-- What the spec leaves unspecified on the host side. -/
inductive HostRefusal where
  /-- A matched magic whose 12 header bytes run past the end of the stream (45 R248, 93 U20). Safe. Log 26. -/
  | shortHeader
  /-- ERR holds a reserved code (60 R270, 93 U10): the engine never writes one. Safe. -/
  | reservedErrorCode
  deriving DecidableEq, Repr

/-- How a host-side function ends. -/
inductive HostResult (α : Type) where
  | ok (a : α)
  | fail (e : HostError)
  | refused (r : HostRefusal)
  deriving DecidableEq, Repr

/-- A parsed header (45 R246); the sizes are 32-bit fields widened to 64 bits. -/
structure Header where
  compressionType : Byte
  big   : Bool
  csize : BitVec 64
  dsize : BitVec 64
  deriving DecidableEq, Repr

/-- A header found by the scanner, with the stream position of its `E` (45 R247). -/
structure OffsetHeader where
  header : Header
  offset : Nat
  deriving DecidableEq, Repr

/-- The numeric code of a host-side error (60 R270, 45 R252). -/
def HostError.code : HostError → Nat
  | .unsupportedCompressionType => 1
  | .notEdlContainer => 2
  | .invalidTableEntry => 8
  | .sampleOverflow => 9
  | .internalFailure => 12

/-- The magic: ASCII `E` `D` `L` (30 R91). -/
def magic : List Byte := [0x45, 0x44, 0x4C]

/-- PLAIN_TYPE_MASK as a byte (00 R5(d)). -/
def typeMaskByte : Config.TypeMask → Byte
  | .mask0F => 0x0F
  | .mask8F => 0x8F

/-- `bswap32` (45 R246). -/
def bswap32 (x : Word) : Word :=
  x.extractLsb' 0 8 ++ x.extractLsb' 8 8 ++ x.extractLsb' 16 8 ++ x.extractLsb' 24 8

/-- A 32-bit size field in the byte order of the flag (30 R91, 45 R246). -/
def sizeField (b0 b1 b2 b3 : Byte) (big : Bool) : Word :=
  let x : Word := b3 ++ b2 ++ b1 ++ b0
  if big then bswap32 x else x

/-- The fields after the magic (45 R246), the type taken with `mask`. -/
def parseFields (mask : Byte) (h : List Byte) : HostResult Header :=
  match h with
  | _ :: _ :: _ :: flag :: c0 :: c1 :: c2 :: c3 :: d0 :: d1 :: d2 :: d3 :: _ =>
    .ok { compressionType := flag &&& mask
          big := flag.getLsbD 7
          csize := (sizeField c0 c1 c2 c3 (flag.getLsbD 7)).setWidth 64
          dsize := (sizeField d0 d1 d2 d3 (flag.getLsbD 7)).setWidth 64 }
  | _ => .refused .shortHeader

/-- `parseHeader` (45 R246): the magic is checked before anything else is read. -/
def parseHeader (mask : Config.TypeMask) (h : List Byte) : HostResult Header :=
  if h.take 3 ≠ magic then .fail .notEdlContainer else parseFields (typeMaskByte mask) h

/-- `parseAtOffset` on the bytes from the `E` at stream position `q` on (45 R247): the type is always the low nibble. -/
def parseAtOffset (h : List Byte) (q : Nat) : HostResult OffsetHeader :=
  match parseFields 0x0F h with
  | .ok f => .ok { header := f, offset := q }
  | .fail e => .fail e
  | .refused r => .refused r

/-- Put one scanner match in front of the matches after it; a refusal of either refuses the scan. -/
def consMatch (m : HostResult OffsetHeader) (rest : HostResult (List OffsetHeader)) : HostResult (List OffsetHeader) :=
  match m with
  | .fail e => .fail e
  | .refused r => .refused r
  | .ok o =>
    match rest with
    | .ok os => .ok (o :: os)
    | .fail e => .fail e
    | .refused r => .refused r

/-- `scan` over the bytes left in the stream, the first of them at position `pos` (45 R248): fewer than 3 bytes end it, a
byte that fails a match is consumed (no backtracking), and after a match it goes on after the `L`. -/
def scan : List Byte → Nat → HostResult (List OffsetHeader)
  | b0 :: b1 :: b2 :: rest, pos =>
    if b0 ≠ 0x45 then scan (b1 :: b2 :: rest) (pos + 1)
    else if b1 ≠ 0x44 then scan (b2 :: rest) (pos + 2)
    else if b2 ≠ 0x4C then scan rest (pos + 3)
    else consMatch (parseAtOffset (b0 :: b1 :: b2 :: rest) pos) (scan rest (pos + 3))
  | _, _ => .ok []

/-- `StoreDecode` (45 R250): bytes 12 on, as many as the stream has and the header declares. -/
def storeDecode (source : List Byte) (h : Header) : List Byte :=
  (source.drop Config.headerBytes).take (min (source.length - Config.headerBytes) h.dsize.toNat)

/-- The host writes bytes of source memory from `a` on (45 R251: "place the container at source-memory address A"). -/
def placeBytes : Nat → List Byte → List Turn
  | _, [] => []
  | a, b :: bs => .srcWrite a b :: placeBytes (a + 1) bs

/-- One 32-bit register write of the host. -/
def regWriteTurn (r : Reg) (x : Word) : Turn := .bus (.write (regOffset r) 32 x)

/-- The register writes of `EngineRun`, START last (45 R251). -/
def loadTurns (flag : Byte) (csize dsize : Word) (pbase obase : Dword) : List Turn :=
  [ regWriteTurn .hdrflag (flag.setWidth 32), regWriteTurn .csize csize, regWriteTurn .dsize dsize,
    regWriteTurn .pbaseLo (pbase.setWidth 32), regWriteTurn .pbaseHi (pbase.extractLsb' 32 32),
    regWriteTurn .obaseLo (obase.setWidth 32), regWriteTurn .obaseHi (obase.extractLsb' 32 32),
    regWriteTurn .ctrl 1 ]

/-- `EngineRun` up to the poll (45 R251): the container placed at `a`, the registers written, the run started. -/
def engineRunTurns (source : List Byte) (h : Header) (flag : Byte) (a obase : Nat) : List Turn :=
  placeBytes a source ++
    loadTurns flag (h.csize.setWidth 32) (h.dsize.setWidth 32) (BitVec.ofNat 64 (a + Config.headerBytes))
      (BitVec.ofNat 64 obase)

/-- The output bytes of a run that ended DONE: OUT_LEN bytes at OBASE (44 R227, 45 R251). -/
def outputBytes (obase : Nat) (s : State) : List Byte :=
  (List.range s.ocur.toNat).map fun i => outRead (obase + i) s

/-- What the host makes of a STATUS word (45 R251): none means poll again; DONE is a success; ERROR names the failure. -/
def pollVerdict (status : Word) : Option (HostResult Unit) :=
  if peek (status.setWidth 64) 2 = 2 then some (.ok ())
  else if peek (status.setWidth 64) 2 = 3 then
    some (match peekAt (status.setWidth 64) 8 8 with
      | 1 => .fail .unsupportedCompressionType
      | 8 => .fail .invalidTableEntry
      | 9 => .fail .sampleOverflow
      | 12 => .fail .internalFailure
      | _ => .refused .reservedErrorCode)
  else none

/-! ### The host's engine run, to its result (45 R249, R251) -/

/-- How a call of the host software ends. -/
inductive HostRun where
  /-- It returns, with the machine as it leaves it. -/
  | returned (r : HostResult (List Byte)) (s : State)
  /-- It is still polling: the polls it was given are used up. The loop of 45 R251 itself has no bound (41 R139); a host that
  needs an end bounds it and resets the engine (70 R307). -/
  | polling (s : State)
  /-- A step of the machine ended in a fault. -/
  | fault (f : Fault)
  /-- A step of the machine was refused. -/
  | refused (r : Refusal)
  deriving DecidableEq, Repr

/-- Go on from the state a step or a sequence of steps answers. -/
def HostRun.after (r : Result) (k : State → HostRun) : HostRun :=
  match r with
  | .next t => k t
  | .fault f => .fault f
  | .refused r => .refused r

/-- The steps in which the agents of a list move, one after the other. -/
def runTurns : List Turn → State → Result
  | [], s => .next s
  | t :: ts, s =>
    match step { s with turns := [t] } with
    | .next u => runTurns ts u
    | .fault f => .fault f
    | .refused r => .refused r

/-- One 32-bit register read of the host. -/
def regReadTurn (r : Reg) : Turn := .bus (.read (regOffset r) 32)

/-- The host reads `n` bytes of output memory from `a` on, one access each, and returns them after those it has. -/
def readBack : Nat → Nat → List Byte → State → HostRun
  | 0, _, got, s => .returned (.ok got) s
  | n + 1, a, got, s => .after (runTurns [.outRead a] s) fun t => readBack n (a + 1) (got ++ [t.mdata]) t

/-- What the host returns once STATUS has a verdict (45 R251): the `RegRead(0x24)` bytes at OBASE, or the failure. -/
def runResult (obase : Nat) (v : HostResult Unit) (s : State) : HostRun :=
  match v with
  | .ok () => .after (runTurns [regReadTurn .outLen] s) fun t => readBack t.rdata.toNat obase [] t
  | .fail e => .returned (.fail e) s
  | .refused r => .returned (.refused r) s

/-- `repeat s <- RegRead(0x04) until s[1:0] ∈ {2, 3}` and the result (45 R251). Before each poll the engine takes the number
of steps the list gives for it: host and engine interleave in any order (00 R9). -/
def pollLoop (obase : Nat) : List Nat → State → HostRun
  | [], s => .polling s
  | n :: polls, s =>
    .after (runTurns (List.replicate n .engine ++ [regReadTurn .status]) s) fun t =>
      match pollVerdict t.rdata with
      | none => pollLoop obase polls t
      | some v => runResult obase v t

/-- `EngineRun` (45 R251): the container placed at `a`, the registers written, the run started, polled and read back. `a` and
`obase` are the host's choice, `polls` when it polls. -/
def engineRun (source : List Byte) (h : Header) (flag : Byte) (a obase : Nat) (polls : List Nat) (s : State) : HostRun :=
  .after (runTurns (engineRunTurns source h flag a obase) s) (pollLoop obase polls)

/-- `decompress` (45 R249): the type chooses the store decoder or the engine, or fails; a failure of the parse or of the engine
is the result. -/
def decompress (mask : Config.TypeMask) (source : List Byte) (a obase : Nat) (polls : List Nat) (s : State) : HostRun :=
  match parseHeader mask source with
  | .fail e => .returned (.fail e) s
  | .refused r => .returned (.refused r) s
  | .ok h =>
    if h.compressionType = 0 then .returned (.ok (storeDecode source h)) s
    else if h.compressionType = 1 then engineRun source h (source.getD 3 0) a obase polls s
    else .returned (.fail .unsupportedCompressionType) s

end Sys2Proof.Machine
end

