-- ==== Sys2Proof/Safety.lean ====
section
/-! DEFINITION. What a safe run is, in the terms the claims use: the invariants of a reachable state, and the shapes of
"nothing else changed". -/

namespace Sys2Proof.Machine

/-- SEQ is IDLE whenever STATE is not BUSY, and only then (10 R22). -/
def State.SeqOk (s : State) : Prop := s.run = .busy ↔ s.seq ≠ .idle

/-- ERR is nonzero exactly in an ERROR run (10 R28), and TRUNC is set only in a DONE run (10 R26, 44 R221). -/
def State.FlagsOk (s : State) : Prop :=
  (s.err ≠ .none ↔ s.run = .error) ∧ (s.trunc = true → s.run = .done)

/-- The memories keep their canonical form, at addresses that exist (20 R61, R62). -/
def State.MemOk (s : State) : Prop :=
  (s.src.wf ∧ s.out.wf ∧ s.tainted.Pairwise (· < ·)) ∧
    (∀ c ∈ s.src, c.1 < s.cfg.addrSpace) ∧ (∀ c ∈ s.out, c.1 < s.cfg.addrSpace) ∧ ∀ a ∈ s.tainted, a < s.cfg.addrSpace

/-- The bits of PBASE and OBASE at and above ADDR_W are 0 (10 R35, R36). -/
def State.AddressRegsOk (s : State) : Prop :=
  s.pbase.toNat < s.cfg.addrSpace ∧ s.obase.toNat < s.cfg.addrSpace

/-- OCUR never exceeds DSIZE in a run (44 R220, R225). -/
def State.OutputOk (s : State) : Prop := s.run = .busy → s.ocur ≤ s.dsize

/-- The operands each sequencer state relies on (41 R132, R134 to R136; 43 R194 to R197; 44 R222). -/
def State.OperandsOk (s : State) : Prop :=
  match s.seq with
  | .lbyte => 1 ≤ s.litrem.toNat
  | .tflag _ | .tnib _ => s.tidx < s.tcount
  | .tbuild _ => s.tidx = s.tcount ∧ s.tcount ≠ 0
  | .lextra => ∃ r, s.lengthRow? s.lidx.toNat = some r ∧ 0 < r.extra.val
  | .dsym => 3 ≤ s.copyrem.toNat
  | .dextra => 3 ≤ s.copyrem.toNat ∧ ∃ r, s.distRow? s.didx.toNat = some r ∧ 0 < r.extra.val
  | .copy => 1 ≤ s.copyrem.toNat ∧ 1 ≤ s.dist.toNat
  | .idle | .bt | .lcnt | .tcnt _ | .sym | .eob => True

/-- A primary entry: an escape's sub-table lies inside the overflow RAM (42 R171, 43 R191), a direct entry names a symbol a
table can have (00 R6). -/
def PrimaryOk (e : Entry) : Prop :=
  if entryLen e = 0 then (entryValue e).toNat + 2 ^ (entryDepth e).toNat ≤ Config.ovfCapacity
  else (entryValue e).toNat ≤ 510

/-- A code table as Build leaves it (42 R171, 43 R191). -/
def TableOk {pb : Nat} (t : CodeTable pb) : Prop :=
  (∀ e ∈ t.primary.toList, PrimaryOk e) ∧ ∀ e ∈ t.overflow.toList, (entryValue e).toNat ≤ 510

/-- The tables of a run (START clears them, 45 R241; only TBUILD writes them, 10 R41). -/
def State.TablesOk (s : State) : Prop := s.run = .busy → TableOk s.largeTable ∧ TableOk s.smallTable

/-- The output region and the payload window of a run share no address: START refuses a run in which they do (20 R74(b)). -/
def State.DisjointOk (s : State) : Prop := s.run = .busy → s.regionsOverlap = false

/-- The sum of `2^(15-L)` over the present symbols: a set of lengths is not over-subscribed when it is at most `2^15`. -/
def kraftSum (lens : List CodeLen) : Nat :=
  (lens.map fun l => if l = 0 then 0 else 2 ^ (15 - l.toNat)).sum

/-- The invariant of the machine, less the bit window. -/
structure State.Inv (s : State) : Prop where
  seqOk : s.SeqOk
  flagsOk : s.FlagsOk
  memOk : s.MemOk
  addressRegsOk : s.AddressRegsOk
  outputOk : s.OutputOk
  operandsOk : s.OperandsOk
  tablesOk : s.TablesOk
  disjointOk : s.DisjointOk

/-- While a fetch can still happen AVAIL is not negative (40 R113): then Refill does not fault. -/
def State.Refillable (s : State) : Prop := s.cursor < s.plimit → 0 ≤ s.avail.toInt

/-- The bit window of a run (40 R117): AVAIL is at most 64, CURSOR at most PLIMIT, BITPOS not negative; while bytes are left
to fetch, AVAIL is not negative and every ACC bit at and above AVAIL is 0; and AVAIL below 0 has set OVR (10 R27,
40 R120). -/
def State.WindowOk (s : State) : Prop :=
  s.run = .busy →
    s.avail.toInt ≤ 64 ∧ s.cursor ≤ s.plimit ∧ 0 ≤ s.bitpos ∧
      (s.cursor < s.plimit → 0 ≤ s.avail.toInt ∧ s.acc.toNat < 2 ^ s.avail.toNat) ∧
      (s.avail.toInt < 0 → s.ovr = true)

/-- Bit `n` of the payload (30 R81, 40 R111): bit `n % 32` of the 32-bit word `n / 32`, whose byte order is ENDIAN_L's; none
where that byte is not defined. -/
def State.payloadBit? (s : State) (n : Nat) : Option Bool :=
  (s.srcByte? (s.pbase.toNat + 4 * (n / 32) + (if s.endianL then 3 - n % 32 / 8 else n % 32 / 8))).map (·.getLsbD (n % 8))

/-- The valid bits of the window are the next bits of the payload, from BITPOS on; and fetches stay on word boundaries until
the last. -/
def State.HoldsPayload (s : State) : Prop :=
  s.run = .busy →
    (s.cursor < s.plimit → s.cursor.toNat % 4 = 0) ∧
      ∀ i : Nat, (i : Int) < s.avail.toInt → ∀ b, s.payloadBit? (s.bitpos + i).toNat = some b → s.acc.getLsbD i = b

/-- The next Take cannot take AVAIL below the least i64 (10 R23: it "cannot wrap"). -/
def State.NoWrap (s : State) : Prop := -(2 ^ 63) + 32 ≤ s.avail.toInt

/-- Only the bit window moved: ACC, AVAIL, CURSOR, OVR, and the draws a fetch made. -/
def SameButWindow (s t : State) : Prop :=
  t = { s with acc := t.acc, avail := t.avail, cursor := t.cursor, ovr := t.ovr, draws := t.draws }

/-- `s` with the bit window of `w` (ACC, AVAIL, CURSOR, OVR) and the draws that were made to fill it. -/
def State.withWindow (s w : State) : State :=
  { s with acc := w.acc, avail := w.avail, cursor := w.cursor, ovr := w.ovr, draws := w.draws }

/-- The window of `w` is that of `s` after Refill and Take(k): Read(k) (40 R115). -/
def TookBits (k : Nat) (s w : State) : Prop := ∃ u, refill s = .ok u ∧ w = take k u

/-- One byte was stored in output memory, at address `a`: it reads back, and every other address of both memories reads as
before; the source memory changes at most where it is the same physical memory (20 R60). -/
def StoredByte (s t : State) (a : Nat) (b : Byte) : Prop :=
  t.outByte? a = some b ∧
    (∀ a', s.wrap a' ≠ s.wrap a → t.outByte? a' = s.outByte? a') ∧
    ∀ a', (s.wrap a' ≠ s.wrap a ∨ s.cfg.oneMemory = false) → t.srcByte? a' = s.srcByte? a'

/-- A host write of source byte `b` at address `a` took `s` to `t` (20 R74(a), log 15): inside the payload window of a run the
address is marked, and at a marked address the byte is open, until a START clears the marks and the run reads `b`; at any
other address it is `b` at once. No other source address changes. -/
def SourceWritten (s t : State) (a : Nat) (b : Byte) : Prop :=
  (s.wrap a ∈ t.tainted ↔ s.wrap a ∈ s.tainted ∨ (s.run = .busy ∧ s.inPayloadWindow (s.wrap a) = true)) ∧
    t.srcByte? a = (if s.wrap a ∈ t.tainted then none else some b) ∧
    (initRun t).srcByte? a = some b ∧
    ∀ a', s.wrap a' ≠ s.wrap a → t.srcByte? a' = s.srcByte? a'

/-- Every byte of both memories reads as before. -/
def SameMemory (s t : State) : Prop :=
  ∀ a, t.outByte? a = s.outByte? a ∧ t.srcByte? a = s.srcByte? a

/-- `lens` is the code-length set `LENS[0..TCOUNT-1]` TBUILD builds from (41 R136). -/
def State.LengthsAre (s : State) (lens : List CodeLen) : Prop :=
  lens.length = s.tcount.toNat ∧ ∀ (i : Nat) (h : i < 511), i < s.tcount.toNat → lens[i]? = some s.lens[i]

/-- The four bytes of a header's size field, in the byte order its flag byte gives (30 R91). -/
def sizeBytes (flag : Byte) (x : Word) : List Byte :=
  let le : List Byte := [x.extractLsb' 0 8, x.extractLsb' 8 8, x.extractLsb' 16 8, x.extractLsb' 24 8]
  if 128 ≤ flag.toNat then le.reverse else le

/-- The engine moves at the next step: no turn is left, or the next one is its own. -/
def State.engineNext (s : State) : Prop := s.turns = [] ∨ ∃ rest, s.turns = .engine :: rest

/-- The state after the next turn was used up. -/
def State.afterTurn (s : State) : State := { s with turns := s.turns.tail }

/-- `t` is reached from `s` by steps that all answer a next state. -/
inductive Reaches : State → State → Prop where
  | refl (s : State) : Reaches s s
  | tail {s t u : State} : Reaches s t → step t = .next u → Reaches s u

/-- A safe state: no step from it, now or later, ends in a fault (00 R8: `fault` lines are unreachable). -/
def State.Safe (s : State) : Prop := ∀ t, Reaches s t → ∀ f, step t ≠ .fault f

end Sys2Proof.Machine
end

