-- ==== Sys2Proof/Certificates/Slice0/Obligations.lean ====
section
/-! DEFINITION. The statements for the provers, in the order of the spec's files. -/

open Sys2Proof Sys2Proof.Machine

/-! ### The machine as a whole (00_scope.md, 10_state.md, 60_exceptions.md, 70_reset_and_hazards.md) -/

/-- 00 R9, 30 R95. The agent whose turn it is moves: on an engine turn of a BUSY machine the fetched element is executed, on
a bus turn the host row the access decodes to; the turn is used up and nothing else is added. The turns are the model's own
form of "interleave in any order" (log 1). -/
def Obligations.StepRunsTheDecodedInstruction : Prop :=
  (∀ (s u : State) (c : Ctx) (i : Instr), s.run = .busy → s.engineNext → readsBits s.seq = true →
      contextOf s.afterTurn = .ok c → refill s.afterTurn = .ok u → decode c u.acc = .ok i →
      step s = exec i s.afterTurn) ∧
  (∀ (s : State) (c : Ctx) (i : Instr), s.run = .busy → s.engineNext → readsBits s.seq = false →
      contextOf s.afterTurn = .ok c → decode c s.acc = .ok i → step s = exec i s.afterTurn) ∧
  (∀ (s : State) (e : BusAccess) (rest : List Turn), s.turns = .bus e :: rest →
      step s = exec (decodeBus e) s.afterTurn)

/-- 30 R82 with 00 R9: which element each sequencer state reads, and with which operands, as arithmetic on the refilled
window. -/
def Obligations.EachSequencerStateReadsItsElement : Prop :=
  ∀ s : State, s.run = .busy → s.engineNext →
    (s.seq = .tbuild .large → step s = exec .tbuildL s.afterTurn) ∧
    (s.seq = .tbuild .small → step s = exec .tbuildS s.afterTurn) ∧
    (s.seq = .copy → step s = exec .copy s.afterTurn) ∧
    ∀ u, refill s.afterTurn = .ok u →
    (s.seq = .bt → step s = exec (if u.acc.toNat % 2 = 1 then .btTbl else .btLit) s.afterTurn) ∧
    (s.seq = .lcnt → ∀ n, n.toNat = u.acc.toNat % 2 ^ 15 → step s = exec (.lcnt n) s.afterTurn) ∧
    (s.seq = .lbyte → ∀ b, b.toNat = u.acc.toNat % 2 ^ 8 → step s = exec (.lbyte b) s.afterTurn) ∧
    (∀ w, s.seq = .tcnt w → ∀ c, c.toNat = u.acc.toNat % 2 ^ 9 → step s = exec (.tcnt w c) s.afterTurn) ∧
    (∀ w, s.seq = .tflag w → step s = exec (if u.acc.toNat % 2 = 1 then .len w else .len0 w) s.afterTurn) ∧
    (∀ w, s.seq = .tnib w → ∀ l, l.toNat = u.acc.toNat % 2 ^ 4 → step s = exec (.lenNib w l) s.afterTurn) ∧
    (s.seq = .lextra → ∀ r, s.lengthRow? s.lidx.toNat = some r → ∀ x, x.toNat = u.acc.toNat % 2 ^ r.extra.val →
      step s = exec (.xbLen r.extra x) s.afterTurn) ∧
    (s.seq = .dextra → ∀ r, s.distRow? s.didx.toNat = some r → ∀ y, y.toNat = u.acc.toNat % 2 ^ r.extra.val →
      step s = exec (.xbDist r.extra y) s.afterTurn) ∧
    (s.seq = .sym → ∀ r, resolve s.largeTable u.acc = .ok r →
      step s = exec (if r.value.toNat < 0x100 then .symLit (r.value.setWidth 8) r.len
        else if r.value.toNat = 0x100 then .symEnd r.len else .symBref r.value r.len) s.afterTurn) ∧
    (s.seq = .dsym → ∀ r, resolve s.smallTable u.acc = .ok r → step s = exec (.dsym r.value r.len) s.afterTurn) ∧
    (s.seq = .eob → step s = exec (if u.acc.toNat % 2 = 1 then .eob1 else .eob0) s.afterTurn)

/-- 60 R283: an IDLE, DONE or ERROR engine takes no step. That its turn leaves the state as it is (but for the turn) is the
model's form of it (log 2). -/
def Obligations.IdleEngineTakesNoStep : Prop :=
  ∀ s : State, s.run ≠ .busy → s.engineNext → step s = .next s.afterTurn

/-- The invariant holds at reset: SEQ against STATE, flags, memories, address registers, OCUR, operands, tables (Safety.lean),
and the bit window's two. -/
def Obligations.ResetMeetsTheInvariant : Prop :=
  State.reset.Inv ∧ State.reset.WindowOk ∧ State.reset.HoldsPayload

/-- Every step keeps the invariant: SEQ is IDLE exactly when STATE is not BUSY (10 R22), ERR and TRUNC agree with STATE,
memories keep their canonical form, PBASE and OBASE stay inside ADDR_W, OCUR never exceeds DSIZE in a run, each sequencer
state finds the operands it relies on, every escape entry stays inside its overflow RAM, and the output of a run shares no
address with its payload. -/
def Obligations.EveryStepKeepsTheInvariant : Prop :=
  ∀ s t : State, s.Inv → step s = .next t → t.Inv

/-- Every step keeps the bit window's invariant (40, invariants of a run): AVAIL at most 64, CURSOR at most PLIMIT, BITPOS not
negative, while bytes are left to fetch AVAIL not negative and no ACC bit at or above it, and OVR set wherever AVAIL is below 0
(10 R27, 40 R120). `NoWrap` says that AVAIL is not
within 32 of the least i64, where the register would wrap; the spec says that cannot happen. -/
def Obligations.EveryStepKeepsTheWindow : Prop :=
  ∀ s t : State, s.Inv → s.WindowOk → s.NoWrap → step s = .next t → t.WindowOk

/-- The bits a run decodes are the payload's (30, bit order; 40, Refill): every step keeps the valid bits of ACC equal to the
payload bits from BITPOS on, in the byte order of ENDIAN_L, wherever those bytes are defined. Each step takes its element from
the low end of that window (EachSequencerStateReadsItsElement, BitposAdvancesByTheWidth). The premises are the other
invariants and `NoWrap`. -/
def Obligations.WindowHoldsThePayloadBits : Prop :=
  ∀ s t : State, s.Inv → s.WindowOk → s.NoWrap → s.HoldsPayload → step s = .next t → t.HoldsPayload

/-- How a run ends (60 R271, R274; 41; 44): a step that leaves BUSY is the reset input, or it executes an end-of-block bit of
1 (EOB.1); an element that appends, with the declared output full (failsafe truncation); a table build that raises
SampleOverflow; or a symbol past the static tables (InternalFailure). No other step, of the engine or of the host, ends a run. -/
def Obligations.RunsEndOnlyByTheirCauses : Prop :=
  ∀ s t : State, s.Inv → s.run = .busy → step s = .next t → t.run ≠ .busy →
    (t.run = .idle ∧ ∃ rest, s.turns = .bus .resetInput :: rest) ∨
    (s.engineNext ∧ ∃ i, fetchInstr s.afterTurn = .ok i ∧
      ((t.run = .done ∧ t.trunc = false ∧ i = .eob1) ∨
       (t.run = .done ∧ t.trunc = true ∧ t.ocur = s.dsize ∧ ((∃ b, i = .lbyte b) ∨ (∃ v l, i = .symLit v l) ∨ i = .copy)) ∨
       (t.run = .error ∧ t.err = .sampleOverflow ∧ t.trunc = false ∧ (i = .tbuildL ∨ i = .tbuildS)) ∨
       (t.run = .error ∧ t.err = .internalFailure ∧ t.trunc = false ∧
         ((∃ v l, i = .symBref v l ∧ s.cfg.n12 ≤ v.toNat - 0x101) ∨ ∃ d l, i = .dsym d l ∧ s.cfg.n34 ≤ d.toNat))))

/-- The `fault` lines are unreachable (60, model faults): no step from a state with both invariants ends in a fault, the
spec's two and the model's two (log 13). -/
def Obligations.NoStepFaults : Prop :=
  ∀ s : State, s.Inv → s.WindowOk → ∀ f, step s ≠ .fault f

/-- The elements a run fetches have the operand ranges of the opcode table. -/
def Obligations.FetchedElementsAreWellFormed : Prop :=
  ∀ (s : State) (i : Instr), s.Inv → s.run = .busy → fetchInstr s = .ok i → i.wf = true

/-- A run cannot see a register change midway and cannot change its inputs: no engine step changes the host registers, PLIMIT,
ENDIAN_L, the source memory, the parameters, or what the host last read. -/
def Obligations.EngineStepsLeaveTheRunsInputs : Prop :=
  ∀ s t : State, s.engineNext → step s = .next t →
    t.hdrflag = s.hdrflag ∧ t.csize = s.csize ∧ t.dsize = s.dsize ∧ t.pbase = s.pbase ∧ t.obase = s.obase ∧
      t.plimit = s.plimit ∧ t.endianL = s.endianL ∧ t.src = s.src ∧ t.tainted = s.tainted ∧ t.cfg = s.cfg ∧
      t.rdata = s.rdata ∧ t.mdata = s.mdata ∧ t.turns = s.turns.tail

/-- An engine step writes at most the next output byte, below DSIZE, and OCUR counts it: every other output address reads as
before (44, the run's output). -/
def Obligations.EngineStepsWriteOnlyTheNextOutputByte : Prop :=
  ∀ s t : State, s.engineNext → step s = .next t →
    (t.ocur = s.ocur ∧ ∀ a, t.outByte? a = s.outByte? a) ∨
    (s.ocur < s.dsize ∧ t.ocur.toNat = s.ocur.toNat + 1 ∧ ∃ b, StoredByte s t s.outAddr b)

/-- 70 R300, 10 R47: the reset input gives every register its reset value and touches neither memory. The table RAMs and
LENS are unspecified: the model's are free values (log 6), so the statement says nothing of them. -/
def Obligations.ResetInputClearsEveryRegister : Prop :=
  ∀ s : State, ∃ t, exec .reset s = .next t ∧
    t = { s with
      acc := 0, avail := 0, cursor := 0, plimit := 0, endianL := false, ocur := 0, litrem := 0, tcount := 0, tidx := 0
      lidx := 0, didx := 0, copyrem := 0, dist := 0, seq := .idle, run := .idle, trunc := false, ovr := false, err := .none
      hdrflag := 0, csize := 0, dsize := 0, pbase := 0, obase := 0
      lp := t.lp, lo := t.lo, sp := t.sp, so := t.so, lens := t.lens, draws := t.draws } ∧
    t.status = 0 ∧ SameMemory s t

/-- Rows that store nothing leave every byte of both memories as it was: every row but LBYTE, SYM.LIT and COPY. START makes
host writes visible, so the defined source bytes are compared only for the others. -/
def Obligations.RowsThatStoreNothingLeaveTheMemories : Prop :=
  ∀ (i : Instr) (s t : State), exec i s = .next t →
    (∀ b, i ≠ .lbyte b) → (∀ v l, i ≠ .symLit v l) → i ≠ .copy →
    t.src = s.src ∧ t.out = s.out ∧ (∀ a, t.outByte? a = s.outByte? a) ∧
      (i ≠ .start → (∀ off width x, i ≠ .regwrite off width x) → ∀ a, t.srcByte? a = s.srcByte? a)

/-! ### Encoding (30_encoding.md) -/

/-- Words written out bit by bit from 30 R82 decode to the elements they stand for. -/
def Obligations.SampleWordsDecode : Prop :=
  decode .bt 0b0 = .ok .btLit ∧ decode .bt 0b1 = .ok .btTbl ∧
  decode .lcnt 0b000000000000101 = .ok (.lcnt 5) ∧
  decode .lbyte 0b11110000 = .ok (.lbyte 0xF0) ∧
  decode (.tcnt .large) 0b100000011 = .ok (.tcnt .large 259) ∧
  decode (.tflag .small) 0b0 = .ok (.len0 .small) ∧ decode (.tflag .small) 0b1 = .ok (.len .small) ∧
  decode (.tnib .large) 0b1111 = .ok (.lenNib .large 15) ∧
  decode (.lextra 1) 0b1 = .ok (.xbLen 1 1) ∧ decode (.dextra 3) 0b11101 = .ok (.xbDist 3 5) ∧
  decode .eob 0b0 = .ok .eob0 ∧ decode .eob 0b1 = .ok .eob1 ∧
  decodeBus (.write 0 32 1) = .start ∧ decodeBus (.write 8 32 0x81) = .regwrite 8 32 0x81

/-- Decode and encode agree on every well-formed element but the symbols, whatever bits follow it; the encoding has the row's
width; and the host rows' accesses decode to them. -/
def Obligations.DecodeInvertsEncode : Prop :=
  (∀ (i : Instr) (book : CodeBook) (tl : CodeTable 10) (ts : CodeTable 8) (rest : List Bool), i.wf = true →
      encodeBus i = none → (∀ v l, i ≠ .symLit v l) → (∀ l, i ≠ .symEnd l) → (∀ v l, i ≠ .symBref v l) →
      (∀ d l, i ≠ .dsym d l) →
      decode (i.ctx tl ts) (windowOf (encode book i) rest) = .ok i ∧ (encode book i).length = i.width) ∧
  (∀ (i : Instr) (e : BusAccess), i.wf = true → encodeBus i = some e → decodeBus e = i)

/-- Canonical codes decode: when a set of code lengths is not over-subscribed and its table is built, the code of every
present symbol, followed by any bits, resolves to that symbol and its length, in the large and in the small table. -/
def Obligations.CanonicalCodesResolveToTheirSymbols : Prop :=
  ∀ (pb : Nat) (lens : List CodeLen) (t : CodeTable pb) (s : Nat) (hs : s < lens.length) (rest : List Bool),
    (pb = 10 ∨ pb = 8) → lens.length ≤ 511 → kraftSum lens ≤ 2 ^ 15 → build pb lens = .ok t → lens[s] ≠ 0 →
    resolve t (windowOf (symbolBits lens s) rest) = .ok { value := BitVec.ofNat 9 s, len := lens[s] }

/-! ### Memory (20_memory.md) -/

/-- 20 R61: a source read answers the host's byte inside SRC_IMAGE and changes nothing; outside it the byte is a draw, each
draw a fresh free value (log 3), and it never faults. -/
def Obligations.SourceReadsAreImageBytesOrDraws : Prop :=
  ∀ (s : State) (a : Nat),
    (∀ b, s.srcByte? a = some b → srcRead a s = (b, s)) ∧
    (s.srcByte? a = none → srcRead a s = (Config.freeByte s.draws, { s with draws := s.draws + 1 })) ∧
    s.srcByte? a = s.srcByte? (a % s.cfg.addrSpace)

/-- The overlap START refuses is a shared address: some output byte and some byte of `[PBASE, PBASE + PLIMIT + 3]` have the same
address modulo 2^ADDR_W. A type-1 START outside a run is refused exactly then. That the comparison is modulo 2^ADDR_W, and is
made for two memories too, is the model's reading (log 14). -/
def Obligations.OverlapIsASharedAddress : Prop :=
  ∀ s : State,
    (s.regionsOverlap = true ↔
      ∃ i j, i < s.dsize.toNat ∧ j < s.plimit.toNat + 4 ∧ s.wrap (s.obase.toNat + i) = s.wrap (s.pbase.toNat + j)) ∧
    (s.run ≠ .busy → s.hdrflag.toNat % 16 = 1 →
      (exec .start s = .refused .outputOverlapsSource ↔ (initRun s).regionsOverlap = true))

/-- Host writes of source memory. Inside the payload window of a run the write marks its address: the byte is open (a draw)
there from then on, whatever step follows, until a START outside the run; that run reads the byte written (20 R74(a); log 15).
At an address that is not marked the byte is there at once. With one physical memory the write is a write of that memory (log 9),
and is refused in the output region of a run (log 16). -/
def Obligations.HostSourceWrites : Prop :=
  (∀ (s : State) (a : Nat) (b : Byte) (rest : List Turn), s.turns = .srcWrite a b :: rest →
    (s.cfg.oneMemory = false → ∃ t, step s = .next t ∧
      t = { s with src := t.src, tainted := t.tainted, turns := rest } ∧ SourceWritten s t a b) ∧
    (s.cfg.oneMemory = true →
      (s.run = .busy ∧ s.inOutputRegion (s.wrap a) = true → step s = .refused .hostWroteOutput) ∧
      (¬(s.run = .busy ∧ s.inOutputRegion (s.wrap a) = true) → ∃ t, step s = .next t ∧
        t = { s with out := t.out, tainted := t.tainted, turns := rest } ∧ SourceWritten s t a b ∧
        t.outByte? a = some b ∧ ∀ a', s.wrap a' ≠ s.wrap a → t.outByte? a' = s.outByte? a'))) ∧
  ∀ (s t : State) (a : Nat), s.wrap a ∈ s.tainted → step s = .next t →
    (t.wrap a ∈ t.tainted ∧ t.srcByte? a = none) ∨
    (s.run ≠ .busy ∧ ∃ x rest, s.turns = .bus (.write 0 32 x) :: rest ∧ x.toNat % 2 = 1)

/-- A host write into the output region of a run is refused; outside that region, or outside a run, it is a plain write of
that byte (log 16), which with one physical memory is a source write as well (log 9). A read of output memory while BUSY is a
draw (log 17), and otherwise the byte there. -/
def Obligations.HostOutputAccesses : Prop :=
  (∀ (s : State) (a : Nat) (b : Byte) (rest : List Turn), s.turns = .outWrite a b :: rest → s.run = .busy →
      s.inOutputRegion (s.wrap a) = true → step s = .refused .hostWroteOutput) ∧
  (∀ (s : State) (a : Nat) (b : Byte) (rest : List Turn), s.turns = .outWrite a b :: rest →
      ¬(s.run = .busy ∧ s.inOutputRegion (s.wrap a) = true) → ∃ t, step s = .next t ∧
        t.outByte? a = some b ∧ (∀ a', s.wrap a' ≠ s.wrap a → t.outByte? a' = s.outByte? a') ∧
        (s.cfg.oneMemory = false → t = { s with out := t.out, turns := rest }) ∧
        (s.cfg.oneMemory = true → t = { s with out := t.out, tainted := t.tainted, turns := rest } ∧ SourceWritten s t a b)) ∧
  (∀ (s : State) (a : Nat) (rest : List Turn), s.turns = .outRead a :: rest → s.run = .busy →
      step s = .next { s with turns := rest, draws := s.draws + 1, mdata := Config.freeByte s.draws }) ∧
  (∀ (s : State) (a : Nat) (b : Byte) (rest : List Turn), s.turns = .outRead a :: rest → s.run ≠ .busy →
      s.outByte? a = some b → step s = .next { s with turns := rest, mdata := b })

/-! ### Bit window (40_bit_window.md) -/

/-- 40 R110 to R112: with at most 32 valid bits and bytes left, Refill merges one word above the valid bits, all four bytes in
the byte order of ENDIAN_L, and counts `min(4, PLIMIT - CURSOR)` of them. Each byte is the defined one, or a draw where the
source has none (20 R61); nothing else changes. -/
def Obligations.RefillMergesOneWord : Prop :=
  ∀ s : State, 0 ≤ s.avail.toInt → s.avail.toInt ≤ 32 → s.cursor < s.plimit →
    ∃ (b0 b1 b2 b3 : Byte) (t : State), refill s = .ok t ∧
      (∀ b, s.srcByte? (s.pbase.toNat + s.cursor.toNat) = some b → b0 = b) ∧
      (∀ b, s.srcByte? (s.pbase.toNat + s.cursor.toNat + 1) = some b → b1 = b) ∧
      (∀ b, s.srcByte? (s.pbase.toNat + s.cursor.toNat + 2) = some b → b2 = b) ∧
      (∀ b, s.srcByte? (s.pbase.toNat + s.cursor.toNat + 3) = some b → b3 = b) ∧
      t.draws = s.draws + (List.range 4).countP (fun i => s.srcByte? (s.pbase.toNat + s.cursor.toNat + i) = none) ∧
      t.acc.toNat =
        (if s.endianL then b3.toNat + 2 ^ 8 * b2.toNat + 2 ^ 16 * b1.toNat + 2 ^ 24 * b0.toNat
          else b0.toNat + 2 ^ 8 * b1.toNat + 2 ^ 16 * b2.toNat + 2 ^ 24 * b3.toNat) * 2 ^ s.avail.toNat +
        s.acc.toNat % 2 ^ s.avail.toNat ∧
      t.cursor.toNat = s.cursor.toNat + min 4 (s.plimit.toNat - s.cursor.toNat) ∧
      t.avail.toInt = s.avail.toInt + 8 * (min 4 (s.plimit.toNat - s.cursor.toNat) : Nat) ∧
      t = { s with acc := t.acc, cursor := t.cursor, avail := t.avail, draws := t.draws }

/-- 40 R110: Refill is a no-op with more than 32 valid bits and at the end of the payload; its only other outcome than one fetch
is the model fault RefillWithDeficit, exactly when it would fetch with AVAIL below 0. -/
def Obligations.RefillNoOpAndDeficit : Prop :=
  ∀ s : State,
    ((32 < s.avail.toInt ∨ s.plimit ≤ s.cursor) → refill s = .ok s) ∧
    (∀ f, refill s = .error f ↔ f = .refillWithDeficit ∧ s.avail.toInt < 0 ∧ s.cursor < s.plimit)

/-- Take(k) (40 R114, R120) shifts ACC right by k with zeros from the top, takes k from AVAIL, and sets OVR exactly when AVAIL is
left negative; nothing else changes. `NoWrap` keeps AVAIL away from the least i64 (log 21). That Take(0) sets OVR where AVAIL
is negative already is the pseudocode read literally (log 24); in a state where AVAIL below 0 has set OVR, as WindowOk says,
Take(0) changes nothing, which is R114's corner case. -/
def Obligations.TakeConsumesTheLowBits : Prop :=
  (∀ s : State, (s.avail.toInt < 0 → s.ovr = true) → take 0 s = s) ∧
  ∀ (s : State) (k : Nat), k ≤ 32 → s.NoWrap →
    (take k s).acc.toNat = s.acc.toNat / 2 ^ k ∧
    (take k s).avail.toInt = s.avail.toInt - k ∧
    ((take k s).ovr = true ↔ s.ovr = true ∨ s.avail.toInt < k) ∧
    take k s = { s with acc := (take k s).acc, avail := (take k s).avail, ovr := (take k s).ovr }

/-- BITPOS advances by exactly the width of the element executed, whatever the step does beside (10_state.md, program
counter). -/
def Obligations.BitposAdvancesByTheWidth : Prop :=
  ∀ (i : Instr) (s t : State), encodeBus i = none → s.NoWrap → exec i s = .next t → t.bitpos = s.bitpos + i.width

/-! ### Block sequencer (41_block_sequencer.md) -/

/-- 41 R130: the block-type bit. -/
def Obligations.BlockTypeSelectsTheBlock : Prop :=
  ∀ s : State, s.Refillable → ∃ w, TookBits 1 s w ∧
    exec .btLit s = .next { s.withWindow w with seq := .lcnt } ∧
    exec .btTbl s = .next { s.withWindow w with seq := .tcnt .large }

/-- 41 R131: the literal-run count. -/
def Obligations.LiteralCountStartsTheRun : Prop :=
  ∀ (s : State) (n : BitVec 15), s.Refillable → ∃ w t, TookBits 15 s w ∧ exec (.lcnt n) s = .next t ∧
    t.litrem.toNat = n.toNat ∧
    t = { s.withWindow w with litrem := t.litrem, seq := if n.toNat = 0 then .eob else .lbyte }

/-- 41 R132 with 44 R220: a literal byte is stored at OBASE + OCUR and counted, or the run truncates with its 8 bits
consumed and nothing written. -/
def Obligations.LiteralByteIsAppended : Prop :=
  ∀ (s : State) (b : Byte), s.Refillable → ∃ w, TookBits 8 s w ∧
    (s.ocur < s.dsize → ∃ t, exec (.lbyte b) s = .next t ∧
      t = { s.withWindow w with out := t.out, ocur := s.ocur + 1, litrem := s.litrem - 1,
                                seq := if s.litrem = 1 then .eob else .lbyte } ∧
      StoredByte s t s.outAddr b) ∧
    (s.dsize ≤ s.ocur → exec (.lbyte b) s = .next { s.withWindow w with trunc := true, run := .done, seq := .idle })

/-- 41 R133, R140: the table count; 0 keeps the table. -/
def Obligations.TableCountOpensTheLengths : Prop :=
  ∀ (s : State) (c : BitVec 9), s.Refillable → ∃ w, TookBits 9 s w ∧
    (c = 0 → exec (.tcnt .large c) s = .next { s.withWindow w with seq := .tcnt .small } ∧
      exec (.tcnt .small c) s = .next { s.withWindow w with seq := .sym }) ∧
    (c ≠ 0 → ∀ tb, exec (.tcnt tb c) s = .next { s.withWindow w with tcount := c, tidx := 0, seq := .tflag tb })

/-- 41 R134, R135: length entries. A flag of 1 reads the nibble next; a flag of 0 stores length 0, a nibble stores itself, at
LENS[TIDX] only; TIDX advances, and at TCOUNT the table is built. -/
def Obligations.LengthEntriesFillTheScratch : Prop :=
  ∀ (s : State) (tb : Tbl), s.Refillable →
    (∃ w, TookBits 1 s w ∧ exec (.len tb) s = .next { s.withWindow w with seq := .tnib tb }) ∧
    (s.tidx < s.tcount → ∀ (i : Instr) (l : CodeLen), (i = .len0 tb ∧ l = 0 ∨ i = .lenNib tb l) →
      ∃ w t, TookBits i.width s w ∧ exec i s = .next t ∧
        t = { s.withWindow w with lens := t.lens, tidx := s.tidx + 1,
                                  seq := if s.tidx.toNat + 1 = s.tcount.toNat then .tbuild tb else .tflag tb } ∧
        ∀ (j : Nat) (h : j < 511), t.lens[j] = if j = s.tidx.toNat then l else s.lens[j])

/-- 41 R136: the table is built from LENS[0..TCOUNT-1]; one that builds is installed and the sequence goes on with next(w). -/
def Obligations.BuiltTableIsInstalled : Prop :=
  ∀ (s : State) (lens : List CodeLen), s.LengthsAre lens →
    (∀ t, build 10 lens = .ok t →
      exec .tbuildL s = .next { s with lp := t.primary, lo := t.overflow, seq := .tcnt .small }) ∧
    (∀ t, build 8 lens = .ok t →
      exec .tbuildS s = .next { s with sp := t.primary, so := t.overflow, seq := .sym })

/-- 60 R272 at TBUILD: a failed build of LENS[0..TCOUNT-1] ends the run with its code; only the table being built, which no
later step reads, is left open (a free value, log 10). -/
def Obligations.FailedBuildRaisesItsError : Prop :=
  ∀ (s : State) (lens : List CodeLen) (e : ErrCode), s.LengthsAre lens →
    (build 10 lens = .error e → ∃ t, exec .tbuildL s = .next t ∧
      t = { s with err := e, run := .error, seq := .idle, lp := t.lp, lo := t.lo, draws := t.draws }) ∧
    (build 8 lens = .error e → ∃ t, exec .tbuildS s = .next t ∧
      t = { s with err := e, run := .error, seq := .idle, sp := t.sp, so := t.so, draws := t.draws })

/-- 41 R137: the end-of-block bit. -/
def Obligations.EndOfBlockEndsOrContinues : Prop :=
  ∀ s : State, s.Refillable → ∃ w, TookBits 1 s w ∧
    exec .eob0 s = .next { s.withWindow w with seq := .bt } ∧
    exec .eob1 s = .next { s.withWindow w with run := .done, seq := .idle }

/-- A run can hang: once the payload is exhausted and the window is empty, the engine goes through BT, LCNT, EOB, BT, ... for
ever (BT 0, LCNT 0, EOB 0); it stays BUSY and writes nothing (41, non-termination; 70, hang). -/
def Obligations.ExhaustedStreamRunsForever : Prop :=
  ∀ (s : State) (n : Nat), s.run = .busy → s.seq = .bt → s.turns = [] → s.plimit ≤ s.cursor → s.acc = 0 →
    ∃ t : State, Host.Core.run Sys2Proof.core n s = .next t ∧ t.run = .busy ∧ t.ocur = s.ocur ∧ t.out = s.out ∧
      t.cursor = s.cursor ∧ (n % 3 = 0 → t.seq = .bt) ∧ (n % 3 = 1 → t.seq = .lcnt) ∧ (n % 3 = 2 → t.seq = .eob)

/-! ### Table builder (42_table_builder.md) -/

/-- 42 R162: the list S holds every present symbol once, by ascending length and, within one length, by ascending symbol. -/
def Obligations.SymbolsAreSortedByLengthThenIndex : Prop :=
  ∀ lens : List CodeLen,
    (∀ s l, (s, l) ∈ sortedSymbols lens ↔ ∃ h : s < lens.length, (lens[s]).toNat = l ∧ l ≠ 0) ∧
    (sortedSymbols lens).Pairwise fun p q => p.2 < q.2 ∨ (p.2 = q.2 ∧ p.1 < q.1)

/-- InvalidTableEntry never occurs with primary widths 10 and 8 (42, error precedence; 90 C4). -/
def Obligations.BuildNeverRaisesInvalidTableEntry : Prop :=
  ∀ (pb : Nat) (lens : List CodeLen), 8 ≤ pb → build pb lens ≠ .error .invalidTableEntry

/-- 42 R168: SampleOverflow is raised exactly when the groups of long codes need more than 0x1FF slots in all. -/
def Obligations.SampleOverflowCountsTheSlots : Prop :=
  ∀ (pb : Nat) (lens : List CodeLen), 8 ≤ pb →
    (build pb lens = .error .sampleOverflow ↔
      0x1FF < ((groups pb ((canonicalCodes lens).filter fun c => pb ≤ c.len)).map fun g => 2 ^ g.depth).sum)

/-- What Build leaves: every escape's sub-table lies inside the overflow RAM, every other entry names one of the symbols
(42, result; 43, the overflow index is in range). -/
def Obligations.BuiltTablesStayInRange : Prop :=
  ∀ (pb : Nat) (lens : List CodeLen) (t : CodeTable pb), 8 ≤ pb → lens.length ≤ 511 → build pb lens = .ok t → TableOk t

/-- The spec's worked examples of the builder (42, worked examples; vectors TB-1 to TB-3, TB-8). -/
def Obligations.BuilderWorkedExamples : Prop :=
  (∃ t : CodeTable 8, build 8 [2, 1, 3, 3] = .ok t ∧
    t.primary[0] = 0x0081 ∧ t.primary[1] = 0x0002 ∧ t.primary[3] = 0x0103 ∧ t.primary[255] = 0x0183) ∧
  (∃ t : CodeTable 8, build 8 [1, 9] = .ok t ∧
    t.primary[254] = 0x0001 ∧ t.primary[1] = 0x0010 ∧ t.primary[3] = 0 ∧ t.overflow[0] = 0x0089 ∧ t.overflow[1] = 0) ∧
  (∃ t : CodeTable 8, build 8 [1, 1, 1] = .ok t ∧ t.primary[0] = 0x0101 ∧ t.primary[1] = 0x0081) ∧
  (∃ t : CodeTable 10, build 10 [15, 15] = .ok t ∧
    t.primary[0] = 0x0050 ∧ t.overflow[0] = 0x000F ∧ t.overflow[16] = 0x008F ∧ t.overflow[1] = 0)

/-! ### Symbol decode (43_symbol_decode.md) -/

/-- 43 R190: Resolve on the refilled window, as arithmetic: a direct entry answers with its VALUE and LEN; an escape through
`O[base + PeekAt(pb, d)]`; an index above 511 is the model fault. -/
def Obligations.ResolveFollowsTheEscape : Prop :=
  ∀ (pb : Nat) (t : CodeTable pb) (win : Dword) (e : Nat),
    e = (t.primary[win.toNat % 2 ^ pb]'(Nat.mod_lt _ (Nat.two_pow_pos pb))).toNat →
    (e % 16 ≠ 0 → resolve t win = .ok { value := BitVec.ofNat 9 (e / 128), len := BitVec.ofNat 4 (e % 16) }) ∧
    (e % 16 = 0 →
      (∀ h : e / 128 + win.toNat / 2 ^ pb % 2 ^ (e / 16 % 8) < 512,
        resolve t win = .ok
          { value := BitVec.ofNat 9 ((t.overflow[e / 128 + win.toNat / 2 ^ pb % 2 ^ (e / 16 % 8)]'h).toNat / 128)
            len := BitVec.ofNat 4 ((t.overflow[e / 128 + win.toNat / 2 ^ pb % 2 ^ (e / 16 % 8)]'h).toNat % 16) }) ∧
      (512 ≤ e / 128 + win.toNat / 2 ^ pb % 2 ^ (e / 16 % 8) → resolve t win = .error .overflowIndex))

/-- A table START cleared resolves every window to symbol 0 with no bit taken (43, zero-length resolution, the spec's own
choice). -/
def Obligations.ClearedTableResolvesToZero : Prop :=
  ∀ (pb : Nat) (win : Dword), resolve (emptyTable pb) win = .ok { value := 0, len := 0 }

/-- 43 R192 with 44 R220: a literal symbol takes its code's bits and appends its byte, or truncates the run. -/
def Obligations.LiteralSymbolIsAppended : Prop :=
  ∀ (s : State) (v : Byte) (len : CodeLen), s.Refillable → ∃ w, TookBits len.toNat s w ∧
    (s.ocur < s.dsize → ∃ t, exec (.symLit v len) s = .next t ∧
      t = { s.withWindow w with out := t.out, ocur := s.ocur + 1, seq := .sym } ∧ StoredByte s t s.outAddr v) ∧
    (s.dsize ≤ s.ocur →
      exec (.symLit v len) s = .next { s.withWindow w with trunc := true, run := .done, seq := .idle })

/-- 43 R193: the sentinel ends the symbol run. -/
def Obligations.SentinelEndsTheSymbolRun : Prop :=
  ∀ (s : State) (len : CodeLen), s.Refillable → ∃ w, TookBits len.toNat s w ∧
    exec (.symEnd len) s = .next { s.withWindow w with seq := .eob }

/-- 43 R194: a back-reference symbol past the table raises InternalFailure; inside it, it holds its index for the extra bits,
or sets the count and goes on with the distance. -/
def Obligations.BackReferenceSetsTheCount : Prop :=
  ∀ (s : State) (v : BitVec 9) (len : CodeLen), s.Refillable → 0x101 ≤ v.toNat → v.toNat ≤ 0x1FE →
    ∃ w, TookBits len.toNat s w ∧
    (s.cfg.n12 ≤ v.toNat - 0x101 →
      exec (.symBref v len) s = .next { s.withWindow w with err := .internalFailure, run := .error, seq := .idle }) ∧
    ∀ r, s.lengthRow? (v.toNat - 0x101) = some r → ∃ t, exec (.symBref v len) s = .next t ∧
      (0 < r.extra.val → t = { s.withWindow w with lidx := t.lidx, seq := .lextra } ∧ t.lidx.toNat = v.toNat - 0x101) ∧
      (r.extra.val = 0 → t = { s.withWindow w with copyrem := t.copyrem, seq := .dsym } ∧ t.copyrem.toNat = r.base.toNat + 3)

/-- 43 R196: a distance symbol past the table raises InternalFailure; inside it, it holds its index for the extra bits, or sets
the distance and starts the copy. -/
def Obligations.DistanceSymbolSetsTheDistance : Prop :=
  ∀ (s : State) (d : BitVec 9) (len : CodeLen), s.Refillable → ∃ w, TookBits len.toNat s w ∧
    (s.cfg.n34 ≤ d.toNat →
      exec (.dsym d len) s = .next { s.withWindow w with err := .internalFailure, run := .error, seq := .idle }) ∧
    ∀ r, s.distRow? d.toNat = some r → ∃ t, exec (.dsym d len) s = .next t ∧
      (0 < r.extra.val → t = { s.withWindow w with didx := d, seq := .dextra }) ∧
      (r.extra.val = 0 → t = { s.withWindow w with dist := t.dist, seq := .copy } ∧ t.dist.toNat = r.base.toNat + 1)

/-- 43 R200: InternalFailure (ERR 12) is raised exactly where an index is past the static tables; otherwise the run stays
BUSY and ERR as it was. -/
def Obligations.IndexPastTheTablesIsInternalFailure : Prop :=
  ∀ (s t : State) (len : CodeLen), s.run = .busy → s.err = .none →
    (∀ v : BitVec 9, 0x101 ≤ v.toNat → exec (.symBref v len) s = .next t →
      (t.err = .internalFailure ↔ s.cfg.n12 ≤ v.toNat - 0x101) ∧ (t.run = .error ↔ s.cfg.n12 ≤ v.toNat - 0x101)) ∧
    (∀ d : BitVec 9, exec (.dsym d len) s = .next t →
      (t.err = .internalFailure ↔ s.cfg.n34 ≤ d.toNat) ∧ (t.run = .error ↔ s.cfg.n34 ≤ d.toNat))

/-- 43 R195, R197: extra bits complete the copy count and the distance, as exact sums. -/
def Obligations.ExtraBitsCompleteTheCopy : Prop :=
  ∀ (s : State) (k : Fin 33) (x : Word), s.Refillable → ∃ w, TookBits k.val s w ∧
    (∀ r, s.lengthRow? s.lidx.toNat = some r → ∃ t, exec (.xbLen k x) s = .next t ∧
      t = { s.withWindow w with copyrem := t.copyrem, seq := .dsym } ∧
      t.copyrem.toNat = r.base.toNat + x.toNat + 3) ∧
    (∀ r, s.distRow? s.didx.toNat = some r → ∃ t, exec (.xbDist k x) s = .next t ∧
      t = { s.withWindow w with dist := t.dist, seq := .copy } ∧ t.dist.toNat = r.base.toNat + x.toNat + 1)

/-! ### Copy engine (44_copy_engine.md) -/

/-- 44 R222: one COPY step appends the byte DIST back, or 0 before the start of the output, and counts it; at DSIZE the run
truncates. A byte never written, which no run reads, is a free value (log 5). -/
def Obligations.CopyAppendsTheByteBehind : Prop :=
  ∀ s : State,
    (s.ocur < s.dsize → ∃ t b, exec .copy s = .next t ∧
      t = { s with out := t.out, ocur := s.ocur + 1, copyrem := s.copyrem - 1,
                   seq := if s.copyrem = 1 then .sym else .copy } ∧
      StoredByte s t s.outAddr b ∧
      (s.ocur.toNat < s.dist.toNat → b = 0) ∧
      (s.dist.toNat ≤ s.ocur.toNat → ∀ b', s.outByte? (s.obase.toNat + (s.ocur.toNat - s.dist.toNat)) = some b' →
        b = b')) ∧
    (s.dsize ≤ s.ocur → exec .copy s = .next { s with trunc := true, run := .done, seq := .idle })

/-- Overlapping copies repeat the last DIST bytes with period DIST (44, overlap semantics): a whole copy of n bytes that fits,
run step by step, with addresses that do not wrap onto each other. -/
def Obligations.CopyRepeatsWithPeriodDist : Prop :=
  ∀ (n : Nat) (s : State), s.run = .busy → s.seq = .copy → s.turns = [] → s.copyrem.toNat = n → 1 ≤ n →
    1 ≤ s.dist.toNat → s.dist.toNat ≤ s.ocur.toNat → s.ocur.toNat + n ≤ s.dsize.toNat → s.dsize.toNat ≤ s.cfg.addrSpace →
    (∀ j, j < s.dist.toNat → s.outByte? (s.obase.toNat + (s.ocur.toNat - s.dist.toNat) + j) ≠ none) →
    ∃ t : State, Host.Core.run Sys2Proof.core n s = .next t ∧ t.run = .busy ∧ t.seq = .sym ∧
      t.ocur.toNat = s.ocur.toNat + n ∧
      ∀ i, i < n → t.outByte? (s.obase.toNat + s.ocur.toNat + i) =
        s.outByte? (s.obase.toNat + (s.ocur.toNat - s.dist.toNat) + i % s.dist.toNat)

/-! ### Host commands (45_host_commands.md, 10_state.md) -/

/-- 45 R241: START of a type-1 run whose output does not overlap its payload window: flags and datapath cleared, tables
zeroed, ENDIAN_L and PLIMIT latched, SEQ = BT, STATE = BUSY; LENS, the host registers and the memories stay. -/
def Obligations.StartBeginsARun : Prop :=
  ∀ s : State, s.run ≠ .busy → s.hdrflag.toNat % 16 = 1 → (initRun s).regionsOverlap = false →
    ∃ t, exec .start s = .next t ∧
      t.plimit.toNat = (match s.cfg.csizeMode with
        | .payloadOnly => s.csize.toNat
        | .includesHeader => s.csize.toNat - 12) ∧
      t = { s with
        trunc := false, ovr := false, err := .none, acc := 0, avail := 0, cursor := 0, ocur := 0, litrem := 0, tcount := 0
        tidx := 0, lidx := 0, didx := 0, copyrem := 0, dist := 0
        lp := Vector.replicate _ 0, lo := Vector.replicate _ 0, sp := Vector.replicate _ 0, so := Vector.replicate _ 0
        endianL := decide (128 ≤ s.hdrflag.toNat), plimit := t.plimit, tainted := [], seq := .bt, run := .busy }

/-- 45 R242: START of another type ends at once in ERROR with ERR = 1, the run state cleared and no bit read. -/
def Obligations.StartOfAnotherTypeIsAnError : Prop :=
  ∀ s : State, s.run ≠ .busy → s.hdrflag.toNat % 16 ≠ 1 →
    ∃ t, exec .start s = .next t ∧ t.run = .error ∧ t.err = .unsupportedCompressionType ∧ t.seq = .idle ∧
      t.cursor = 0 ∧ t.avail = 0 ∧ t.acc = 0 ∧ t.ocur = 0 ∧ t.status = 0x103 ∧ t.out = s.out ∧ t.src = s.src ∧
      t.draws = s.draws

/-- 45 R243, 10 R40: while BUSY a START and every register write change nothing. -/
def Obligations.BusyIgnoresStartAndWrites : Prop :=
  ∀ (s : State) (off width : Nat) (x : Word), s.run = .busy →
    exec .start s = .next s ∧ exec (.regwrite off width x) s = .next s

/-- 45 R240: register writes, register by register; a write of 1 to CTRL bit 0 is START. While BUSY the registers keep their
value, and an access that is misaligned, of another width or at a reserved or read-only offset is ignored. -/
def Obligations.RegisterWritesReachTheirRegister : Prop :=
  ∀ (s : State) (x : Word),
    (∀ off width, (off % 4 ≠ 0 ∨ width ≠ 32 ∨ 0x34 ≤ off) → exec (.regwrite off width x) s = .next s) ∧
    (x.toNat % 2 = 1 → exec (.regwrite 0x00 32 x) s = exec .start s) ∧
    (x.toNat % 2 = 0 → exec (.regwrite 0x00 32 x) s = .next s) ∧
    (∀ off, off = 0x04 ∨ off = 0x24 ∨ off = 0x28 ∨ off = 0x2C ∨ off = 0x30 → exec (.regwrite off 32 x) s = .next s) ∧
    (s.run = .busy → ∀ off, 0x08 ≤ off → off ≤ 0x20 → exec (.regwrite off 32 x) s = .next s) ∧
    (s.run ≠ .busy →
    exec (.regwrite 0x08 32 x) s = .next { s with hdrflag := BitVec.ofNat 8 x.toNat } ∧
    exec (.regwrite 0x0C 32 x) s = .next { s with csize := x } ∧
    exec (.regwrite 0x10 32 x) s = .next { s with dsize := x } ∧
    exec (.regwrite 0x14 32 x) s = .next { s with
      pbase := BitVec.ofNat 64 ((s.pbase.toNat / 2 ^ 32 * 2 ^ 32 + x.toNat) % s.cfg.addrSpace) } ∧
    exec (.regwrite 0x18 32 x) s = .next { s with
      pbase := BitVec.ofNat 64 ((x.toNat * 2 ^ 32 + s.pbase.toNat % 2 ^ 32) % s.cfg.addrSpace) } ∧
    exec (.regwrite 0x1C 32 x) s = .next { s with
      obase := BitVec.ofNat 64 ((s.obase.toNat / 2 ^ 32 * 2 ^ 32 + x.toNat) % s.cfg.addrSpace) } ∧
    exec (.regwrite 0x20 32 x) s = .next { s with
      obase := BitVec.ofNat 64 ((x.toNat * 2 ^ 32 + s.obase.toNat % 2 ^ 32) % s.cfg.addrSpace) })

/-- 45 R244: register reads, register by register, and 0 for every other access; a read changes nothing but the value the host
received, which the model keeps in `rdata` (log 18). -/
def Obligations.RegisterReadsReturnTheRegister : Prop :=
  ∀ s : State,
    (∀ off width, (off % 4 ≠ 0 ∨ width ≠ 32 ∨ 0x34 ≤ off) → exec (.regread off width) s = .next { s with rdata := 0 }) ∧
    exec (.regread 0x00 32) s = .next { s with rdata := 0 } ∧
    exec (.regread 0x04 32) s = .next { s with
      rdata := BitVec.ofNat 32 (s.err.bits.toNat * 2 ^ 8 + s.ovr.toNat * 2 ^ 3 + s.trunc.toNat * 2 ^ 2 + s.run.bits.toNat) } ∧
    exec (.regread 0x08 32) s = .next { s with rdata := BitVec.ofNat 32 s.hdrflag.toNat } ∧
    exec (.regread 0x0C 32) s = .next { s with rdata := s.csize } ∧
    exec (.regread 0x10 32) s = .next { s with rdata := s.dsize } ∧
    exec (.regread 0x14 32) s = .next { s with rdata := BitVec.ofNat 32 (s.pbase.toNat % 2 ^ 32) } ∧
    exec (.regread 0x18 32) s = .next { s with rdata := BitVec.ofNat 32 (s.pbase.toNat / 2 ^ 32) } ∧
    exec (.regread 0x1C 32) s = .next { s with rdata := BitVec.ofNat 32 (s.obase.toNat % 2 ^ 32) } ∧
    exec (.regread 0x20 32) s = .next { s with rdata := BitVec.ofNat 32 (s.obase.toNat / 2 ^ 32) } ∧
    exec (.regread 0x24 32) s = .next { s with rdata := s.ocur } ∧
    exec (.regread 0x28 32) s = .next { s with rdata := s.cursor } ∧
    exec (.regread 0x2C 32) s = .next { s with rdata := BitVec.ofInt 32 s.avail.toInt } ∧
    exec (.regread 0x30 32) s = .next { s with rdata := BitVec.ofInt 32 (s.avail.toInt / 2 ^ 32) }

/-- 10 R31: the bits of STATUS, which is read-only and 0 after reset, with the code of each STATE (10 R25) and of each error
of ERR (60 R270). -/
def Obligations.StatusWordLayout : Prop :=
  State.reset.status = 0 ∧ (∀ (s : State) (x : Word), exec (.regwrite 0x04 32 x) s = .next s) ∧
  ∀ s : State,
    exec (.regread 0x04 32) s = .next { s with rdata := s.status } ∧
    s.status.toNat % 4 = s.run.bits.toNat ∧ s.status.toNat / 4 % 2 = s.trunc.toNat ∧
    s.status.toNat / 8 % 2 = s.ovr.toNat ∧ s.status.toNat / 16 % 16 = 0 ∧
    s.status.toNat / 256 % 256 = s.err.bits.toNat ∧ s.status.toNat / 65536 = 0 ∧
    (s.run = .idle → s.run.bits = 0) ∧ (s.run = .busy → s.run.bits = 1) ∧
    (s.run = .done → s.run.bits = 2) ∧ (s.run = .error → s.run.bits = 3) ∧
    (s.err = .none → s.err.bits = 0) ∧ (s.err = .unsupportedCompressionType → s.err.bits = 1) ∧
    (s.err = .invalidTableEntry → s.err.bits = 8) ∧ (s.err = .sampleOverflow → s.err.bits = 9) ∧
    (s.err = .internalFailure → s.err.bits = 12)

/-- 45 R251, the host's engine run (64-bit addresses; when the host polls, and the bound a list of polls is, are log 30's).
The eight register writes of the load sequence, run from any state that is not BUSY, leave the engine BUSY at the first element
of a run over the given header and addresses, with the memories as they were. EngineRun places the container first, and then
polls. A poll that finds the engine BUSY (or IDLE, after a reset) is followed by the next; one that finds it DONE returns the
OUT_LEN bytes at OBASE; one that finds it in ERROR returns the failure ERR names. With no poll left the host is still polling. -/
def Obligations.EngineRunLoadsPollsAndReturns : Prop :=
  (∀ (s : State) (flag : Byte) (csize dsize : Word) (pbase obase : Dword) (rest : List Turn),
    s.run ≠ .busy → s.cfg.addrW = 64 → s.cfg.csizeMode = .payloadOnly → flag.toNat % 16 = 1 →
    s.turns = loadTurns flag csize dsize pbase obase ++ rest →
    ({ s with pbase := pbase, obase := obase, dsize := dsize, plimit := csize }).regionsOverlap = false →
    ∃ t : State, Host.Core.run Sys2Proof.core 8 s = .next t ∧ t.run = .busy ∧ t.seq = .bt ∧ t.turns = rest ∧
      t.hdrflag = flag ∧ t.csize = csize ∧ t.dsize = dsize ∧ t.pbase = pbase ∧ t.obase = obase ∧ t.plimit = csize ∧
      t.endianL = decide (128 ≤ flag.toNat) ∧ t.bitpos = 0 ∧ t.ocur = 0 ∧ t.trunc = false ∧ t.ovr = false ∧
      t.err = .none ∧ t.src = s.src ∧ t.out = s.out ∧ t.WindowOk) ∧
  (∀ (s : State) (source : List Byte) (h : Header) (flag : Byte) (a obase : Nat) (polls : List Nat),
    s.run ≠ .busy → s.cfg.addrW = 64 → s.cfg.csizeMode = .payloadOnly → flag.toNat % 16 = 1 → source.length ≤ 2 ^ 64 →
    ({ s with pbase := BitVec.ofNat 64 (a + 12), obase := BitVec.ofNat 64 obase
              dsize := h.dsize.setWidth 32, plimit := h.csize.setWidth 32 }).regionsOverlap = false →
    ∃ t : State, engineRun source h flag a obase polls s = pollLoop obase polls t ∧ t.run = .busy ∧ t.seq = .bt ∧
      t.hdrflag = flag ∧ t.dsize = h.dsize.setWidth 32 ∧ t.plimit = h.csize.setWidth 32 ∧
      t.pbase = BitVec.ofNat 64 (a + 12) ∧ t.obase = BitVec.ofNat 64 obase ∧ t.endianL = decide (128 ≤ flag.toNat) ∧
      t.bitpos = 0 ∧ t.ocur = 0 ∧ t.WindowOk ∧ (∀ (i : Nat) (hi : i < source.length), t.srcByte? (a + i) = some source[i]) ∧
      (s.cfg.oneMemory = false → t.out = s.out)) ∧
  (∀ (s t : State) (obase n : Nat) (polls : List Nat), runTurns (List.replicate n .engine) s = .next t →
    ∃ u : State, u = { t with rdata := u.rdata, mdata := u.mdata, turns := [] } ∧
      (t.run = .busy ∨ t.run = .idle → pollLoop obase (n :: polls) s = pollLoop obase polls u) ∧
      (t.run = .done → pollLoop obase (n :: polls) s = .returned (.ok (outputBytes obase t)) u) ∧
      (t.run = .error →
        (t.err = .unsupportedCompressionType →
          pollLoop obase (n :: polls) s = .returned (.fail .unsupportedCompressionType) u) ∧
        (t.err = .invalidTableEntry → pollLoop obase (n :: polls) s = .returned (.fail .invalidTableEntry) u) ∧
        (t.err = .sampleOverflow → pollLoop obase (n :: polls) s = .returned (.fail .sampleOverflow) u) ∧
        (t.err = .internalFailure → pollLoop obase (n :: polls) s = .returned (.fail .internalFailure) u))) ∧
  ∀ (s : State) (obase : Nat), pollLoop obase [] s = .polling s

/-! ### Host software (45_host_commands.md, part 2) -/

/-- 45 R246: a header's fields come back from its bytes, in both byte orders; three bytes that are another magic fail, whatever
follows them. -/
def Obligations.HeaderParseRecoversTheFields : Prop :=
  (∀ (mask : Config.TypeMask) (flag : Byte) (c d : Word) (more : List Byte),
    parseHeader mask ([0x45, 0x44, 0x4C, flag] ++ sizeBytes flag c ++ sizeBytes flag d ++ more) =
      .ok { compressionType := flag &&& (match mask with | .mask0F => 0x0F | .mask8F => 0x8F)
            big := decide (128 ≤ flag.toNat), csize := BitVec.ofNat 64 c.toNat, dsize := BitVec.ofNat 64 d.toNat }) ∧
  (∀ (mask : Config.TypeMask) (h : List Byte), 3 ≤ h.length → h.take 3 ≠ [0x45, 0x44, 0x4C] → parseHeader mask h = .fail .notEdlContainer)

/-- The container scanner (45, R247 and R248), both ways. What it reports holds: at every reported offset the stream holds the
magic, the header is the one parsed there, and the offsets rise. And it reports what it must: bytes that are not E are passed
over; a magic with its header is reported at the position of its E, with the low nibble of the flag as its type, and the scan
goes on after its L; a byte that fails after E, or after E D, is consumed and not tried again; fewer than 3 bytes end it. What
the rules leave open is the model's choice (log 26, 93 U20): fewer than 3 bytes are no container, and a magic whose 12 header
bytes run past the end is refused, by the parse and by the scanner. -/
def Obligations.ScannerReportsMagicsInOrder : Prop :=
  (∀ (bytes : List Byte) (p : Nat), bytes.length < 3 → scan bytes p = .ok []) ∧
  (∀ (gap more : List Byte) (p : Nat), (∀ b ∈ gap, b ≠ 0x45) → scan (gap ++ more) p = scan more (p + gap.length)) ∧
  (∀ (b : Byte) (more : List Byte) (p : Nat), b ≠ 0x44 → scan (0x45 :: b :: more) p = scan more (p + 2)) ∧
  (∀ (b : Byte) (more : List Byte) (p : Nat), b ≠ 0x4C → scan (0x45 :: 0x44 :: b :: more) p = scan more (p + 3)) ∧
  (∀ (flag : Byte) (c d : Word) (more : List Byte) (p : Nat) (hs : List OffsetHeader),
    scan (flag :: (sizeBytes flag c ++ sizeBytes flag d ++ more)) (p + 3) = .ok hs →
    scan (0x45 :: 0x44 :: 0x4C :: flag :: (sizeBytes flag c ++ sizeBytes flag d ++ more)) p =
      .ok ({ header := { compressionType := flag &&& 0x0F, big := decide (128 ≤ flag.toNat)
                         csize := BitVec.ofNat 64 c.toNat, dsize := BitVec.ofNat 64 d.toNat }
             offset := p } :: hs)) ∧
  (∀ (mask : Config.TypeMask) (h : List Byte), h.length < 3 → parseHeader mask h = .fail .notEdlContainer) ∧
  (∀ (mask : Config.TypeMask) (h : List Byte), h.take 3 = [0x45, 0x44, 0x4C] → h.length < 12 →
    parseHeader mask h = .refused .shortHeader) ∧
  (∀ (more : List Byte) (p : Nat), more.length < 9 → scan (0x45 :: 0x44 :: 0x4C :: more) p = .refused .shortHeader) ∧
  ∀ (bytes : List Byte) (p : Nat) (hs : List OffsetHeader), scan bytes p = .ok hs →
    (∀ h ∈ hs, p ≤ h.offset ∧ (bytes.drop (h.offset - p)).take 3 = [0x45, 0x44, 0x4C] ∧
      parseAtOffset (bytes.drop (h.offset - p)) h.offset = .ok h) ∧
    hs.Pairwise fun h h' => h.offset + 3 ≤ h'.offset

/-- 45 R249, R250: dispatch on the compression type. A header failure is the result; type 0 is the store decoder's verbatim
copy of `min(max(streamLength - 12, 0), dsize)` bytes from byte 12 on, for a stream of any length; type 1 is whatever the engine
run returns (EngineRunLoadsPollsAndReturns); another type fails. -/
def Obligations.DispatchAndStoreDecode : Prop :=
  (∀ (mask : Config.TypeMask) (source : List Byte) (a obase : Nat) (polls : List Nat) (s : State) (e : HostError),
    parseHeader mask source = .fail e → decompress mask source a obase polls s = .returned (.fail e) s) ∧
  (∀ (source : List Byte) (h : Header), (storeDecode source h).length = min (source.length - 12) h.dsize.toNat ∧
    ∀ i, i < min (source.length - 12) h.dsize.toNat → (storeDecode source h)[i]? = source[12 + i]?) ∧
  ∀ (mask : Config.TypeMask) (source : List Byte) (a obase : Nat) (polls : List Nat) (s : State) (h : Header),
    parseHeader mask source = .ok h →
    (h.compressionType = 0 → decompress mask source a obase polls s = .returned (.ok (storeDecode source h)) s) ∧
    (h.compressionType = 1 →
      decompress mask source a obase polls s = engineRun source h (source.getD 3 0) a obase polls s) ∧
    (h.compressionType ≠ 0 → h.compressionType ≠ 1 →
      decompress mask source a obase polls s = .returned (.fail .unsupportedCompressionType) s)

/-! ### Idempotent memories (20_memory.md) -/

/-- 20 R68: a read of memory has no side effect, and reads of an unchanged byte agree. Outside a run a host read of output
changes nothing but what the host received (log 18), and whenever the byte at that address is still the same, or still was
never written (log 5), every later read outside a run answers the same byte. A source read changes nothing but the draws made.
An engine step leaves CURSOR, where each fetch is made, or moves it up by the payload bytes of one fetch: it never goes back. -/
def Obligations.MemoryReadsAreIdempotent : Prop :=
  (∀ (s : State) (a : Nat) (rest : List Turn), s.turns = .outRead a :: rest → s.run ≠ .busy →
    ∃ b, step s = .next { s with turns := rest, mdata := b } ∧
      ∀ (u : State) (rest' : List Turn), u.turns = .outRead a :: rest' → u.run ≠ .busy → u.cfg = s.cfg →
        u.outByte? a = s.outByte? a → step u = .next { u with turns := rest', mdata := b }) ∧
  (∀ (s : State) (a : Nat), (srcRead a s).2 = { s with draws := (srcRead a s).2.draws }) ∧
  ∀ s t : State, s.engineNext → step s = .next t → s.cursor ≤ t.cursor ∧
    (t.cursor = s.cursor ∨ t.cursor.toNat = s.cursor.toNat + min 4 (s.plimit.toNat - s.cursor.toNat))
end

