-- ==== Sys2Proof/Laws/State.lean ====
section
/-! SUPPORT. Every field of every named update of the state, so that no later proof unfolds a record update. -/

namespace Sys2Proof.Machine

/-! ### `raiseErr` -/

@[simp] theorem raiseErr_acc (c : ErrCode) (s : State) : (raiseErr c s).acc = s.acc := rfl
@[simp] theorem raiseErr_avail (c : ErrCode) (s : State) : (raiseErr c s).avail = s.avail := rfl
@[simp] theorem raiseErr_cursor (c : ErrCode) (s : State) : (raiseErr c s).cursor = s.cursor := rfl
@[simp] theorem raiseErr_plimit (c : ErrCode) (s : State) : (raiseErr c s).plimit = s.plimit := rfl
@[simp] theorem raiseErr_endianL (c : ErrCode) (s : State) : (raiseErr c s).endianL = s.endianL := rfl
@[simp] theorem raiseErr_ocur (c : ErrCode) (s : State) : (raiseErr c s).ocur = s.ocur := rfl
@[simp] theorem raiseErr_litrem (c : ErrCode) (s : State) : (raiseErr c s).litrem = s.litrem := rfl
@[simp] theorem raiseErr_tcount (c : ErrCode) (s : State) : (raiseErr c s).tcount = s.tcount := rfl
@[simp] theorem raiseErr_tidx (c : ErrCode) (s : State) : (raiseErr c s).tidx = s.tidx := rfl
@[simp] theorem raiseErr_lidx (c : ErrCode) (s : State) : (raiseErr c s).lidx = s.lidx := rfl
@[simp] theorem raiseErr_didx (c : ErrCode) (s : State) : (raiseErr c s).didx = s.didx := rfl
@[simp] theorem raiseErr_copyrem (c : ErrCode) (s : State) : (raiseErr c s).copyrem = s.copyrem := rfl
@[simp] theorem raiseErr_dist (c : ErrCode) (s : State) : (raiseErr c s).dist = s.dist := rfl
@[simp] theorem raiseErr_seq (c : ErrCode) (s : State) : (raiseErr c s).seq = .idle := rfl
@[simp] theorem raiseErr_run (c : ErrCode) (s : State) : (raiseErr c s).run = .error := rfl
@[simp] theorem raiseErr_trunc (c : ErrCode) (s : State) : (raiseErr c s).trunc = s.trunc := rfl
@[simp] theorem raiseErr_ovr (c : ErrCode) (s : State) : (raiseErr c s).ovr = s.ovr := rfl
@[simp] theorem raiseErr_err (c : ErrCode) (s : State) : (raiseErr c s).err = c := rfl
@[simp] theorem raiseErr_hdrflag (c : ErrCode) (s : State) : (raiseErr c s).hdrflag = s.hdrflag := rfl
@[simp] theorem raiseErr_csize (c : ErrCode) (s : State) : (raiseErr c s).csize = s.csize := rfl
@[simp] theorem raiseErr_dsize (c : ErrCode) (s : State) : (raiseErr c s).dsize = s.dsize := rfl
@[simp] theorem raiseErr_pbase (c : ErrCode) (s : State) : (raiseErr c s).pbase = s.pbase := rfl
@[simp] theorem raiseErr_obase (c : ErrCode) (s : State) : (raiseErr c s).obase = s.obase := rfl
@[simp] theorem raiseErr_lp (c : ErrCode) (s : State) : (raiseErr c s).lp = s.lp := rfl
@[simp] theorem raiseErr_lo (c : ErrCode) (s : State) : (raiseErr c s).lo = s.lo := rfl
@[simp] theorem raiseErr_sp (c : ErrCode) (s : State) : (raiseErr c s).sp = s.sp := rfl
@[simp] theorem raiseErr_so (c : ErrCode) (s : State) : (raiseErr c s).so = s.so := rfl
@[simp] theorem raiseErr_lens (c : ErrCode) (s : State) : (raiseErr c s).lens = s.lens := rfl
@[simp] theorem raiseErr_src (c : ErrCode) (s : State) : (raiseErr c s).src = s.src := rfl
@[simp] theorem raiseErr_out (c : ErrCode) (s : State) : (raiseErr c s).out = s.out := rfl
@[simp] theorem raiseErr_tainted (c : ErrCode) (s : State) : (raiseErr c s).tainted = s.tainted := rfl
@[simp] theorem raiseErr_draws (c : ErrCode) (s : State) : (raiseErr c s).draws = s.draws := rfl
@[simp] theorem raiseErr_rdata (c : ErrCode) (s : State) : (raiseErr c s).rdata = s.rdata := rfl
@[simp] theorem raiseErr_mdata (c : ErrCode) (s : State) : (raiseErr c s).mdata = s.mdata := rfl
@[simp] theorem raiseErr_turns (c : ErrCode) (s : State) : (raiseErr c s).turns = s.turns := rfl
@[simp] theorem raiseErr_cfg (c : ErrCode) (s : State) : (raiseErr c s).cfg = s.cfg := rfl

/-! ### `truncateRun` -/

@[simp] theorem truncateRun_acc (s : State) : (truncateRun s).acc = s.acc := rfl
@[simp] theorem truncateRun_avail (s : State) : (truncateRun s).avail = s.avail := rfl
@[simp] theorem truncateRun_cursor (s : State) : (truncateRun s).cursor = s.cursor := rfl
@[simp] theorem truncateRun_plimit (s : State) : (truncateRun s).plimit = s.plimit := rfl
@[simp] theorem truncateRun_endianL (s : State) : (truncateRun s).endianL = s.endianL := rfl
@[simp] theorem truncateRun_ocur (s : State) : (truncateRun s).ocur = s.ocur := rfl
@[simp] theorem truncateRun_litrem (s : State) : (truncateRun s).litrem = s.litrem := rfl
@[simp] theorem truncateRun_tcount (s : State) : (truncateRun s).tcount = s.tcount := rfl
@[simp] theorem truncateRun_tidx (s : State) : (truncateRun s).tidx = s.tidx := rfl
@[simp] theorem truncateRun_lidx (s : State) : (truncateRun s).lidx = s.lidx := rfl
@[simp] theorem truncateRun_didx (s : State) : (truncateRun s).didx = s.didx := rfl
@[simp] theorem truncateRun_copyrem (s : State) : (truncateRun s).copyrem = s.copyrem := rfl
@[simp] theorem truncateRun_dist (s : State) : (truncateRun s).dist = s.dist := rfl
@[simp] theorem truncateRun_seq (s : State) : (truncateRun s).seq = .idle := rfl
@[simp] theorem truncateRun_run (s : State) : (truncateRun s).run = .done := rfl
@[simp] theorem truncateRun_trunc (s : State) : (truncateRun s).trunc = true := rfl
@[simp] theorem truncateRun_ovr (s : State) : (truncateRun s).ovr = s.ovr := rfl
@[simp] theorem truncateRun_err (s : State) : (truncateRun s).err = s.err := rfl
@[simp] theorem truncateRun_hdrflag (s : State) : (truncateRun s).hdrflag = s.hdrflag := rfl
@[simp] theorem truncateRun_csize (s : State) : (truncateRun s).csize = s.csize := rfl
@[simp] theorem truncateRun_dsize (s : State) : (truncateRun s).dsize = s.dsize := rfl
@[simp] theorem truncateRun_pbase (s : State) : (truncateRun s).pbase = s.pbase := rfl
@[simp] theorem truncateRun_obase (s : State) : (truncateRun s).obase = s.obase := rfl
@[simp] theorem truncateRun_lp (s : State) : (truncateRun s).lp = s.lp := rfl
@[simp] theorem truncateRun_lo (s : State) : (truncateRun s).lo = s.lo := rfl
@[simp] theorem truncateRun_sp (s : State) : (truncateRun s).sp = s.sp := rfl
@[simp] theorem truncateRun_so (s : State) : (truncateRun s).so = s.so := rfl
@[simp] theorem truncateRun_lens (s : State) : (truncateRun s).lens = s.lens := rfl
@[simp] theorem truncateRun_src (s : State) : (truncateRun s).src = s.src := rfl
@[simp] theorem truncateRun_out (s : State) : (truncateRun s).out = s.out := rfl
@[simp] theorem truncateRun_tainted (s : State) : (truncateRun s).tainted = s.tainted := rfl
@[simp] theorem truncateRun_draws (s : State) : (truncateRun s).draws = s.draws := rfl
@[simp] theorem truncateRun_rdata (s : State) : (truncateRun s).rdata = s.rdata := rfl
@[simp] theorem truncateRun_mdata (s : State) : (truncateRun s).mdata = s.mdata := rfl
@[simp] theorem truncateRun_turns (s : State) : (truncateRun s).turns = s.turns := rfl
@[simp] theorem truncateRun_cfg (s : State) : (truncateRun s).cfg = s.cfg := rfl

/-! ### `outWrite` -/

@[simp] theorem outWrite_acc (a : Nat) (b : Byte) (s : State) : (outWrite a b s).acc = s.acc := rfl
@[simp] theorem outWrite_avail (a : Nat) (b : Byte) (s : State) : (outWrite a b s).avail = s.avail := rfl
@[simp] theorem outWrite_cursor (a : Nat) (b : Byte) (s : State) : (outWrite a b s).cursor = s.cursor := rfl
@[simp] theorem outWrite_plimit (a : Nat) (b : Byte) (s : State) : (outWrite a b s).plimit = s.plimit := rfl
@[simp] theorem outWrite_endianL (a : Nat) (b : Byte) (s : State) : (outWrite a b s).endianL = s.endianL := rfl
@[simp] theorem outWrite_ocur (a : Nat) (b : Byte) (s : State) : (outWrite a b s).ocur = s.ocur := rfl
@[simp] theorem outWrite_litrem (a : Nat) (b : Byte) (s : State) : (outWrite a b s).litrem = s.litrem := rfl
@[simp] theorem outWrite_tcount (a : Nat) (b : Byte) (s : State) : (outWrite a b s).tcount = s.tcount := rfl
@[simp] theorem outWrite_tidx (a : Nat) (b : Byte) (s : State) : (outWrite a b s).tidx = s.tidx := rfl
@[simp] theorem outWrite_lidx (a : Nat) (b : Byte) (s : State) : (outWrite a b s).lidx = s.lidx := rfl
@[simp] theorem outWrite_didx (a : Nat) (b : Byte) (s : State) : (outWrite a b s).didx = s.didx := rfl
@[simp] theorem outWrite_copyrem (a : Nat) (b : Byte) (s : State) : (outWrite a b s).copyrem = s.copyrem := rfl
@[simp] theorem outWrite_dist (a : Nat) (b : Byte) (s : State) : (outWrite a b s).dist = s.dist := rfl
@[simp] theorem outWrite_seq (a : Nat) (b : Byte) (s : State) : (outWrite a b s).seq = s.seq := rfl
@[simp] theorem outWrite_run (a : Nat) (b : Byte) (s : State) : (outWrite a b s).run = s.run := rfl
@[simp] theorem outWrite_trunc (a : Nat) (b : Byte) (s : State) : (outWrite a b s).trunc = s.trunc := rfl
@[simp] theorem outWrite_ovr (a : Nat) (b : Byte) (s : State) : (outWrite a b s).ovr = s.ovr := rfl
@[simp] theorem outWrite_err (a : Nat) (b : Byte) (s : State) : (outWrite a b s).err = s.err := rfl
@[simp] theorem outWrite_hdrflag (a : Nat) (b : Byte) (s : State) : (outWrite a b s).hdrflag = s.hdrflag := rfl
@[simp] theorem outWrite_csize (a : Nat) (b : Byte) (s : State) : (outWrite a b s).csize = s.csize := rfl
@[simp] theorem outWrite_dsize (a : Nat) (b : Byte) (s : State) : (outWrite a b s).dsize = s.dsize := rfl
@[simp] theorem outWrite_pbase (a : Nat) (b : Byte) (s : State) : (outWrite a b s).pbase = s.pbase := rfl
@[simp] theorem outWrite_obase (a : Nat) (b : Byte) (s : State) : (outWrite a b s).obase = s.obase := rfl
@[simp] theorem outWrite_lp (a : Nat) (b : Byte) (s : State) : (outWrite a b s).lp = s.lp := rfl
@[simp] theorem outWrite_lo (a : Nat) (b : Byte) (s : State) : (outWrite a b s).lo = s.lo := rfl
@[simp] theorem outWrite_sp (a : Nat) (b : Byte) (s : State) : (outWrite a b s).sp = s.sp := rfl
@[simp] theorem outWrite_so (a : Nat) (b : Byte) (s : State) : (outWrite a b s).so = s.so := rfl
@[simp] theorem outWrite_lens (a : Nat) (b : Byte) (s : State) : (outWrite a b s).lens = s.lens := rfl
@[simp] theorem outWrite_src (a : Nat) (b : Byte) (s : State) : (outWrite a b s).src = s.src := rfl
@[simp] theorem outWrite_out (a : Nat) (b : Byte) (s : State) : (outWrite a b s).out = s.out.write (s.wrap a) b := rfl
@[simp] theorem outWrite_tainted (a : Nat) (b : Byte) (s : State) : (outWrite a b s).tainted = s.tainted := rfl
@[simp] theorem outWrite_draws (a : Nat) (b : Byte) (s : State) : (outWrite a b s).draws = s.draws := rfl
@[simp] theorem outWrite_rdata (a : Nat) (b : Byte) (s : State) : (outWrite a b s).rdata = s.rdata := rfl
@[simp] theorem outWrite_mdata (a : Nat) (b : Byte) (s : State) : (outWrite a b s).mdata = s.mdata := rfl
@[simp] theorem outWrite_turns (a : Nat) (b : Byte) (s : State) : (outWrite a b s).turns = s.turns := rfl
@[simp] theorem outWrite_cfg (a : Nat) (b : Byte) (s : State) : (outWrite a b s).cfg = s.cfg := rfl

/-! ### `appendByte` -/

@[simp] theorem appendByte_acc (b : Byte) (s : State) : (appendByte b s).acc = s.acc := rfl
@[simp] theorem appendByte_avail (b : Byte) (s : State) : (appendByte b s).avail = s.avail := rfl
@[simp] theorem appendByte_cursor (b : Byte) (s : State) : (appendByte b s).cursor = s.cursor := rfl
@[simp] theorem appendByte_plimit (b : Byte) (s : State) : (appendByte b s).plimit = s.plimit := rfl
@[simp] theorem appendByte_endianL (b : Byte) (s : State) : (appendByte b s).endianL = s.endianL := rfl
@[simp] theorem appendByte_ocur (b : Byte) (s : State) : (appendByte b s).ocur = s.ocur + 1 := rfl
@[simp] theorem appendByte_litrem (b : Byte) (s : State) : (appendByte b s).litrem = s.litrem := rfl
@[simp] theorem appendByte_tcount (b : Byte) (s : State) : (appendByte b s).tcount = s.tcount := rfl
@[simp] theorem appendByte_tidx (b : Byte) (s : State) : (appendByte b s).tidx = s.tidx := rfl
@[simp] theorem appendByte_lidx (b : Byte) (s : State) : (appendByte b s).lidx = s.lidx := rfl
@[simp] theorem appendByte_didx (b : Byte) (s : State) : (appendByte b s).didx = s.didx := rfl
@[simp] theorem appendByte_copyrem (b : Byte) (s : State) : (appendByte b s).copyrem = s.copyrem := rfl
@[simp] theorem appendByte_dist (b : Byte) (s : State) : (appendByte b s).dist = s.dist := rfl
@[simp] theorem appendByte_seq (b : Byte) (s : State) : (appendByte b s).seq = s.seq := rfl
@[simp] theorem appendByte_run (b : Byte) (s : State) : (appendByte b s).run = s.run := rfl
@[simp] theorem appendByte_trunc (b : Byte) (s : State) : (appendByte b s).trunc = s.trunc := rfl
@[simp] theorem appendByte_ovr (b : Byte) (s : State) : (appendByte b s).ovr = s.ovr := rfl
@[simp] theorem appendByte_err (b : Byte) (s : State) : (appendByte b s).err = s.err := rfl
@[simp] theorem appendByte_hdrflag (b : Byte) (s : State) : (appendByte b s).hdrflag = s.hdrflag := rfl
@[simp] theorem appendByte_csize (b : Byte) (s : State) : (appendByte b s).csize = s.csize := rfl
@[simp] theorem appendByte_dsize (b : Byte) (s : State) : (appendByte b s).dsize = s.dsize := rfl
@[simp] theorem appendByte_pbase (b : Byte) (s : State) : (appendByte b s).pbase = s.pbase := rfl
@[simp] theorem appendByte_obase (b : Byte) (s : State) : (appendByte b s).obase = s.obase := rfl
@[simp] theorem appendByte_lp (b : Byte) (s : State) : (appendByte b s).lp = s.lp := rfl
@[simp] theorem appendByte_lo (b : Byte) (s : State) : (appendByte b s).lo = s.lo := rfl
@[simp] theorem appendByte_sp (b : Byte) (s : State) : (appendByte b s).sp = s.sp := rfl
@[simp] theorem appendByte_so (b : Byte) (s : State) : (appendByte b s).so = s.so := rfl
@[simp] theorem appendByte_lens (b : Byte) (s : State) : (appendByte b s).lens = s.lens := rfl
@[simp] theorem appendByte_src (b : Byte) (s : State) : (appendByte b s).src = s.src := rfl
@[simp] theorem appendByte_out (b : Byte) (s : State) : (appendByte b s).out = s.out.write (s.wrap s.outAddr) b := rfl
@[simp] theorem appendByte_tainted (b : Byte) (s : State) : (appendByte b s).tainted = s.tainted := rfl
@[simp] theorem appendByte_draws (b : Byte) (s : State) : (appendByte b s).draws = s.draws := rfl
@[simp] theorem appendByte_rdata (b : Byte) (s : State) : (appendByte b s).rdata = s.rdata := rfl
@[simp] theorem appendByte_mdata (b : Byte) (s : State) : (appendByte b s).mdata = s.mdata := rfl
@[simp] theorem appendByte_turns (b : Byte) (s : State) : (appendByte b s).turns = s.turns := rfl
@[simp] theorem appendByte_cfg (b : Byte) (s : State) : (appendByte b s).cfg = s.cfg := rfl

/-! ### `drawByte` -/

@[simp] theorem drawByte_acc (s : State) : (drawByte s).2.acc = s.acc := rfl
@[simp] theorem drawByte_avail (s : State) : (drawByte s).2.avail = s.avail := rfl
@[simp] theorem drawByte_cursor (s : State) : (drawByte s).2.cursor = s.cursor := rfl
@[simp] theorem drawByte_plimit (s : State) : (drawByte s).2.plimit = s.plimit := rfl
@[simp] theorem drawByte_endianL (s : State) : (drawByte s).2.endianL = s.endianL := rfl
@[simp] theorem drawByte_ocur (s : State) : (drawByte s).2.ocur = s.ocur := rfl
@[simp] theorem drawByte_litrem (s : State) : (drawByte s).2.litrem = s.litrem := rfl
@[simp] theorem drawByte_tcount (s : State) : (drawByte s).2.tcount = s.tcount := rfl
@[simp] theorem drawByte_tidx (s : State) : (drawByte s).2.tidx = s.tidx := rfl
@[simp] theorem drawByte_lidx (s : State) : (drawByte s).2.lidx = s.lidx := rfl
@[simp] theorem drawByte_didx (s : State) : (drawByte s).2.didx = s.didx := rfl
@[simp] theorem drawByte_copyrem (s : State) : (drawByte s).2.copyrem = s.copyrem := rfl
@[simp] theorem drawByte_dist (s : State) : (drawByte s).2.dist = s.dist := rfl
@[simp] theorem drawByte_seq (s : State) : (drawByte s).2.seq = s.seq := rfl
@[simp] theorem drawByte_run (s : State) : (drawByte s).2.run = s.run := rfl
@[simp] theorem drawByte_trunc (s : State) : (drawByte s).2.trunc = s.trunc := rfl
@[simp] theorem drawByte_ovr (s : State) : (drawByte s).2.ovr = s.ovr := rfl
@[simp] theorem drawByte_err (s : State) : (drawByte s).2.err = s.err := rfl
@[simp] theorem drawByte_hdrflag (s : State) : (drawByte s).2.hdrflag = s.hdrflag := rfl
@[simp] theorem drawByte_csize (s : State) : (drawByte s).2.csize = s.csize := rfl
@[simp] theorem drawByte_dsize (s : State) : (drawByte s).2.dsize = s.dsize := rfl
@[simp] theorem drawByte_pbase (s : State) : (drawByte s).2.pbase = s.pbase := rfl
@[simp] theorem drawByte_obase (s : State) : (drawByte s).2.obase = s.obase := rfl
@[simp] theorem drawByte_lp (s : State) : (drawByte s).2.lp = s.lp := rfl
@[simp] theorem drawByte_lo (s : State) : (drawByte s).2.lo = s.lo := rfl
@[simp] theorem drawByte_sp (s : State) : (drawByte s).2.sp = s.sp := rfl
@[simp] theorem drawByte_so (s : State) : (drawByte s).2.so = s.so := rfl
@[simp] theorem drawByte_lens (s : State) : (drawByte s).2.lens = s.lens := rfl
@[simp] theorem drawByte_src (s : State) : (drawByte s).2.src = s.src := rfl
@[simp] theorem drawByte_out (s : State) : (drawByte s).2.out = s.out := rfl
@[simp] theorem drawByte_tainted (s : State) : (drawByte s).2.tainted = s.tainted := rfl
@[simp] theorem drawByte_draws (s : State) : (drawByte s).2.draws = s.draws + 1 := rfl
@[simp] theorem drawByte_rdata (s : State) : (drawByte s).2.rdata = s.rdata := rfl
@[simp] theorem drawByte_mdata (s : State) : (drawByte s).2.mdata = s.mdata := rfl
@[simp] theorem drawByte_turns (s : State) : (drawByte s).2.turns = s.turns := rfl
@[simp] theorem drawByte_cfg (s : State) : (drawByte s).2.cfg = s.cfg := rfl

/-! ### `storeLen` -/

@[simp] theorem storeLen_acc (l : CodeLen) (s : State) : (storeLen l s).acc = s.acc := rfl
@[simp] theorem storeLen_avail (l : CodeLen) (s : State) : (storeLen l s).avail = s.avail := rfl
@[simp] theorem storeLen_cursor (l : CodeLen) (s : State) : (storeLen l s).cursor = s.cursor := rfl
@[simp] theorem storeLen_plimit (l : CodeLen) (s : State) : (storeLen l s).plimit = s.plimit := rfl
@[simp] theorem storeLen_endianL (l : CodeLen) (s : State) : (storeLen l s).endianL = s.endianL := rfl
@[simp] theorem storeLen_ocur (l : CodeLen) (s : State) : (storeLen l s).ocur = s.ocur := rfl
@[simp] theorem storeLen_litrem (l : CodeLen) (s : State) : (storeLen l s).litrem = s.litrem := rfl
@[simp] theorem storeLen_tcount (l : CodeLen) (s : State) : (storeLen l s).tcount = s.tcount := rfl
@[simp] theorem storeLen_tidx (l : CodeLen) (s : State) : (storeLen l s).tidx = s.tidx + 1 := rfl
@[simp] theorem storeLen_lidx (l : CodeLen) (s : State) : (storeLen l s).lidx = s.lidx := rfl
@[simp] theorem storeLen_didx (l : CodeLen) (s : State) : (storeLen l s).didx = s.didx := rfl
@[simp] theorem storeLen_copyrem (l : CodeLen) (s : State) : (storeLen l s).copyrem = s.copyrem := rfl
@[simp] theorem storeLen_dist (l : CodeLen) (s : State) : (storeLen l s).dist = s.dist := rfl
@[simp] theorem storeLen_seq (l : CodeLen) (s : State) : (storeLen l s).seq = s.seq := rfl
@[simp] theorem storeLen_run (l : CodeLen) (s : State) : (storeLen l s).run = s.run := rfl
@[simp] theorem storeLen_trunc (l : CodeLen) (s : State) : (storeLen l s).trunc = s.trunc := rfl
@[simp] theorem storeLen_ovr (l : CodeLen) (s : State) : (storeLen l s).ovr = s.ovr := rfl
@[simp] theorem storeLen_err (l : CodeLen) (s : State) : (storeLen l s).err = s.err := rfl
@[simp] theorem storeLen_hdrflag (l : CodeLen) (s : State) : (storeLen l s).hdrflag = s.hdrflag := rfl
@[simp] theorem storeLen_csize (l : CodeLen) (s : State) : (storeLen l s).csize = s.csize := rfl
@[simp] theorem storeLen_dsize (l : CodeLen) (s : State) : (storeLen l s).dsize = s.dsize := rfl
@[simp] theorem storeLen_pbase (l : CodeLen) (s : State) : (storeLen l s).pbase = s.pbase := rfl
@[simp] theorem storeLen_obase (l : CodeLen) (s : State) : (storeLen l s).obase = s.obase := rfl
@[simp] theorem storeLen_lp (l : CodeLen) (s : State) : (storeLen l s).lp = s.lp := rfl
@[simp] theorem storeLen_lo (l : CodeLen) (s : State) : (storeLen l s).lo = s.lo := rfl
@[simp] theorem storeLen_sp (l : CodeLen) (s : State) : (storeLen l s).sp = s.sp := rfl
@[simp] theorem storeLen_so (l : CodeLen) (s : State) : (storeLen l s).so = s.so := rfl
@[simp] theorem storeLen_lens (l : CodeLen) (s : State) : (storeLen l s).lens = s.lens.setIfInBounds s.tidx.toNat l := rfl
@[simp] theorem storeLen_src (l : CodeLen) (s : State) : (storeLen l s).src = s.src := rfl
@[simp] theorem storeLen_out (l : CodeLen) (s : State) : (storeLen l s).out = s.out := rfl
@[simp] theorem storeLen_tainted (l : CodeLen) (s : State) : (storeLen l s).tainted = s.tainted := rfl
@[simp] theorem storeLen_draws (l : CodeLen) (s : State) : (storeLen l s).draws = s.draws := rfl
@[simp] theorem storeLen_rdata (l : CodeLen) (s : State) : (storeLen l s).rdata = s.rdata := rfl
@[simp] theorem storeLen_mdata (l : CodeLen) (s : State) : (storeLen l s).mdata = s.mdata := rfl
@[simp] theorem storeLen_turns (l : CodeLen) (s : State) : (storeLen l s).turns = s.turns := rfl
@[simp] theorem storeLen_cfg (l : CodeLen) (s : State) : (storeLen l s).cfg = s.cfg := rfl

/-! ### `take` -/

@[simp] theorem take_acc (k : Nat) (s : State) : (take k s).acc = s.acc >>> k := rfl
@[simp] theorem take_avail (k : Nat) (s : State) : (take k s).avail = s.avail - BitVec.ofNat 64 k := rfl
@[simp] theorem take_cursor (k : Nat) (s : State) : (take k s).cursor = s.cursor := rfl
@[simp] theorem take_plimit (k : Nat) (s : State) : (take k s).plimit = s.plimit := rfl
@[simp] theorem take_endianL (k : Nat) (s : State) : (take k s).endianL = s.endianL := rfl
@[simp] theorem take_ocur (k : Nat) (s : State) : (take k s).ocur = s.ocur := rfl
@[simp] theorem take_litrem (k : Nat) (s : State) : (take k s).litrem = s.litrem := rfl
@[simp] theorem take_tcount (k : Nat) (s : State) : (take k s).tcount = s.tcount := rfl
@[simp] theorem take_tidx (k : Nat) (s : State) : (take k s).tidx = s.tidx := rfl
@[simp] theorem take_lidx (k : Nat) (s : State) : (take k s).lidx = s.lidx := rfl
@[simp] theorem take_didx (k : Nat) (s : State) : (take k s).didx = s.didx := rfl
@[simp] theorem take_copyrem (k : Nat) (s : State) : (take k s).copyrem = s.copyrem := rfl
@[simp] theorem take_dist (k : Nat) (s : State) : (take k s).dist = s.dist := rfl
@[simp] theorem take_seq (k : Nat) (s : State) : (take k s).seq = s.seq := rfl
@[simp] theorem take_run (k : Nat) (s : State) : (take k s).run = s.run := rfl
@[simp] theorem take_trunc (k : Nat) (s : State) : (take k s).trunc = s.trunc := rfl
@[simp] theorem take_ovr (k : Nat) (s : State) : (take k s).ovr = ovrAfter s.ovr (s.avail - BitVec.ofNat 64 k) := rfl
@[simp] theorem take_err (k : Nat) (s : State) : (take k s).err = s.err := rfl
@[simp] theorem take_hdrflag (k : Nat) (s : State) : (take k s).hdrflag = s.hdrflag := rfl
@[simp] theorem take_csize (k : Nat) (s : State) : (take k s).csize = s.csize := rfl
@[simp] theorem take_dsize (k : Nat) (s : State) : (take k s).dsize = s.dsize := rfl
@[simp] theorem take_pbase (k : Nat) (s : State) : (take k s).pbase = s.pbase := rfl
@[simp] theorem take_obase (k : Nat) (s : State) : (take k s).obase = s.obase := rfl
@[simp] theorem take_lp (k : Nat) (s : State) : (take k s).lp = s.lp := rfl
@[simp] theorem take_lo (k : Nat) (s : State) : (take k s).lo = s.lo := rfl
@[simp] theorem take_sp (k : Nat) (s : State) : (take k s).sp = s.sp := rfl
@[simp] theorem take_so (k : Nat) (s : State) : (take k s).so = s.so := rfl
@[simp] theorem take_lens (k : Nat) (s : State) : (take k s).lens = s.lens := rfl
@[simp] theorem take_src (k : Nat) (s : State) : (take k s).src = s.src := rfl
@[simp] theorem take_out (k : Nat) (s : State) : (take k s).out = s.out := rfl
@[simp] theorem take_tainted (k : Nat) (s : State) : (take k s).tainted = s.tainted := rfl
@[simp] theorem take_draws (k : Nat) (s : State) : (take k s).draws = s.draws := rfl
@[simp] theorem take_rdata (k : Nat) (s : State) : (take k s).rdata = s.rdata := rfl
@[simp] theorem take_mdata (k : Nat) (s : State) : (take k s).mdata = s.mdata := rfl
@[simp] theorem take_turns (k : Nat) (s : State) : (take k s).turns = s.turns := rfl
@[simp] theorem take_cfg (k : Nat) (s : State) : (take k s).cfg = s.cfg := rfl

/-! ### `mergeWord` -/

@[simp] theorem mergeWord_acc (w : Word) (n : Nat) (s : State) : (mergeWord w n s).acc = (w.setWidth 64 <<< s.avail.toNat) ||| (s.acc &&& BitVec.ofNat 64 (2 ^ s.avail.toNat - 1)) := rfl
@[simp] theorem mergeWord_avail (w : Word) (n : Nat) (s : State) : (mergeWord w n s).avail = s.avail + BitVec.ofNat 64 (8 * n) := rfl
@[simp] theorem mergeWord_cursor (w : Word) (n : Nat) (s : State) : (mergeWord w n s).cursor = s.cursor + BitVec.ofNat 32 n := rfl
@[simp] theorem mergeWord_plimit (w : Word) (n : Nat) (s : State) : (mergeWord w n s).plimit = s.plimit := rfl
@[simp] theorem mergeWord_endianL (w : Word) (n : Nat) (s : State) : (mergeWord w n s).endianL = s.endianL := rfl
@[simp] theorem mergeWord_ocur (w : Word) (n : Nat) (s : State) : (mergeWord w n s).ocur = s.ocur := rfl
@[simp] theorem mergeWord_litrem (w : Word) (n : Nat) (s : State) : (mergeWord w n s).litrem = s.litrem := rfl
@[simp] theorem mergeWord_tcount (w : Word) (n : Nat) (s : State) : (mergeWord w n s).tcount = s.tcount := rfl
@[simp] theorem mergeWord_tidx (w : Word) (n : Nat) (s : State) : (mergeWord w n s).tidx = s.tidx := rfl
@[simp] theorem mergeWord_lidx (w : Word) (n : Nat) (s : State) : (mergeWord w n s).lidx = s.lidx := rfl
@[simp] theorem mergeWord_didx (w : Word) (n : Nat) (s : State) : (mergeWord w n s).didx = s.didx := rfl
@[simp] theorem mergeWord_copyrem (w : Word) (n : Nat) (s : State) : (mergeWord w n s).copyrem = s.copyrem := rfl
@[simp] theorem mergeWord_dist (w : Word) (n : Nat) (s : State) : (mergeWord w n s).dist = s.dist := rfl
@[simp] theorem mergeWord_seq (w : Word) (n : Nat) (s : State) : (mergeWord w n s).seq = s.seq := rfl
@[simp] theorem mergeWord_run (w : Word) (n : Nat) (s : State) : (mergeWord w n s).run = s.run := rfl
@[simp] theorem mergeWord_trunc (w : Word) (n : Nat) (s : State) : (mergeWord w n s).trunc = s.trunc := rfl
@[simp] theorem mergeWord_ovr (w : Word) (n : Nat) (s : State) : (mergeWord w n s).ovr = s.ovr := rfl
@[simp] theorem mergeWord_err (w : Word) (n : Nat) (s : State) : (mergeWord w n s).err = s.err := rfl
@[simp] theorem mergeWord_hdrflag (w : Word) (n : Nat) (s : State) : (mergeWord w n s).hdrflag = s.hdrflag := rfl
@[simp] theorem mergeWord_csize (w : Word) (n : Nat) (s : State) : (mergeWord w n s).csize = s.csize := rfl
@[simp] theorem mergeWord_dsize (w : Word) (n : Nat) (s : State) : (mergeWord w n s).dsize = s.dsize := rfl
@[simp] theorem mergeWord_pbase (w : Word) (n : Nat) (s : State) : (mergeWord w n s).pbase = s.pbase := rfl
@[simp] theorem mergeWord_obase (w : Word) (n : Nat) (s : State) : (mergeWord w n s).obase = s.obase := rfl
@[simp] theorem mergeWord_lp (w : Word) (n : Nat) (s : State) : (mergeWord w n s).lp = s.lp := rfl
@[simp] theorem mergeWord_lo (w : Word) (n : Nat) (s : State) : (mergeWord w n s).lo = s.lo := rfl
@[simp] theorem mergeWord_sp (w : Word) (n : Nat) (s : State) : (mergeWord w n s).sp = s.sp := rfl
@[simp] theorem mergeWord_so (w : Word) (n : Nat) (s : State) : (mergeWord w n s).so = s.so := rfl
@[simp] theorem mergeWord_lens (w : Word) (n : Nat) (s : State) : (mergeWord w n s).lens = s.lens := rfl
@[simp] theorem mergeWord_src (w : Word) (n : Nat) (s : State) : (mergeWord w n s).src = s.src := rfl
@[simp] theorem mergeWord_out (w : Word) (n : Nat) (s : State) : (mergeWord w n s).out = s.out := rfl
@[simp] theorem mergeWord_tainted (w : Word) (n : Nat) (s : State) : (mergeWord w n s).tainted = s.tainted := rfl
@[simp] theorem mergeWord_draws (w : Word) (n : Nat) (s : State) : (mergeWord w n s).draws = s.draws := rfl
@[simp] theorem mergeWord_rdata (w : Word) (n : Nat) (s : State) : (mergeWord w n s).rdata = s.rdata := rfl
@[simp] theorem mergeWord_mdata (w : Word) (n : Nat) (s : State) : (mergeWord w n s).mdata = s.mdata := rfl
@[simp] theorem mergeWord_turns (w : Word) (n : Nat) (s : State) : (mergeWord w n s).turns = s.turns := rfl
@[simp] theorem mergeWord_cfg (w : Word) (n : Nat) (s : State) : (mergeWord w n s).cfg = s.cfg := rfl

/-! ### `afterLen` -/

@[simp] theorem afterLen_acc (w : Tbl) (s : State) : (afterLen w s).acc = s.acc := rfl
@[simp] theorem afterLen_avail (w : Tbl) (s : State) : (afterLen w s).avail = s.avail := rfl
@[simp] theorem afterLen_cursor (w : Tbl) (s : State) : (afterLen w s).cursor = s.cursor := rfl
@[simp] theorem afterLen_plimit (w : Tbl) (s : State) : (afterLen w s).plimit = s.plimit := rfl
@[simp] theorem afterLen_endianL (w : Tbl) (s : State) : (afterLen w s).endianL = s.endianL := rfl
@[simp] theorem afterLen_ocur (w : Tbl) (s : State) : (afterLen w s).ocur = s.ocur := rfl
@[simp] theorem afterLen_litrem (w : Tbl) (s : State) : (afterLen w s).litrem = s.litrem := rfl
@[simp] theorem afterLen_tcount (w : Tbl) (s : State) : (afterLen w s).tcount = s.tcount := rfl
@[simp] theorem afterLen_tidx (w : Tbl) (s : State) : (afterLen w s).tidx = s.tidx := rfl
@[simp] theorem afterLen_lidx (w : Tbl) (s : State) : (afterLen w s).lidx = s.lidx := rfl
@[simp] theorem afterLen_didx (w : Tbl) (s : State) : (afterLen w s).didx = s.didx := rfl
@[simp] theorem afterLen_copyrem (w : Tbl) (s : State) : (afterLen w s).copyrem = s.copyrem := rfl
@[simp] theorem afterLen_dist (w : Tbl) (s : State) : (afterLen w s).dist = s.dist := rfl
@[simp] theorem afterLen_seq (w : Tbl) (s : State) : (afterLen w s).seq = if s.tidx = s.tcount then .tbuild w else .tflag w := rfl
@[simp] theorem afterLen_run (w : Tbl) (s : State) : (afterLen w s).run = s.run := rfl
@[simp] theorem afterLen_trunc (w : Tbl) (s : State) : (afterLen w s).trunc = s.trunc := rfl
@[simp] theorem afterLen_ovr (w : Tbl) (s : State) : (afterLen w s).ovr = s.ovr := rfl
@[simp] theorem afterLen_err (w : Tbl) (s : State) : (afterLen w s).err = s.err := rfl
@[simp] theorem afterLen_hdrflag (w : Tbl) (s : State) : (afterLen w s).hdrflag = s.hdrflag := rfl
@[simp] theorem afterLen_csize (w : Tbl) (s : State) : (afterLen w s).csize = s.csize := rfl
@[simp] theorem afterLen_dsize (w : Tbl) (s : State) : (afterLen w s).dsize = s.dsize := rfl
@[simp] theorem afterLen_pbase (w : Tbl) (s : State) : (afterLen w s).pbase = s.pbase := rfl
@[simp] theorem afterLen_obase (w : Tbl) (s : State) : (afterLen w s).obase = s.obase := rfl
@[simp] theorem afterLen_lp (w : Tbl) (s : State) : (afterLen w s).lp = s.lp := rfl
@[simp] theorem afterLen_lo (w : Tbl) (s : State) : (afterLen w s).lo = s.lo := rfl
@[simp] theorem afterLen_sp (w : Tbl) (s : State) : (afterLen w s).sp = s.sp := rfl
@[simp] theorem afterLen_so (w : Tbl) (s : State) : (afterLen w s).so = s.so := rfl
@[simp] theorem afterLen_lens (w : Tbl) (s : State) : (afterLen w s).lens = s.lens := rfl
@[simp] theorem afterLen_src (w : Tbl) (s : State) : (afterLen w s).src = s.src := rfl
@[simp] theorem afterLen_out (w : Tbl) (s : State) : (afterLen w s).out = s.out := rfl
@[simp] theorem afterLen_tainted (w : Tbl) (s : State) : (afterLen w s).tainted = s.tainted := rfl
@[simp] theorem afterLen_draws (w : Tbl) (s : State) : (afterLen w s).draws = s.draws := rfl
@[simp] theorem afterLen_rdata (w : Tbl) (s : State) : (afterLen w s).rdata = s.rdata := rfl
@[simp] theorem afterLen_mdata (w : Tbl) (s : State) : (afterLen w s).mdata = s.mdata := rfl
@[simp] theorem afterLen_turns (w : Tbl) (s : State) : (afterLen w s).turns = s.turns := rfl
@[simp] theorem afterLen_cfg (w : Tbl) (s : State) : (afterLen w s).cfg = s.cfg := rfl

/-! ### `initRun` -/

@[simp] theorem initRun_acc (s : State) : (initRun s).acc = 0 := rfl
@[simp] theorem initRun_avail (s : State) : (initRun s).avail = 0 := rfl
@[simp] theorem initRun_cursor (s : State) : (initRun s).cursor = 0 := rfl
@[simp] theorem initRun_plimit (s : State) : (initRun s).plimit = payloadLimit s.cfg.csizeMode s.csize := rfl
@[simp] theorem initRun_endianL (s : State) : (initRun s).endianL = s.hdrflag.getLsbD 7 := rfl
@[simp] theorem initRun_ocur (s : State) : (initRun s).ocur = 0 := rfl
@[simp] theorem initRun_litrem (s : State) : (initRun s).litrem = 0 := rfl
@[simp] theorem initRun_tcount (s : State) : (initRun s).tcount = 0 := rfl
@[simp] theorem initRun_tidx (s : State) : (initRun s).tidx = 0 := rfl
@[simp] theorem initRun_lidx (s : State) : (initRun s).lidx = 0 := rfl
@[simp] theorem initRun_didx (s : State) : (initRun s).didx = 0 := rfl
@[simp] theorem initRun_copyrem (s : State) : (initRun s).copyrem = 0 := rfl
@[simp] theorem initRun_dist (s : State) : (initRun s).dist = 0 := rfl
@[simp] theorem initRun_seq (s : State) : (initRun s).seq = s.seq := rfl
@[simp] theorem initRun_run (s : State) : (initRun s).run = s.run := rfl
@[simp] theorem initRun_trunc (s : State) : (initRun s).trunc = false := rfl
@[simp] theorem initRun_ovr (s : State) : (initRun s).ovr = false := rfl
@[simp] theorem initRun_err (s : State) : (initRun s).err = .none := rfl
@[simp] theorem initRun_hdrflag (s : State) : (initRun s).hdrflag = s.hdrflag := rfl
@[simp] theorem initRun_csize (s : State) : (initRun s).csize = s.csize := rfl
@[simp] theorem initRun_dsize (s : State) : (initRun s).dsize = s.dsize := rfl
@[simp] theorem initRun_pbase (s : State) : (initRun s).pbase = s.pbase := rfl
@[simp] theorem initRun_obase (s : State) : (initRun s).obase = s.obase := rfl
@[simp] theorem initRun_lp (s : State) : (initRun s).lp = Vector.replicate _ 0 := rfl
@[simp] theorem initRun_lo (s : State) : (initRun s).lo = Vector.replicate _ 0 := rfl
@[simp] theorem initRun_sp (s : State) : (initRun s).sp = Vector.replicate _ 0 := rfl
@[simp] theorem initRun_so (s : State) : (initRun s).so = Vector.replicate _ 0 := rfl
@[simp] theorem initRun_lens (s : State) : (initRun s).lens = s.lens := rfl
@[simp] theorem initRun_src (s : State) : (initRun s).src = s.src := rfl
@[simp] theorem initRun_out (s : State) : (initRun s).out = s.out := rfl
@[simp] theorem initRun_tainted (s : State) : (initRun s).tainted = [] := rfl
@[simp] theorem initRun_draws (s : State) : (initRun s).draws = s.draws := rfl
@[simp] theorem initRun_rdata (s : State) : (initRun s).rdata = s.rdata := rfl
@[simp] theorem initRun_mdata (s : State) : (initRun s).mdata = s.mdata := rfl
@[simp] theorem initRun_turns (s : State) : (initRun s).turns = s.turns := rfl
@[simp] theorem initRun_cfg (s : State) : (initRun s).cfg = s.cfg := rfl

/-! ### `afterTurn` -/

@[simp] theorem afterTurn_acc (s : State) : s.afterTurn.acc = s.acc := rfl
@[simp] theorem afterTurn_avail (s : State) : s.afterTurn.avail = s.avail := rfl
@[simp] theorem afterTurn_cursor (s : State) : s.afterTurn.cursor = s.cursor := rfl
@[simp] theorem afterTurn_plimit (s : State) : s.afterTurn.plimit = s.plimit := rfl
@[simp] theorem afterTurn_endianL (s : State) : s.afterTurn.endianL = s.endianL := rfl
@[simp] theorem afterTurn_ocur (s : State) : s.afterTurn.ocur = s.ocur := rfl
@[simp] theorem afterTurn_litrem (s : State) : s.afterTurn.litrem = s.litrem := rfl
@[simp] theorem afterTurn_tcount (s : State) : s.afterTurn.tcount = s.tcount := rfl
@[simp] theorem afterTurn_tidx (s : State) : s.afterTurn.tidx = s.tidx := rfl
@[simp] theorem afterTurn_lidx (s : State) : s.afterTurn.lidx = s.lidx := rfl
@[simp] theorem afterTurn_didx (s : State) : s.afterTurn.didx = s.didx := rfl
@[simp] theorem afterTurn_copyrem (s : State) : s.afterTurn.copyrem = s.copyrem := rfl
@[simp] theorem afterTurn_dist (s : State) : s.afterTurn.dist = s.dist := rfl
@[simp] theorem afterTurn_seq (s : State) : s.afterTurn.seq = s.seq := rfl
@[simp] theorem afterTurn_run (s : State) : s.afterTurn.run = s.run := rfl
@[simp] theorem afterTurn_trunc (s : State) : s.afterTurn.trunc = s.trunc := rfl
@[simp] theorem afterTurn_ovr (s : State) : s.afterTurn.ovr = s.ovr := rfl
@[simp] theorem afterTurn_err (s : State) : s.afterTurn.err = s.err := rfl
@[simp] theorem afterTurn_hdrflag (s : State) : s.afterTurn.hdrflag = s.hdrflag := rfl
@[simp] theorem afterTurn_csize (s : State) : s.afterTurn.csize = s.csize := rfl
@[simp] theorem afterTurn_dsize (s : State) : s.afterTurn.dsize = s.dsize := rfl
@[simp] theorem afterTurn_pbase (s : State) : s.afterTurn.pbase = s.pbase := rfl
@[simp] theorem afterTurn_obase (s : State) : s.afterTurn.obase = s.obase := rfl
@[simp] theorem afterTurn_lp (s : State) : s.afterTurn.lp = s.lp := rfl
@[simp] theorem afterTurn_lo (s : State) : s.afterTurn.lo = s.lo := rfl
@[simp] theorem afterTurn_sp (s : State) : s.afterTurn.sp = s.sp := rfl
@[simp] theorem afterTurn_so (s : State) : s.afterTurn.so = s.so := rfl
@[simp] theorem afterTurn_lens (s : State) : s.afterTurn.lens = s.lens := rfl
@[simp] theorem afterTurn_src (s : State) : s.afterTurn.src = s.src := rfl
@[simp] theorem afterTurn_out (s : State) : s.afterTurn.out = s.out := rfl
@[simp] theorem afterTurn_tainted (s : State) : s.afterTurn.tainted = s.tainted := rfl
@[simp] theorem afterTurn_draws (s : State) : s.afterTurn.draws = s.draws := rfl
@[simp] theorem afterTurn_rdata (s : State) : s.afterTurn.rdata = s.rdata := rfl
@[simp] theorem afterTurn_mdata (s : State) : s.afterTurn.mdata = s.mdata := rfl
@[simp] theorem afterTurn_turns (s : State) : s.afterTurn.turns = s.turns.tail := rfl
@[simp] theorem afterTurn_cfg (s : State) : s.afterTurn.cfg = s.cfg := rfl

end Sys2Proof.Machine
end

