-- ==== Sys2Proof/Laws/Memory.lean ====
section
/-! SUPPORT. Byte memories: read after write, the canonical form, and what the memory operations leave alone. -/

namespace Sys2Proof.Machine

@[simp] theorem Memory.read?_write_same (m : Memory) (a : Nat) (b : Byte) : (m.write a b).read? a = some b := by
  induction m with
  | nil => simp [Memory.write, Memory.read?]
  | cons c m ih =>
    obtain ⟨k, v⟩ := c
    simp only [Memory.write]
    split
    · simp [Memory.read?]
    · split
      · simp [Memory.read?]
      · simp [Memory.read?, *]

theorem Memory.read?_write_other (m : Memory) {a a' : Nat} (b : Byte) (h : a' ≠ a) :
    (m.write a b).read? a' = m.read? a' := by
  induction m with
  | nil => simp [Memory.write, Memory.read?, h]
  | cons c m ih =>
    obtain ⟨k, v⟩ := c
    simp only [Memory.write]
    split
    · simp [Memory.read?, h]
    · split
      · subst_vars; simp [Memory.read?, h]
      · simp only [Memory.read?, ih]

/-- The cells of a written memory: the new one, or an old one at another address. -/
theorem Memory.mem_write {m : Memory} {a : Nat} {b : Byte} {c : Host.Cell} (h : c ∈ m.write a b) :
    c = (a, b) ∨ c ∈ m := by
  induction m with
  | nil => simpa [Memory.write] using h
  | cons d m ih =>
    obtain ⟨k, v⟩ := d
    simp only [Memory.write] at h
    split at h
    · simpa using h
    · split at h
      · simp only [List.mem_cons] at h ⊢; tauto
      · simp only [List.mem_cons] at h ⊢
        rcases h with h | h
        · tauto
        · have := ih h; tauto

theorem Memory.wf_write {m : Memory} (h : m.wf) (a : Nat) (b : Byte) : (m.write a b).wf := by
  induction m with
  | nil => simp [Memory.wf, Memory.write]
  | cons d m ih =>
    obtain ⟨k, v⟩ := d
    obtain ⟨h1, h2⟩ := List.pairwise_cons.1 h
    simp only [Memory.write]
    split
    · rename_i hlt
      refine List.pairwise_cons.2 ⟨?_, h⟩
      intro c hc
      rcases List.mem_cons.1 hc with rfl | hc
      · exact hlt
      · exact Nat.lt_trans hlt (h1 c hc)
    · split
      · rename_i heq
        subst heq
        exact List.pairwise_cons.2 ⟨h1, h2⟩
      · refine List.pairwise_cons.2 ⟨?_, ih h2⟩
        intro c hc
        rcases Memory.mem_write hc with rfl | hc
        · show k < a; omega
        · exact h1 c hc

theorem Memory.bounded_write {m : Memory} {n a : Nat} (h : ∀ c ∈ m, c.1 < n) (ha : a < n) (b : Byte) :
    ∀ c ∈ m.write a b, c.1 < n := by
  intro c hc
  rcases Memory.mem_write hc with rfl | hc
  · exact ha
  · exact h c hc

/-- Writing keeps equal memories equal data: two canonical memories that read alike are the same list. -/
theorem Memory.ext_of_wf {m m' : Memory} (h : m.wf) (h' : m'.wf) (e : ∀ a, m.read? a = m'.read? a) : m = m' := by
  have head_none : ∀ {l : Memory} {k : Nat}, (∀ c ∈ l, k < c.1) → l.read? k = none := by
    intro l k hl
    induction l with
    | nil => rfl
    | cons c l ih =>
      have h1 := hl c (by simp)
      have : k ≠ c.1 := by omega
      simp [Memory.read?, this, ih fun d hd => hl d (by simp [hd])]
  induction m generalizing m' with
  | nil =>
    cases m' with
    | nil => rfl
    | cons c l => have := e c.1; simp [Memory.read?] at this
  | cons c l ih =>
    obtain ⟨k, v⟩ := c
    obtain ⟨h1, h2⟩ := List.pairwise_cons.1 h
    cases m' with
    | nil => have := e k; simp [Memory.read?] at this
    | cons c' l' =>
      obtain ⟨k', v'⟩ := c'
      obtain ⟨h1', h2'⟩ := List.pairwise_cons.1 h'
      have hk : k = k' := by
        rcases Nat.lt_trichotomy k k' with hlt | heq | hgt
        · have e1 := e k
          have : Memory.read? l' k = none := head_none fun d hd => Nat.lt_trans hlt (h1' d hd)
          simp [Memory.read?, this, Nat.ne_of_lt hlt] at e1
        · exact heq
        · have e1 := e k'
          have : Memory.read? l k' = none := head_none fun d hd => Nat.lt_trans hgt (h1 d hd)
          simp [Memory.read?, this, Nat.ne_of_lt hgt] at e1
      subst hk
      have hv : v = v' := by simpa [Memory.read?] using e k
      subst hv
      have : l = l' := by
        refine ih h2 h2' fun a => ?_
        by_cases ha : a = k
        · subst ha; rw [head_none h1, head_none h1']
        · have := e a; simpa [Memory.read?, ha] using this
      rw [this]

theorem mem_addAddress {l : List Nat} {a x : Nat} : x ∈ addAddress l a ↔ x = a ∨ x ∈ l := by
  induction l with
  | nil => simp [addAddress]
  | cons k l ih =>
    simp only [addAddress]
    split
    · simp
    · split
      · subst_vars; simp
      · simp only [List.mem_cons, ih]; tauto

theorem pairwise_addAddress {l : List Nat} (h : l.Pairwise (· < ·)) (a : Nat) :
    (addAddress l a).Pairwise (· < ·) := by
  induction l with
  | nil => simp [addAddress]
  | cons k l ih =>
    obtain ⟨h1, h2⟩ := List.pairwise_cons.1 h
    simp only [addAddress]
    split
    · rename_i hlt
      refine List.pairwise_cons.2 ⟨?_, h⟩
      intro c hc
      rcases List.mem_cons.1 hc with rfl | hc
      · exact hlt
      · exact Nat.lt_trans hlt (h1 c hc)
    · split
      · exact h
      · refine List.pairwise_cons.2 ⟨?_, ih h2⟩
        intro c hc
        rcases mem_addAddress.1 hc with rfl | hc
        · omega
        · exact h1 c hc

theorem addrSpace_pos (p : Config.Params) : 0 < p.addrSpace := Nat.two_pow_pos _

theorem State.wrap_lt (s : State) (a : Nat) : s.wrap a < s.cfg.addrSpace := Nat.mod_lt _ (addrSpace_pos _)

/-- A source read answers the defined byte and changes nothing, or draws (20 R61). -/
theorem srcRead_cases (a : Nat) (s : State) :
    (∃ b, s.srcByte? a = some b ∧ srcRead a s = (b, s)) ∨ (s.srcByte? a = none ∧ srcRead a s = drawByte s) := by
  unfold srcRead
  cases h : s.srcByte? a with
  | none => exact .inr ⟨rfl, rfl⟩
  | some b => exact .inl ⟨b, rfl, rfl⟩

/-- An output read answers the byte last written (20 R62). -/
theorem outRead_of_some {a : Nat} {s : State} {b : Byte} (h : s.outByte? a = some b) : outRead a s = b := by
  simp [outRead, h]

/-- An output read of an address never written answers what was there before (log 5). -/
theorem outRead_of_none {a : Nat} {s : State} (h : s.outByte? a = none) :
    outRead a s = Config.unwrittenByte (s.wrap a) := by
  simp [outRead, h]

/-- An output read depends on the output memory and the address width alone (20 R68). -/
theorem outRead_of_fields {s t : State} (a : Nat) (h1 : t.out = s.out) (h2 : t.cfg = s.cfg) : outRead a t = outRead a s := by
  simp [outRead, State.outByte?, State.wrap, h1, h2]

/-- A source read changes at most the draw counter. -/
theorem srcRead_frame (a : Nat) (s : State) : (srcRead a s).2 = { s with draws := (srcRead a s).2.draws } := by
  rcases srcRead_cases a s with ⟨b, -, h⟩ | ⟨-, h⟩
  · rw [h]
  · rw [h]; rfl

/-- What a state with the same memories, tainted addresses and parameters holds at an address is the same. -/
theorem sameMemory_of_fields {s t : State} (h1 : t.src = s.src) (h2 : t.out = s.out) (h3 : t.tainted = s.tainted)
    (h4 : t.cfg = s.cfg) : SameMemory s t := by
  intro a
  have hw : t.wrap a = s.wrap a := by simp [State.wrap, h4]
  have hm : t.srcMem = s.srcMem := by simp [State.srcMem, h1, h2, h4]
  refine ⟨by simp [State.outByte?, hw, h2], ?_⟩
  unfold State.srcByte?
  by_cases ha : s.wrap a ∈ s.tainted <;> simp [hw, hm, h3, ha]

theorem outByte?_outWrite_same (a : Nat) (b : Byte) (s : State) : (outWrite a b s).outByte? a = some b := by
  simp [State.outByte?, State.wrap]

theorem outByte?_outWrite_other {a a' : Nat} (b : Byte) (s : State) (h : s.wrap a' ≠ s.wrap a) :
    (outWrite a b s).outByte? a' = s.outByte? a' := by
  simpa [State.outByte?, State.wrap] using Memory.read?_write_other s.out b h

end Sys2Proof.Machine
end

