-- ==== Sys2Proof/Laws/Window.lean ====
section
/-! SUPPORT. The bit window: everything Refill, Take and a bit-reading step can do (40_bit_window.md R110 to R120). -/

namespace Sys2Proof.Machine

/-- Changing at most the draw counter twice is changing at most the draw counter. -/
theorem draws_trans {s t u : State} (h1 : t = { s with draws := t.draws }) (h2 : u = { t with draws := u.draws }) :
    u = { s with draws := u.draws } := by
  rw [h2, h1]

/-- A fetch changes at most the draw counter before the merge (20 R61, R67). -/
theorem fetchedWord_frame (s : State) : (fetchedWord s).2 = { s with draws := (fetchedWord s).2.draws } :=
  draws_trans (draws_trans (draws_trans (srcRead_frame _ s) (srcRead_frame _ _)) (srcRead_frame _ _)) (srcRead_frame _ _)

/-- Where Refill does not fetch (40 R110). -/
def State.fetchIdle (s : State) : Prop :=
  (Config.refillThreshold : Int) < s.avail.toInt ∨ s.fetchCount = 0

/-- Everything Refill can do (40 R110): nothing, the model fault, or one fetch with `0 ≤ AVAIL ≤ 32`. -/
theorem refill_cases (s : State) :
    (s.fetchIdle ∧ refill s = .ok s) ∨
    (¬ s.fetchIdle ∧ s.avail.toInt < 0 ∧ refill s = .error .refillWithDeficit) ∨
    (¬ s.fetchIdle ∧ 0 ≤ s.avail.toInt ∧ s.avail.toInt ≤ 32 ∧
      refill s = .ok (mergeWord (fetchedWord s).1 s.fetchCount (fetchedWord s).2)) := by
  unfold refill State.fetchIdle
  split
  · exact .inl ⟨.inl ‹_›, rfl⟩
  · split
    · exact .inl ⟨.inr ‹_›, rfl⟩
    · split
      · exact .inr (.inl ⟨by tauto, ‹_›, rfl⟩)
      · refine .inr (.inr ⟨by tauto, by omega, ?_, rfl⟩)
        rename_i h _ _
        simpa using h

theorem fetchCount_eq_zero_iff (s : State) : s.fetchCount = 0 ↔ s.plimit ≤ s.cursor := by
  simp only [State.fetchCount, BitVec.le_def, Config.fetchBytes]
  omega

/-- Refill touches only the window and the draw counter; OVR it leaves alone (40 R110: flags written, none). -/
theorem refill_frame {s t : State} (h : refill s = .ok t) :
    t = { s with acc := t.acc, avail := t.avail, cursor := t.cursor, draws := t.draws } := by
  rcases refill_cases s with ⟨-, e⟩ | ⟨-, -, e⟩ | ⟨-, -, -, e⟩
  · rw [e] at h; cases h; rfl
  · rw [e] at h; cases h
  · rw [e] at h; cases h
    rw [mergeWord, fetchedWord_frame]

/-- Refill succeeds from every window of a run (40 R113). -/
theorem refill_ok {s : State} (h : s.Refillable) : ∃ t, refill s = .ok t := by
  rcases refill_cases s with ⟨-, e⟩ | ⟨hi, hneg, e⟩ | ⟨-, -, -, e⟩
  · exact ⟨_, e⟩
  · exfalso
    have hc : ¬ s.plimit ≤ s.cursor := fun hle => hi (.inr ((fetchCount_eq_zero_iff s).2 hle))
    have := h (by simpa [BitVec.le_def, BitVec.lt_def] using hc)
    omega
  · exact ⟨_, e⟩

/-- Everything a bit-reading step can do: the model fault of Refill, or the rest of the step after Refill and Take. -/
theorem readThen_cases (k : Nat) (s : State) (rest : State → State) :
    (∃ f, refill s = .error f ∧ readThen k s rest = .fault f) ∨
    (∃ u, refill s = .ok u ∧ readThen k s rest = .next (rest (take k u))) := by
  unfold readThen
  cases h : refill s with
  | error f => exact .inl ⟨f, rfl, rfl⟩
  | ok u => exact .inr ⟨u, rfl, rfl⟩

theorem readThen_next {k : Nat} {s t : State} {rest : State → State} (h : readThen k s rest = .next t) :
    ∃ u, refill s = .ok u ∧ t = rest (take k u) := by
  rcases readThen_cases k s rest with ⟨f, -, e⟩ | ⟨u, hu, e⟩
  · rw [e] at h; cases h
  · rw [e] at h; cases h; exact ⟨u, hu, rfl⟩

theorem readThen_ok {s : State} (h : s.Refillable) (k : Nat) (rest : State → State) :
    ∃ u, refill s = .ok u ∧ readThen k s rest = .next (rest (take k u)) := by
  obtain ⟨u, hu⟩ := refill_ok h
  exact ⟨u, hu, by simp [readThen, hu]⟩

/-- After Refill and Take only the window has moved. -/
theorem take_refill_frame {s u : State} (k : Nat) (h : refill s = .ok u) : SameButWindow s (take k u) := by
  have := refill_frame h
  unfold SameButWindow
  rw [this]
  rfl

theorem toInt_ofNat_small {n : Nat} (h : n < 2 ^ 63) : (BitVec.ofNat 64 n).toInt = n := by
  have : (BitVec.ofNat 64 n).toNat = n := by
    rw [BitVec.toNat_ofNat]
    exact Nat.mod_eq_of_lt (by omega)
  rw [BitVec.toInt_eq_toNat_cond, this]
  split <;> omega

/-- Reading bits changes what `withWindow` says, and nothing else. -/
theorem withWindow_of_tookBits {k : Nat} {s w : State} (h : TookBits k s w) : s.withWindow w = w := by
  obtain ⟨u, hu, rfl⟩ := h
  exact (take_refill_frame k hu).symm

/-- A bit-reading step from a window that can be refilled: the rest of the step, on the window moved by `k` bits. -/
theorem readThen_tookBits {s : State} (h : s.Refillable) (k : Nat) :
    ∃ w, TookBits k s w ∧ s.withWindow w = w ∧ ∀ rest, readThen k s rest = .next (rest w) := by
  obtain ⟨u, hu⟩ := refill_ok h
  have hw : TookBits k s (take k u) := ⟨u, hu, rfl⟩
  exact ⟨take k u, hw, withWindow_of_tookBits hw, fun rest => by simp [readThen, hu]⟩

/-- Take subtracts k from AVAIL, when that does not wrap (40 R114). -/
theorem toInt_sub_of_noWrap {x : Dword} {k : Nat} (hk : k ≤ 32) (h : -(2 ^ 63) + 32 ≤ x.toInt) :
    (x - BitVec.ofNat 64 k).toInt = x.toInt - k := by
  have hx := BitVec.toInt_lt (x := x)
  have h2 := toInt_ofNat_small (n := k) (by omega)
  rw [BitVec.toInt_sub, h2, Int.bmod_eq_of_le] <;> omega

/-- A window that holds 0 to 32 bits has the same AVAIL as a natural number. -/
theorem toNat_of_toInt {x : Dword} (h : 0 ≤ x.toInt) : (x.toNat : Int) = x.toInt := by
  rw [BitVec.toInt_eq_toNat_cond] at h ⊢
  split at h <;> split <;> omega

theorem toInt_add_small {x : Dword} {n : Nat} (h0 : 0 ≤ x.toInt) (h32 : x.toInt ≤ 32) (hn : n ≤ 32) :
    (x + BitVec.ofNat 64 n).toInt = x.toInt + n := by
  have h2 := toInt_ofNat_small (n := n) (by omega)
  rw [BitVec.toInt_add, h2, Int.bmod_eq_of_le] <;> omega

/-- Merging a word above the valid bits, as arithmetic (40 R110). -/
theorem merge_toNat (acc : Dword) (w : Word) {a : Nat} (ha : a ≤ 32) :
    ((w.setWidth 64 <<< a) ||| (acc &&& BitVec.ofNat 64 (2 ^ a - 1))).toNat = w.toNat * 2 ^ a + acc.toNat % 2 ^ a := by
  have hp : 2 ^ a ≤ 2 ^ 32 := Nat.pow_le_pow_right (by omega) ha
  have hw := w.isLt
  have hprod : w.toNat * 2 ^ a < 2 ^ 64 := by
    calc w.toNat * 2 ^ a ≤ w.toNat * 2 ^ 32 := Nat.mul_le_mul_left _ hp
      _ < 2 ^ 64 := by omega
  have h1 : (w.setWidth 64 <<< a).toNat = w.toNat * 2 ^ a := by
    rw [BitVec.toNat_shiftLeft, BitVec.toNat_setWidth, Nat.shiftLeft_eq,
      Nat.mod_eq_of_lt (by omega : w.toNat < 2 ^ 64), Nat.mod_eq_of_lt hprod]
  have h2 : (acc &&& BitVec.ofNat 64 (2 ^ a - 1)).toNat = acc.toNat % 2 ^ a := by
    rw [BitVec.toNat_and, BitVec.toNat_ofNat, Nat.mod_eq_of_lt (by omega), Nat.and_two_pow_sub_one_eq_mod]
  rw [BitVec.toNat_or, h1, h2, Nat.mul_comm]
  exact (Nat.two_pow_add_eq_or_of_lt (Nat.mod_lt _ (Nat.two_pow_pos a)) _).symm

/-- A fetch counts at most four bytes (40 R110). -/
theorem fetchCount_le_four (s : State) : s.fetchCount ≤ 4 := Nat.min_le_left _ _

/-- A fetch counts at most the bytes left (40 R110, R112). -/
theorem fetchCount_le_left (s : State) : s.fetchCount ≤ s.plimit.toNat - s.cursor.toNat := Nat.min_le_right _ _

/-- Refill as arithmetic, from 0 ≤ AVAIL. -/
theorem refill_arith {s u : State} (h : refill s = .ok u) :
    u = s ∧ s.fetchIdle ∨
    (¬ s.fetchIdle ∧ 0 ≤ s.avail.toInt ∧ s.avail.toInt ≤ 32 ∧
      u.avail.toInt = s.avail.toInt + 8 * s.fetchCount ∧ u.cursor.toNat = s.cursor.toNat + s.fetchCount ∧
      u.acc.toNat < 2 ^ (s.avail.toNat + 32)) := by
  rcases refill_cases s with ⟨hi, e⟩ | ⟨-, -, e⟩ | ⟨hi, h0, h32, e⟩
  · rw [e] at h; cases h; exact .inl ⟨rfl, hi⟩
  · rw [e] at h; cases h
  · rw [e] at h; cases h
    have hfr := fetchedWord_frame s
    have hn := fetchCount_le_four s
    have hn' := fetchCount_le_left s
    have ha : (fetchedWord s).2.avail = s.avail := by rw [hfr]
    have hc : (fetchedWord s).2.cursor = s.cursor := by rw [hfr]
    have hacc : (fetchedWord s).2.acc = s.acc := by rw [hfr]
    refine .inr ⟨hi, h0, h32, ?_, ?_, ?_⟩
    · show ((fetchedWord s).2.avail + BitVec.ofNat 64 (8 * s.fetchCount)).toInt = _
      rw [ha, toInt_add_small h0 h32 (by omega)]; push_cast; rfl
    · show ((fetchedWord s).2.cursor + BitVec.ofNat 32 s.fetchCount).toNat = _
      rw [hc, BitVec.toNat_add, BitVec.toNat_ofNat]
      have := s.plimit.isLt
      omega
    · show (((fetchedWord s).1.setWidth 64 <<< (fetchedWord s).2.avail.toNat) ||| ((fetchedWord s).2.acc &&& BitVec.ofNat 64 (2 ^ (fetchedWord s).2.avail.toNat - 1))).toNat < _
      rw [ha, hacc]
      have hnat := toNat_of_toInt h0
      rw [merge_toNat _ _ (by omega)]
      have hw := (fetchedWord s).1.isLt
      have hm := Nat.mod_lt s.acc.toNat (Nat.two_pow_pos s.avail.toNat)
      rw [Nat.pow_add]
      calc (fetchedWord s).1.toNat * 2 ^ s.avail.toNat + s.acc.toNat % 2 ^ s.avail.toNat
          < (fetchedWord s).1.toNat * 2 ^ s.avail.toNat + 2 ^ s.avail.toNat := by omega
        _ = ((fetchedWord s).1.toNat + 1) * 2 ^ s.avail.toNat := by ring
        _ ≤ 2 ^ 32 * 2 ^ s.avail.toNat := Nat.mul_le_mul_right _ (by omega)
        _ = _ := by ring

/-- Refill keeps AVAIL away from the least i64. -/
theorem refill_noWrap {s u : State} (h : refill s = .ok u) (hn : s.NoWrap) : u.NoWrap := by
  rcases refill_arith h with ⟨rfl, -⟩ | ⟨-, h0, h32, ha, -⟩
  · exact hn
  · unfold State.NoWrap; omega

/-- Refill consumes nothing (40 R117). -/
theorem refill_bitpos {s u : State} (h : refill s = .ok u) : u.bitpos = s.bitpos := by
  rcases refill_arith h with ⟨rfl, -⟩ | ⟨-, h0, h32, ha, hc, -⟩
  · rfl
  · unfold State.bitpos; rw [ha, hc]; push_cast; ring

/-- Take(k) consumes k bits. -/
theorem take_bitpos {u : State} {k : Nat} (hk : k ≤ 32) (h : u.NoWrap) : (take k u).bitpos = u.bitpos + k := by
  unfold State.bitpos
  show 8 * (u.cursor.toNat : Int) - (u.avail - BitVec.ofNat 64 k).toInt = _
  rw [toInt_sub_of_noWrap hk h]; ring

/-- Read(k) consumes k bits. -/
theorem tookBits_bitpos {s w : State} {k : Nat} (hk : k ≤ 32) (h : s.NoWrap) (ht : TookBits k s w) : w.bitpos = s.bitpos + k := by
  obtain ⟨u, hu, rfl⟩ := ht
  rw [take_bitpos hk (refill_noWrap hu h), refill_bitpos hu]

/-- What WindowOk says of a BUSY state. -/
def WinOk (s : State) : Prop := s.avail.toInt ≤ 64 ∧ s.cursor ≤ s.plimit ∧ 0 ≤ s.bitpos ∧
      (s.cursor < s.plimit → 0 ≤ s.avail.toInt ∧ s.acc.toNat < 2 ^ s.avail.toNat) ∧
      (s.avail.toInt < 0 → s.ovr = true)

/-- From such a window Refill does not fault. -/
theorem refillable_of_winOk {s : State} (h : WinOk s) : s.Refillable := fun hc => (h.2.2.2.1 hc).1

/-- Read(k) keeps the bit window invariant (40 R113, R117). -/
theorem tookBits_winOk {s w : State} {k : Nat} (hk : k ≤ 32) (hw : WinOk s) (h : s.NoWrap) (ht : TookBits k s w) : WinOk w := by
  have hbp := tookBits_bitpos hk h ht
  obtain ⟨u, hu, rfl⟩ := ht
  have hnw := refill_noWrap hu h
  have hav : (take k u).avail.toInt = u.avail.toInt - k := toInt_sub_of_noWrap hk hnw
  have hpl : u.plimit = s.plimit := by rw [refill_frame hu]
  have hacc : (take k u).acc.toNat = u.acc.toNat / 2 ^ k := by
    show (u.acc >>> k).toNat = _
    rw [BitVec.toNat_ushiftRight, Nat.shiftRight_eq_div_pow]
  obtain ⟨h1, h2, h3, h4, -⟩ := hw
  have small : ∀ a : Nat, k ≤ a → u.avail.toInt = a → u.acc.toNat < 2 ^ a → (take k u).acc.toNat < 2 ^ (take k u).avail.toNat := by
    intro a hka hua hlt
    have hge : 0 ≤ (take k u).avail.toInt := by omega
    have := toNat_of_toInt hge
    have e : (take k u).avail.toNat = a - k := by omega
    rw [hacc, e, Nat.div_lt_iff_lt_mul (Nat.two_pow_pos k), ← Nat.pow_add, Nat.sub_add_cancel hka]
    exact hlt
  have hov : (take k u).avail.toInt < 0 → (take k u).ovr = true := fun hn => by
    rw [take_ovr]; exact Bool.or_eq_true_iff.2 (.inr (decide_eq_true hn))
  rcases refill_arith hu with ⟨rfl, hidle⟩ | ⟨hni, h0, h32, ha, hc, hlt⟩
  · refine ⟨by omega, h2, by omega, fun hcp => ?_, hov⟩
    have hcp' : u.cursor < u.plimit := hcp
    rcases hidle with h' | h'
    · simp only [Config.refillThreshold] at h'
      have hn := toNat_of_toInt (x := u.avail) (by omega)
      exact ⟨by omega, small u.avail.toNat (by omega) (by omega) (h4 hcp').2⟩
    · rw [fetchCount_eq_zero_iff] at h'; bv_omega
  · have hn := fetchCount_le_four s
    have hn' := fetchCount_le_left s
    have hnat := toNat_of_toInt h0
    refine ⟨by omega, ?_, by omega, fun hcp => ?_, hov⟩
    · show u.cursor ≤ u.plimit
      rw [hpl, BitVec.le_def, hc]
      have : s.cursor.toNat ≤ s.plimit.toNat := h2
      omega
    · have hcp' : u.cursor.toNat < s.plimit.toNat := by rw [← hpl]; exact hcp
      have h4' : s.fetchCount = 4 := by
        simp only [State.fetchCount, Config.fetchBytes] at hc ⊢; omega
      exact ⟨by omega, small (s.avail.toNat + 32) (by omega) (by omega) hlt⟩

/-- The window invariant is about ACC, AVAIL, CURSOR, PLIMIT and OVR only. -/
theorem winOk_fields {s t : State} (h : WinOk s) (h1 : t.acc = s.acc) (h2 : t.avail = s.avail) (h3 : t.cursor = s.cursor) (h4 : t.plimit = s.plimit)
    (h5 : t.ovr = s.ovr) : WinOk t := by
  unfold WinOk State.bitpos at *; rw [h1, h2, h3, h4, h5]; exact h

/-- An empty window at payload byte 0 meets the window invariant. -/
theorem winOk_zero {t : State} (h1 : t.acc = 0) (h2 : t.avail = 0) (h3 : t.cursor = 0) : WinOk t := by
  simp [WinOk, State.bitpos, h1, h2, h3, BitVec.le_def]

/-- What a source address holds depends on the memories, the tainted addresses and the parameters only. -/
theorem srcByte?_congr {s t : State} (h1 : t.src = s.src) (h2 : t.out = s.out) (h3 : t.tainted = s.tainted) (h4 : t.cfg = s.cfg) (a : Nat) :
    t.srcByte? a = s.srcByte? a := (sameMemory_of_fields h1 h2 h3 h4 a).2

/-- What a payload bit is depends on the source bytes, PBASE and ENDIAN_L only. -/
theorem payloadBit?_congr {s t : State} (hs : ∀ a, t.srcByte? a = s.srcByte? a) (hp : t.pbase = s.pbase) (he : t.endianL = s.endianL) (n : Nat) :
    t.payloadBit? n = s.payloadBit? n := by
  unfold State.payloadBit?; rw [hs, hp, he]

/-- A read of a defined byte answers it and changes nothing (20 R61). -/
theorem srcRead_some {s : State} {a : Nat} {b : Byte} (h : s.srcByte? a = some b) : srcRead a s = (b, s) := by
  rcases srcRead_cases a s with ⟨b', h', e⟩ | ⟨h', -⟩
  · rw [h] at h'; cases h'; exact e
  · rw [h] at h'; cases h'

/-- A source read changes no source byte. -/
theorem srcByte?_srcRead (a a' : Nat) (s : State) : (srcRead a s).2.srcByte? a' = s.srcByte? a' := by
  rw [srcRead_frame]; exact srcByte?_congr rfl rfl rfl rfl a'

/-- One source read: the defined byte, or a draw that is counted (20 R61). -/
theorem srcRead_spec (a : Nat) (s : State) :
    (∀ b, s.srcByte? a = some b → (srcRead a s).1 = b) ∧
      (srcRead a s).2 = { s with draws := s.draws + if s.srcByte? a = none then 1 else 0 } := by
  rcases srcRead_cases a s with ⟨b, h, e⟩ | ⟨h, e⟩ <;> rw [e, h]
  · exact ⟨fun _ h => Option.some.inj h, rfl⟩
  · exact ⟨fun _ h => (nomatch h), rfl⟩

/-- One fetch: four bytes, each the defined one or a counted draw, as one word of the run's byte order (20 R67, 40 R111). -/
theorem fetchedWord_spec (s : State) :
    ∃ b0 b1 b2 b3 : Byte, fetchedWord s = (word32 b0 b1 b2 b3 s.endianL,
        { s with draws := s.draws + (List.range 4).countP fun i => s.srcByte? (s.pbase.toNat + s.cursor.toNat + i) = none }) ∧
      (∀ b, s.srcByte? (s.pbase.toNat + s.cursor.toNat) = some b → b0 = b) ∧
      (∀ b, s.srcByte? (s.pbase.toNat + s.cursor.toNat + 1) = some b → b1 = b) ∧
      (∀ b, s.srcByte? (s.pbase.toNat + s.cursor.toNat + 2) = some b → b2 = b) ∧
      (∀ b, s.srcByte? (s.pbase.toNat + s.cursor.toNat + 3) = some b → b3 = b) := by
  generalize hb : s.pbase.toNat + s.cursor.toNat = base
  have hd : ∀ d a, ({ s with draws := d } : State).srcByte? a = s.srcByte? a := fun _ _ => rfl
  obtain ⟨p0, q0⟩ := srcRead_spec base s
  obtain ⟨p1, q1⟩ := srcRead_spec (base + 1) (srcRead base s).2
  obtain ⟨p2, q2⟩ := srcRead_spec (base + 2) (srcRead (base + 1) (srcRead base s).2).2
  obtain ⟨p3, q3⟩ := srcRead_spec (base + 3) (srcRead (base + 2) (srcRead (base + 1) (srcRead base s).2).2).2
  refine ⟨_, _, _, _, ?_, p0, fun b h => p1 b ?_, fun b h => p2 b ?_, fun b h => p3 b ?_⟩
  · unfold fetchedWord
    simp only [hb]
    refine Prod.ext rfl ?_
    show (srcRead (base + 3) (srcRead (base + 2) (srcRead (base + 1) (srcRead base s).2).2).2).2 = _
    rw [q3, q2, q1, q0]
    simp only [hd, List.range_succ, List.range_zero, List.nil_append, List.cons_append, List.countP_cons, List.countP_nil,
      decide_eq_true_eq, Nat.add_zero, Nat.zero_add]
    congr 1; omega
  · rwa [srcByte?_srcRead]
  · rwa [srcByte?_srcRead, srcByte?_srcRead]
  · rwa [srcByte?_srcRead, srcByte?_srcRead, srcByte?_srcRead]

/-- The bits of a fetched word are the bits of its defined bytes. -/
theorem fetchedWord_bit {s : State} {m : Nat} (hm : m < 32) {b : Byte}
    (h : s.srcByte? (s.pbase.toNat + s.cursor.toNat + (if s.endianL then 3 - m / 8 else m / 8)) = some b) :
    (fetchedWord s).1.getLsbD m = b.getLsbD (m % 8) := by
  unfold fetchedWord
  simp only
  generalize s.pbase.toNat + s.cursor.toNat = base at *
  set r0 := srcRead base s with hr0
  set r1 := srcRead (base + 1) r0.2 with hr1
  set r2 := srcRead (base + 2) r1.2 with hr2
  set r3 := srcRead (base + 3) r2.2 with hr3
  have e0 : ∀ b, s.srcByte? base = some b → r0.1 = b := fun b hb => by rw [hr0, srcRead_some hb]
  have e1 : ∀ b, s.srcByte? (base + 1) = some b → r1.1 = b := fun b hb => by
    rw [hr1, srcRead_some (by rw [hr0, srcByte?_srcRead]; exact hb)]
  have e2 : ∀ b, s.srcByte? (base + 2) = some b → r2.1 = b := fun b hb => by
    rw [hr2, srcRead_some (by rw [hr1, srcByte?_srcRead, hr0, srcByte?_srcRead]; exact hb)]
  have e3 : ∀ b, s.srcByte? (base + 3) = some b → r3.1 = b := fun b hb => by
    rw [hr3, srcRead_some (by rw [hr2, srcByte?_srcRead, hr1, srcByte?_srcRead, hr0, srcByte?_srcRead]; exact hb)]
  have cat : ∀ (x3 x2 x1 x0 : Byte), (x3 ++ x2 ++ x1 ++ x0 : Word).getLsbD m =
      (if m / 8 = 0 then x0 else if m / 8 = 1 then x1 else if m / 8 = 2 then x2 else x3).getLsbD (m % 8) := by
    intro x3 x2 x1 x0
    have : m / 8 = 0 ∨ m / 8 = 1 ∨ m / 8 = 2 ∨ m / 8 = 3 := by omega
    simp only [BitVec.getLsbD_append]
    rcases this with h | h | h | h
    · rw [if_pos (by omega), if_pos h, show m % 8 = m by omega]
    · rw [if_neg (by omega), if_pos (by omega), if_neg (by omega), if_pos h, show m % 8 = m - 8 by omega]
    · rw [if_neg (by omega), if_neg (by omega), if_pos (by omega), if_neg (by omega), if_neg (by omega), if_pos h, show m % 8 = m - 8 - 8 by omega]
    · rw [if_neg (by omega), if_neg (by omega), if_neg (by omega), if_neg (by omega), if_neg (by omega), if_neg (by omega), show m % 8 = m - 8 - 8 - 8 by omega]
  clear_value r0 r1 r2 r3
  have : m / 8 = 0 ∨ m / 8 = 1 ∨ m / 8 = 2 ∨ m / 8 = 3 := by omega
  unfold word32
  by_cases hb : s.endianL = true
  · rw [if_pos hb] at h ⊢
    rw [cat]
    rcases this with h' | h' | h' | h' <;> simp only [h', Nat.sub_zero, Nat.reduceSub, Nat.add_zero, Nat.sub_self] at h ⊢
    · rw [if_pos trivial, e3 b h]
    · rw [if_neg (by omega), if_pos trivial, e2 b h]
    · rw [if_neg (by omega), if_neg (by omega), if_pos trivial, e1 b h]
    · rw [if_neg (by omega), if_neg (by omega), if_neg (by omega), e0 b h]
  · rw [if_neg hb] at h ⊢
    rw [cat]
    rcases this with h' | h' | h' | h' <;> simp only [h', Nat.add_zero] at h ⊢
    · rw [if_pos trivial, e0 b h]
    · rw [if_neg (by omega), if_pos trivial, e1 b h]
    · rw [if_neg (by omega), if_neg (by omega), if_pos trivial, e2 b h]
    · rw [if_neg (by omega), if_neg (by omega), if_neg (by omega), e3 b h]

/-- The bits of a merged window: below AVAIL the old ones, from there on the word (40 R110). -/
theorem merge_bit (acc : Dword) (w : Word) {a i : Nat} (ha : a ≤ 32) (hi : i < 64) :
    ((w.setWidth 64 <<< a) ||| (acc &&& BitVec.ofNat 64 (2 ^ a - 1))).getLsbD i = if i < a then acc.getLsbD i else w.getLsbD (i - a) := by
  have h2 : (BitVec.ofNat 64 (2 ^ a - 1)).getLsbD i = decide (i < a) := by
    rw [BitVec.getLsbD_ofNat, Nat.testBit_two_pow_sub_one]
    simp [hi]
  rw [BitVec.getLsbD_or, BitVec.getLsbD_and, h2, BitVec.getLsbD_shiftLeft, BitVec.getLsbD_setWidth]
  by_cases h : i < a
  · simp [h]
  · have : i - a < 64 := by omega
    simp [h, hi, this]

/-- What HoldsPayload says of a BUSY state. -/
def PayloadHeld (s : State) : Prop := (s.cursor < s.plimit → s.cursor.toNat % 4 = 0) ∧
      ∀ i : Nat, (i : Int) < s.avail.toInt → ∀ b, s.payloadBit? (s.bitpos + i).toNat = some b → s.acc.getLsbD i = b

/-- Refill fills the window with the next payload bits. -/
theorem refill_payloadHeld {s u : State} (h : refill s = .ok u) (hw : WinOk s) (hp : PayloadHeld s) : PayloadHeld u := by
  have hfr := refill_frame h
  have hpay : ∀ n, u.payloadBit? n = s.payloadBit? n := payloadBit?_congr (srcByte?_congr (by rw [hfr]) (by rw [hfr]) (by rw [hfr]) (by rw [hfr])) (by rw [hfr]) (by rw [hfr])
  have hbp := refill_bitpos h
  rcases refill_arith h with ⟨rfl, -⟩ | ⟨hni, h0, h32, ha, hc, -⟩
  · exact hp
  have hcp : s.cursor < s.plimit := by
    by_contra hcon
    exact hni (.inr ((fetchCount_eq_zero_iff s).2 (BitVec.not_lt.1 hcon)))
  have h4 := hp.1 hcp
  have hn := fetchCount_le_four s
  have hn' := fetchCount_le_left s
  have hnat := toNat_of_toInt h0
  rcases refill_cases s with ⟨hi, e⟩ | ⟨-, -, e⟩ | ⟨-, -, -, e⟩
  · exact absurd hi hni
  · rw [e] at h; cases h
  rw [e] at h; cases h
  have hacc : (mergeWord (fetchedWord s).1 s.fetchCount (fetchedWord s).2).acc = ((fetchedWord s).1.setWidth 64 <<< s.avail.toNat) ||| (s.acc &&& BitVec.ofNat 64 (2 ^ s.avail.toNat - 1)) := by
    unfold mergeWord; rw [fetchedWord_frame]
  generalize hu : mergeWord (fetchedWord s).1 s.fetchCount (fetchedWord s).2 = u at *
  have hpl : u.plimit = s.plimit := by rw [hfr]
  refine ⟨fun hcu => ?_, fun i hi b hb => ?_⟩
  · rw [hpl] at hcu
    have : u.cursor.toNat < s.plimit.toNat := hcu
    have h4' : s.fetchCount = 4 := by simp only [State.fetchCount, Config.fetchBytes] at hc ⊢; omega
    omega
  · rw [hpay, hbp] at hb
    rw [hacc, merge_bit _ _ (by omega) (by omega)]
    split
    · exact hp.2 i (by omega) b hb
    · have hm : i - s.avail.toNat < 32 := by omega
      generalize hmm : i - s.avail.toNat = m at *
      have e1 : (s.bitpos + i).toNat = 8 * s.cursor.toNat + m := by unfold State.bitpos; omega
      rw [e1] at hb
      unfold State.payloadBit? at hb
      have d1 : (8 * s.cursor.toNat + m) / 32 * 4 = s.cursor.toNat := by omega
      have d2 : (8 * s.cursor.toNat + m) % 32 = m := by omega
      have d3 : (8 * s.cursor.toNat + m) % 8 = m % 8 := by omega
      rw [Nat.mul_comm 4, d1, d2, d3] at hb
      cases hx : s.srcByte? (s.pbase.toNat + s.cursor.toNat + (if s.endianL then 3 - m / 8 else m / 8)) with
      | none => rw [hx] at hb; cases hb
      | some x =>
        rw [hx] at hb
        simp only [Option.map_some, Option.some.injEq] at hb
        rw [fetchedWord_bit hm hx, hb]

/-- Take leaves the rest of the payload in the window. -/
theorem take_payloadHeld {u : State} {k : Nat} (hk : k ≤ 32) (hn : u.NoWrap) (hp : PayloadHeld u) : PayloadHeld (take k u) := by
  have hav : (take k u).avail.toInt = u.avail.toInt - k := toInt_sub_of_noWrap hk hn
  have hbp := take_bitpos hk hn
  refine ⟨hp.1, fun i hi b hb => ?_⟩
  have hpay : (take k u).payloadBit? ((take k u).bitpos + i).toNat = u.payloadBit? (u.bitpos + (k + i : Nat)).toNat := by
    rw [show (take k u).bitpos + (i : Int) = u.bitpos + (k + i : Nat) by rw [hbp]; push_cast; ring]
    exact payloadBit?_congr (srcByte?_congr rfl rfl rfl rfl) rfl rfl _
  rw [hpay] at hb
  have := hp.2 (k + i) (by push_cast; omega) b hb
  show (u.acc >>> k).getLsbD i = b
  rw [BitVec.getLsbD_ushiftRight]; exact this

/-- The payload bits the window can hold lie in the payload window. -/
theorem payload_addr {t : State} (hw : WinOk t) {i : Nat} (hi : (i : Int) < t.avail.toInt) {c : Nat} (hc : c ≤ 3) :
    4 * ((t.bitpos + i).toNat / 32) + c < t.plimit.toNat + 4 := by
  obtain ⟨-, h2, h3, -⟩ := hw
  have : t.cursor.toNat ≤ t.plimit.toNat := h2
  unfold State.bitpos at *
  omega

/-- The window holds the payload when its registers are the same and no byte of the payload window is newly defined or changed. -/
theorem payloadHeld_of_fields {s t : State} (hw : WinOk s) (h1 : t.acc = s.acc) (h2 : t.avail = s.avail) (h3 : t.cursor = s.cursor) (h4 : t.plimit = s.plimit)
    (h5 : t.pbase = s.pbase) (h6 : t.endianL = s.endianL)
    (hb : ∀ j, j < s.plimit.toNat + 4 → ∀ b, t.srcByte? (s.pbase.toNat + j) = some b → s.srcByte? (s.pbase.toNat + j) = some b) (hp : PayloadHeld s) : PayloadHeld t := by
  have hbp : t.bitpos = s.bitpos := by unfold State.bitpos; rw [h2, h3]
  refine ⟨by rw [h3, h4]; exact hp.1, fun i hi b h => ?_⟩
  rw [h2] at hi
  rw [h1]
  refine hp.2 i hi b ?_
  rw [hbp] at h
  unfold State.payloadBit? at h ⊢
  rw [h5, h6] at h
  have hlt := payload_addr hw hi (c := if s.endianL then 3 - (s.bitpos + i).toNat % 32 / 8 else (s.bitpos + i).toNat % 32 / 8) (by split <;> omega)
  rw [Nat.add_assoc] at h ⊢
  cases hx : t.srcByte? (s.pbase.toNat + (4 * ((s.bitpos + i).toNat / 32) + (if s.endianL then 3 - (s.bitpos + i).toNat % 32 / 8 else (s.bitpos + i).toNat % 32 / 8))) with
  | none => rw [hx] at h; cases h
  | some x => rw [hx] at h; rw [hb _ hlt x hx]; exact h

/-- The bytes from PBASE on are in the payload window (20 R67, R74). -/
theorem inPayloadWindow_of_lt {s : State} {j : Nat} (hj : j < s.plimit.toNat + 4) : s.inPayloadWindow (s.wrap (s.pbase.toNat + j)) = true := by
  have hm := addrSpace_pos s.cfg
  refine decide_eq_true ?_
  show ((s.pbase.toNat + j) % s.cfg.addrSpace + (s.cfg.addrSpace - s.pbase.toNat % s.cfg.addrSpace)) % s.cfg.addrSpace < _
  generalize s.cfg.addrSpace = m at *
  generalize s.pbase.toNat = P
  refine Nat.lt_of_le_of_lt ?_ hj
  rw [Nat.mod_add_mod]
  have := Nat.mod_lt P hm
  have e : P + j + (m - P % m) = j + m * (P / m + 1) := by
    have := Nat.div_add_mod P m
    rw [Nat.mul_add, Nat.mul_one]; omega
  rw [e, Nat.add_mul_mod_self_left]
  exact Nat.mod_le _ _

end Sys2Proof.Machine
end

