-- ==== Sys2Proof/Laws/Output.lean ====
section
/-! SUPPORT. Appending and copying output bytes (44_copy_engine.md R220 to R224). -/

namespace Sys2Proof.Machine

/-- Everything Append can do (44 R220): truncate the run at `OCUR ≥ DSIZE`, or write the byte and go on. -/
theorem appendThen_cases (b : Byte) (s : State) (rest : State → State) :
    (s.dsize ≤ s.ocur ∧ appendThen b s rest = truncateRun s) ∨
    (s.ocur < s.dsize ∧ appendThen b s rest = rest (appendByte b s)) := by
  unfold appendThen
  by_cases h : s.dsize ≤ s.ocur
  · exact .inl ⟨h, if_pos h⟩
  · exact .inr ⟨BitVec.not_le.1 h, if_neg h⟩

/-- The byte Append writes reads back (20 R62). -/
theorem outByte?_appendByte_same (b : Byte) (s : State) : (appendByte b s).outByte? s.outAddr = some b := by
  simp [State.outByte?, State.wrap]

/-- Append writes no other address (44 R227). -/
theorem outByte?_appendByte_other {a : Nat} (b : Byte) (s : State) (h : s.wrap a ≠ s.wrap s.outAddr) :
    (appendByte b s).outByte? a = s.outByte? a := by
  simpa [State.outByte?, State.wrap] using Memory.read?_write_other s.out b h

/-- Append stores its byte at `OBASE + OCUR` and nowhere else (44 R220, R227). -/
theorem storedByte_appendByte (b : Byte) (s : State) : StoredByte s (appendByte b s) s.outAddr b := by
  refine ⟨outByte?_appendByte_same b s, fun a' h => outByte?_appendByte_other b s h, ?_⟩
  intro a' h
  have hw : (appendByte b s).wrap a' = s.wrap a' := by simp [State.wrap]
  unfold State.srcByte?
  rw [hw]
  by_cases ht : s.wrap a' ∈ s.tainted
  · simp [ht]
  · simp only [appendByte_tainted, ht, if_false, State.srcMem, appendByte_cfg, appendByte_src, appendByte_out]
    by_cases hm : s.cfg.oneMemory = true
    · have h' : s.wrap a' ≠ s.wrap s.outAddr := by
        rcases h with h | h
        · exact h
        · rw [hm] at h; cases h
      simpa [hm] using Memory.read?_write_other s.out b h'
    · simp [hm]

/-- Everything the source of a COPY step can be (44 R222, R224). -/
theorem copySource_cases (s : State) :
    (s.dist.toNat ≤ s.ocur.toNat ∧ copySource s = outRead (s.obase.toNat + (s.ocur.toNat - s.dist.toNat)) s) ∨
    (s.ocur.toNat < s.dist.toNat ∧ copySource s = 0) := by
  unfold copySource
  split
  · exact .inl ⟨‹_›, rfl⟩
  · exact .inr ⟨by omega, rfl⟩

/-- A copy count is exact: base, extra and 3 never wrap (30 R85, 44 R225). -/
theorem copyCount_toNat (r : Config.ExtraRow) (x : Word) :
    (copyCount r x).toNat = r.base.toNat + x.toNat + 3 := by
  have := r.base.isLt
  have := x.isLt
  rw [copyCount, BitVec.toNat_ofNat, Nat.mod_eq_of_lt]
  simp only [Config.minCopy]
  omega

/-- A distance is exact: base, extra and 1 never wrap (30 R85, 44 R225). -/
theorem copyDistance_toNat (r : Config.ExtraRow) (y : Word) :
    (copyDistance r y).toNat = r.base.toNat + y.toNat + 1 := by
  have := r.base.isLt
  have := y.isLt
  rw [copyDistance, BitVec.toNat_ofNat, Nat.mod_eq_of_lt]
  simp only [Config.distBias]
  omega

/-- What holds of both endings of Append holds of it. -/
theorem appendThen_keeps (b : Byte) (s : State) (rest : State → State) {P : State → State → Prop}
  (h0 : P s (truncateRun s)) (h1 : s.ocur < s.dsize → P s (rest (appendByte b s))) : P s (appendThen b s rest) := by
  rcases appendThen_cases b s rest with ⟨-, e⟩ | ⟨h, e⟩ <;> rw [e]
  · exact h0
  · exact h1 h

/-- What holds of the rest of a bit-reading step, on the window moved, holds of the step. -/
theorem readThen_keeps {k : Nat} {s t : State} {rest : State → State} (e : readThen k s rest = .next t) {P : State → State → Prop}
   (hr : ∀ w, TookBits k s w → w = s.withWindow w → P s (rest w)) : P s t := by
  obtain ⟨u, hu, rfl⟩ := readThen_next e
  have hw : TookBits k s (take k u) := ⟨u, hu, rfl⟩
  exact hr _ hw (withWindow_of_tookBits hw).symm

/-- A stored byte is still stored in a state with the same memories. -/
theorem storedByte_of_fields {s t t' : State} {a : Nat} {b : Byte} (h : StoredByte s t a b) (h1 : t'.src = t.src) (h2 : t'.out = t.out)
   (h3 : t'.tainted = t.tainted) (h4 : t'.cfg = t.cfg) : StoredByte s t' a b := by
  have hm := sameMemory_of_fields h1 h2 h3 h4
  obtain ⟨p1, p2, p3⟩ := h
  exact ⟨(hm a).1.trans p1, fun a' h => (hm a').1.trans (p2 a' h), fun a' h => (hm a').2.trans (p3 a' h)⟩

/-- A stored byte is stored from a state with the same memories. -/
theorem storedByte_of_fields' {s s' t : State} {a : Nat} {b : Byte} (h : StoredByte s t a b) (h1 : s'.src = s.src) (h2 : s'.out = s.out)
   (h3 : s'.tainted = s.tainted) (h4 : s'.cfg = s.cfg) : StoredByte s' t a b := by
  have hm := sameMemory_of_fields h1 h2 h3 h4
  have hw : ∀ x, s'.wrap x = s.wrap x := fun x => by simp [State.wrap, h4]
  obtain ⟨p1, p2, p3⟩ := h
  refine ⟨p1, fun a' h => (p2 a' (by rwa [hw, hw] at h)).trans (hm a').1.symm, fun a' h => (p3 a' (by rwa [hw, hw, h4] at h)).trans (hm a').2.symm⟩

/-- Reading bits before a store changes nothing in what the store does. -/
theorem storedByte_window {s w t : State} {a : Nat} {b : Byte} (hw : s.withWindow w = w) (h : StoredByte w t a b) : StoredByte s t a b :=
  storedByte_of_fields' h (by rw [← hw]; rfl) (by rw [← hw]; rfl) (by rw [← hw]; rfl) (by rw [← hw]; rfl)

end Sys2Proof.Machine
end

