-- ==== Sys2Proof/Laws/Registers.lean ====
section
/-! SUPPORT. The register window and the host's commands (10_state.md R29 to R40, 45_host_commands.md R240 to R244). -/

namespace Sys2Proof.Machine

/-- An access reaches a register exactly when it is 32 bits wide at the register's offset (10 R29). -/
theorem regAt_eq_some_iff {off width : Nat} {r : Reg} : regAt off width = some r ↔ width = 32 ∧ off = regOffset r := by
  constructor
  · intro h
    unfold regAt at h
    split at h
    · cases h
    · rename_i hc
      have h2 := List.find?_some h
      simp only [decide_eq_true_eq] at h2
      exact ⟨by omega, h2.symm⟩
  · rintro ⟨rfl, rfl⟩
    cases r <;> rfl

@[simp] theorem regAt_regOffset (r : Reg) : regAt (regOffset r) 32 = some r := regAt_eq_some_iff.2 ⟨rfl, rfl⟩

/-- A misaligned access or one of another width reaches no register (10 R29). -/
theorem regAt_none_of_bad {off width : Nat} (h : off % 4 ≠ 0 ∨ width ≠ 32) : regAt off width = none := by
  simp [regAt, h]

/-- Offsets 0x34 and above reach no register (10 R29). -/
theorem regAt_none_of_high {off width : Nat} (h : 0x34 ≤ off) : regAt off width = none := by
  cases hr : regAt off width with
  | none => rfl
  | some r =>
    obtain ⟨-, rfl⟩ := regAt_eq_some_iff.1 hr
    cases r <;> simp [regOffset] at h

theorem maskAddr_lt (s : State) (v : Dword) : (maskAddr s v).toNat < s.cfg.addrSpace := by
  rw [maskAddr, BitVec.toNat_ofNat]
  exact Nat.lt_of_le_of_lt (Nat.mod_le _ _) (Nat.mod_lt _ (addrSpace_pos _))

/-- With 64-bit addresses the mask does nothing (10 R35). -/
theorem maskAddr_of_full {s : State} (h : s.cfg.addrW = 64) (v : Dword) : maskAddr s v = v := by
  apply BitVec.eq_of_toNat_eq
  have := v.isLt
  have hs : s.cfg.addrSpace = 2 ^ 64 := by simp [Config.Params.addrSpace, h]
  rw [maskAddr, BitVec.toNat_ofNat, hs, Nat.mod_mod, Nat.mod_eq_of_lt this]

/-- Everything the START command can do (45 R241 to R243, 20 R74(b)). -/
theorem startRun_cases (s : State) :
    (s.run = .busy ∧ startRun s = .next s) ∨
    (s.run ≠ .busy ∧ s.hdrflag.setWidth 4 ≠ (1 : BitVec 4) ∧
      startRun s = .next (raiseErr .unsupportedCompressionType (initRun s))) ∨
    (s.run ≠ .busy ∧ s.hdrflag.setWidth 4 = (1 : BitVec 4) ∧ (initRun s).regionsOverlap = true ∧
      startRun s = .refused .outputOverlapsSource) ∨
    (s.run ≠ .busy ∧ s.hdrflag.setWidth 4 = (1 : BitVec 4) ∧ (initRun s).regionsOverlap = false ∧
      startRun s = .next { initRun s with seq := .bt, run := .busy }) := by
  unfold startRun
  split
  · exact .inl ⟨‹_›, rfl⟩
  · split
    · exact .inr (.inl ⟨‹_›, ‹_›, rfl⟩)
    · rename_i h
      split
      · exact .inr (.inr (.inl ⟨‹_›, not_not.1 h, ‹_›, rfl⟩))
      · rename_i h2
        exact .inr (.inr (.inr ⟨‹_›, not_not.1 h, Bool.not_eq_true _ ▸ h2, rfl⟩))

/-- While BUSY a register write changes nothing (10 R40, 45 R240, R243). -/
theorem writeReg_busy {s : State} (h : s.run = .busy) (r : Reg) (x : Word) : writeReg r x s = .next s := by
  cases r <;> simp [writeReg, h, startRun]

/-- Everything a register write can do: START, or a next state that differs at most in the five host registers. -/
theorem writeReg_cases (r : Reg) (x : Word) (s : State) :
    (r = .ctrl ∧ x.getLsbD 0 = true ∧ writeReg r x s = startRun s) ∨
    (∃ t, writeReg r x s = .next t ∧ t = { s with hdrflag := t.hdrflag, csize := t.csize, dsize := t.dsize, pbase := t.pbase, obase := t.obase } ∧
      (s.run = .busy → t = s) ∧ (s.AddressRegsOk → t.AddressRegsOk)) := by
  by_cases hb : s.run = .busy
  · exact .inr ⟨s, writeReg_busy hb r x, rfl, fun _ => rfl, id⟩
  · cases r with
    | ctrl =>
      by_cases hx : x.getLsbD 0 = true
      · exact .inl ⟨rfl, hx, if_pos hx⟩
      · exact .inr ⟨s, if_neg hx, rfl, fun _ => rfl, id⟩
    | pbaseLo =>
      exact .inr ⟨_, rfl, by simp [hb], by simp [hb], by
        simp only [hb, if_false, State.AddressRegsOk]; exact fun h => ⟨maskAddr_lt _ _, h.2⟩⟩
    | pbaseHi =>
      exact .inr ⟨_, rfl, by simp [hb], by simp [hb], by
        simp only [hb, if_false, State.AddressRegsOk]; exact fun h => ⟨maskAddr_lt _ _, h.2⟩⟩
    | obaseLo =>
      exact .inr ⟨_, rfl, by simp [hb], by simp [hb], by
        simp only [hb, if_false, State.AddressRegsOk]; exact fun h => ⟨h.1, maskAddr_lt _ _⟩⟩
    | obaseHi =>
      exact .inr ⟨_, rfl, by simp [hb], by simp [hb], by
        simp only [hb, if_false, State.AddressRegsOk]; exact fun h => ⟨h.1, maskAddr_lt _ _⟩⟩
    | hdrflag | csize | dsize =>
      exact .inr ⟨_, rfl, by simp [hb], by simp [hb], by simp only [hb, if_false, State.AddressRegsOk]; exact id⟩
    | status | outLen | cursor | availLo | availHi =>
      exact .inr ⟨s, rfl, rfl, fun _ => rfl, id⟩

/-- The type nibble of HDRFLAG as arithmetic (10 R32). -/
theorem typeNibble_iff (x : BitVec 8) : (x.setWidth 4 = (1 : BitVec 4)) ↔ x.toNat % 16 = 1 := by
  constructor
  · intro h; have := congrArg BitVec.toNat h; simpa using this
  · intro h; apply BitVec.eq_of_toNat_eq; simpa using h

/-- The byte-order bit of HDRFLAG as arithmetic (10 R32). -/
theorem bigEndian_bit (x : BitVec 8) : x.getLsbD 7 = decide (128 ≤ x.toNat) := by
  have := x.isLt
  rw [BitVec.getLsbD, Nat.testBit_eq_decide_div_mod_eq]
  congr 1; simp only [eq_iff_iff]; omega

/-- Writing the low half of an address register, as arithmetic. -/
theorem setLow_toNat (v : Dword) (x : Word) : (setLow v x).toNat = v.toNat / 2 ^ 32 * 2 ^ 32 + x.toNat := by
  unfold setLow
  rw [BitVec.toNat_append, Nat.shiftLeft_eq, Nat.mul_comm, ← Nat.two_pow_add_eq_or_of_lt x.isLt, BitVec.extractLsb'_toNat, Nat.shiftRight_eq_div_pow, Nat.mod_eq_of_lt (by have := v.isLt; omega), Nat.mul_comm]

/-- Writing the high half of an address register, as arithmetic. -/
theorem setHigh_toNat (v : Dword) (x : Word) : (setHigh v x).toNat = x.toNat * 2 ^ 32 + v.toNat % 2 ^ 32 := by
  unfold setHigh
  rw [BitVec.toNat_append, Nat.shiftLeft_eq, Nat.mul_comm, ← Nat.two_pow_add_eq_or_of_lt (BitVec.isLt _), BitVec.extractLsb'_toNat]
  simp [Nat.mul_comm]

/-- STATUS as a sum of its fields (10 R31). -/
theorem status_toNat (s : State) : s.status.toNat = s.err.bits.toNat * 2 ^ 8 + s.ovr.toNat * 2 ^ 3 + s.trunc.toNat * 2 ^ 2 + s.run.bits.toNat := by
  unfold State.status
  cases s.err <;> cases s.ovr <;> cases s.trunc <;> cases s.run <;> rfl

end Sys2Proof.Machine
end

