-- ==== Sys2Proof/Laws/Decode.lean ====
section
/-! SUPPORT. Bit fields, the window a list of bits makes, and the totality of the decoder (30_encoding.md R80 to R88). -/

namespace Sys2Proof

@[simp] theorem fieldBits_length (k x : Nat) : (fieldBits k x).length = k := by
  induction k generalizing x with
  | zero => rfl
  | succ k ih => simp [fieldBits, ih]

/-- The bits of a field give its value back (30 R81). -/
theorem bitsToNat_fieldBits (k x : Nat) : bitsToNat (fieldBits k x) = x % 2 ^ k := by
  induction k generalizing x with
  | zero => simp [fieldBits, bitsToNat, Nat.mod_one]
  | succ k ih =>
    simp only [fieldBits, bitsToNat, ih]
    rw [Nat.pow_succ', Nat.mod_mul]
    rcases Nat.mod_two_eq_zero_or_one x with h | h <;> simp [h]

theorem bitsToNat_append (bs rest : List Bool) :
    bitsToNat (bs ++ rest) = bitsToNat bs + 2 ^ bs.length * bitsToNat rest := by
  induction bs with
  | nil => simp [bitsToNat]
  | cons b bs ih =>
    simp only [List.cons_append, bitsToNat, ih, List.length_cons, Nat.pow_succ']
    rw [Nat.mul_add, Nat.mul_assoc, Nat.add_assoc]

theorem bitsToNat_lt (bs : List Bool) : bitsToNat bs < 2 ^ bs.length := by
  induction bs with
  | nil => simp [bitsToNat]
  | cons b bs ih =>
    simp only [bitsToNat, List.length_cons, Nat.pow_succ']
    cases b <;> simp [Bool.toNat] <;> omega

/-- What the low bits of a window are, when it begins with at least that many bits (40 R116). -/
theorem peek_windowOf {bs : List Bool} {k : Nat} (hk : k ≤ 64) (hbs : bs.length = k) (rest : List Bool) :
    peek (windowOf bs rest) k = bitsToNat bs := by
  have hlt := bitsToNat_lt bs
  rw [hbs] at hlt
  rw [peek, windowOf, BitVec.toNat_ofNat, bitsToNat_append, hbs,
    Nat.mod_mod_of_dvd _ (Nat.pow_dvd_pow 2 hk), Nat.add_mul_mod_self_left, Nat.mod_eq_of_lt hlt]

theorem rev_lt (l c : Nat) : rev l c < 2 ^ l := by
  induction l generalizing c with
  | zero => simp [rev]
  | succ l ih =>
    simp only [rev, Nat.pow_succ']
    have h1 := ih (c / 2)
    rcases Nat.mod_two_eq_zero_or_one c with h | h <;> simp [h] <;> omega

/-- The decoder answers in every context that reads an element, but for an overflow index past the RAM (30 R88). -/
theorem decode_total (ctx : Ctx) (win : Dword) :
    (∃ i, decode ctx win = .ok i) ∨ (ctx = .idle ∧ decode ctx win = .error .noElement) ∨
      decode ctx win = .error .overflowIndex := by
  have hres : ∀ {pb : Nat} (t : CodeTable pb), (∃ r, resolve t win = .ok r) ∨ resolve t win = .error .overflowIndex := by
    intro pb t
    unfold resolve
    simp only
    split
    · exact .inl ⟨_, rfl⟩
    · split
      · exact .inl ⟨_, rfl⟩
      · exact .inr rfl
  cases ctx with
  | idle => exact .inr (.inl ⟨rfl, rfl⟩)
  | sym t =>
    rcases hres t with ⟨r, h⟩ | h
    · exact .inl ⟨symbolInstr r, by simp [decode, h, Except.map]⟩
    · exact .inr (.inr (by simp [decode, h, Except.map]))
  | dsym t =>
    rcases hres t with ⟨r, h⟩ | h
    · exact .inl ⟨.dsym r.value r.len, by simp [decode, h, Except.map]⟩
    · exact .inr (.inr (by simp [decode, h, Except.map]))
  | tbuild w => cases w <;> exact .inl ⟨_, rfl⟩
  | bt | lcnt | lbyte | tcnt w | tflag w | tnib w | lextra k | dextra k | copy | eob => exact .inl ⟨_, rfl⟩

end Sys2Proof
end

