-- ==== Sys2Proof/Laws/Builder.lean ====
section
/-! SUPPORT. The table builder's writes (42_table_builder.md R161 to R170): what each leaves in every slot. -/

namespace Sys2Proof.Machine

theorem getElem_fillFrom (f : Nat → Bool) (v : Entry) : ∀ (j : Nat) (es : List Entry) (i : Nat) (h : i < es.length),
    (fillFrom f v j es)[i]'(by rw [fillFrom_length]; exact h) = if f (j + i) then v else es[i]
  | j, e :: es, 0, _ => by simp [fillFrom]
  | j, e :: es, i + 1, h => by
    have := getElem_fillFrom f v (j + 1) es i (by simpa using h)
    simp only [fillFrom, List.getElem_cons_succ, this]
    rw [show j + 1 + i = j + (i + 1) by omega]

/-- A fill writes exactly the selected slots. -/
theorem getElem_fill {n : Nat} (f : Nat → Bool) (v : Entry) (t : Vector Entry n) (i : Nat) (h : i < n) :
    (fill f v t)[i] = if f i then v else t[i] := by
  have := getElem_fillFrom f v 0 t.toList i (by simpa using h)
  simpa [fill] using this

theorem mem_fillFrom {f : Nat → Bool} {v e : Entry} : ∀ {j : Nat} {es : List Entry}, e ∈ fillFrom f v j es → e = v ∨ e ∈ es
  | j, x :: es, h => by
    simp only [fillFrom, List.mem_cons] at h
    rcases h with h | h
    · split at h
      · exact .inl h
      · exact .inr (by simp [h])
    · rcases mem_fillFrom h with h | h
      · exact .inl h
      · exact .inr (by simp [h])

/-- What a filled RAM holds: the written value, or what it held. -/
theorem mem_fill {n : Nat} {f : Nat → Bool} {v e : Entry} {t : Vector Entry n} (h : e ∈ (fill f v t).toList) :
    e = v ∨ e ∈ t.toList := mem_fillFrom h

/-- The fields of a direct entry are its symbol and its length (10 R41, 42 R171). -/
theorem directEntry_fields {c : Code} (hs : c.sym < 512) (hl : c.len < 16) :
    (entryValue (directEntry c)).toNat = c.sym ∧ (entryLen (directEntry c)).toNat = c.len := by
  have hor : c.sym <<< 7 ||| c.len = c.sym * 128 + c.len := by
    rw [Nat.shiftLeft_eq, Nat.mul_comm c.sym, ← Nat.two_pow_add_eq_or_of_lt (i := 7) (by omega)]
  constructor
  · simp only [entryValue, directEntry, BitVec.extractLsb'_toNat, BitVec.toNat_ofNat, hor, Nat.shiftRight_eq_div_pow]
    omega
  · simp only [entryLen, directEntry, BitVec.extractLsb'_toNat, BitVec.toNat_ofNat, hor, Nat.shiftRight_eq_div_pow]
    omega

/-- The fields of an escape entry are its base and its depth, with LEN 0 (10 R41, 42 R169, R171). -/
theorem escapeEntry_fields {base depth : Nat} (hb : base < 512) (hd : depth < 8) :
    (entryValue (escapeEntry base depth)).toNat = base ∧ (entryDepth (escapeEntry base depth)).toNat = depth ∧
      entryLen (escapeEntry base depth) = 0 := by
  have hor : base <<< 7 ||| depth <<< 4 = base * 128 + depth * 16 := by
    rw [Nat.shiftLeft_eq, Nat.shiftLeft_eq, Nat.mul_comm base, ← Nat.two_pow_add_eq_or_of_lt (i := 7) (by omega)]
  refine ⟨?_, ?_, BitVec.eq_of_toNat_eq ?_⟩
  · simp only [entryValue, escapeEntry, BitVec.extractLsb'_toNat, BitVec.toNat_ofNat, hor, Nat.shiftRight_eq_div_pow]
    omega
  · simp only [entryDepth, escapeEntry, BitVec.extractLsb'_toNat, BitVec.toNat_ofNat, hor, Nat.shiftRight_eq_div_pow]
    omega
  · simp only [entryLen, escapeEntry, BitVec.extractLsb'_toNat, BitVec.toNat_ofNat, hor, Nat.shiftRight_eq_div_pow]
    simp only [BitVec.ofNat_eq_ofNat, BitVec.toNat_ofNat]
    omega

/-- Everything one step of the allocation can do (42 R167, R168, R173). -/
theorem allocate_cons {pb : Nat} (g : Group) (gs : List Group) (ctr : Nat) (t : CodeTable pb) :
    (8 < g.depth ∧ allocate (g :: gs) ctr t = .error .invalidTableEntry) ∨
    (g.depth ≤ 8 ∧ 0x1FF < ctr + 2 ^ g.depth ∧ allocate (g :: gs) ctr t = .error .sampleOverflow) ∨
    (g.depth ≤ 8 ∧ ctr + 2 ^ g.depth ≤ 0x1FF ∧
      allocate (g :: gs) ctr t = allocate gs (ctr + 2 ^ g.depth) (writeGroup ctr g t)) := by
  simp only [allocate, Config.ovfDepthLimit, Config.ovfCapacity]
  split
  · exact .inl ⟨‹_›, rfl⟩
  · split
    · exact .inr (.inl ⟨by omega, ‹_›, rfl⟩)
    · exact .inr (.inr ⟨by omega, by omega, rfl⟩)

/-- The symbols of one length, by index in the list of lengths (42 R162). -/
theorem mem_symbolsOfLen {l s : Nat} : ∀ {k : Nat} {lens : List CodeLen},
    s ∈ symbolsOfLen l k lens ↔ ∃ i, ∃ h : i < lens.length, s = k + i ∧ (lens[i]).toNat = l
  | k, [] => by simp [symbolsOfLen]
  | k, x :: xs => by
    have ih := mem_symbolsOfLen (l := l) (s := s) (k := k + 1) (lens := xs)
    have step : (∃ i, ∃ h : i < (x :: xs).length, s = k + i ∧ ((x :: xs)[i]).toNat = l) ↔
        (s = k ∧ x.toNat = l) ∨ ∃ i, ∃ h : i < xs.length, s = k + 1 + i ∧ (xs[i]).toNat = l := by
      constructor
      · rintro ⟨i, h, hs, hl⟩
        cases i with
        | zero => exact .inl ⟨by simpa using hs, by simpa using hl⟩
        | succ i => exact .inr ⟨i, by simpa using h, by omega, by simpa using hl⟩
      · rintro (⟨rfl, hl⟩ | ⟨i, h, hs, hl⟩)
        · exact ⟨0, by simp, by simp, by simpa using hl⟩
        · exact ⟨i + 1, by simpa using h, by omega, by simpa using hl⟩
    rw [step, ← ih]
    simp only [symbolsOfLen]
    split
    · rename_i hx
      simp only [List.mem_cons, hx, and_true]
    · rename_i hx
      simp [hx]

/-- The list S holds exactly the present symbols, each with its length (42 R162). -/
theorem mem_sortedSymbols {lens : List CodeLen} {p : Nat × Nat} :
    p ∈ sortedSymbols lens ↔ ∃ h : p.1 < lens.length, (lens[p.1]).toNat = p.2 ∧ 1 ≤ p.2 ∧ p.2 ≤ 15 := by
  obtain ⟨s, l⟩ := p
  simp only [sortedSymbols, List.mem_flatMap, List.mem_range'_1, List.mem_map, Prod.mk.injEq, Config.maxCodeLen]
  constructor
  · rintro ⟨l', ⟨h1, h2⟩, s', hs', rfl, rfl⟩
    obtain ⟨i, h, rfl, hl⟩ := mem_symbolsOfLen.1 hs'
    exact ⟨by simpa using h, by simpa using hl, by omega, by omega⟩
  · rintro ⟨h, hl, h1, h2⟩
    exact ⟨l, by omega, s, mem_symbolsOfLen.2 ⟨s, h, by omega, hl⟩, rfl, rfl⟩

/-- The codes are those of S, in its order, each of its length (42 R163). -/
theorem assignCodes_symbols (code : BitVec 16) (prev : Nat) (ps : List (Nat × Nat)) :
    (assignCodes code prev ps).map (fun c => (c.sym, c.len)) = ps := by
  induction ps generalizing code prev with
  | nil => rfl
  | cons p ps ih => obtain ⟨s, l⟩ := p; simp [assignCodes, ih]

theorem canonicalCodes_symbols (lens : List CodeLen) :
    (canonicalCodes lens).map (fun c => (c.sym, c.len)) = sortedSymbols lens := assignCodes_symbols _ _ _

/-- A code is the code of a present symbol, of its length, with that many bits (42 R162, R163). -/
theorem mem_canonicalCodes {lens : List CodeLen} {c : Code} (h : c ∈ canonicalCodes lens) :
    (∃ hs : c.sym < lens.length, (lens[c.sym]).toNat = c.len) ∧ 1 ≤ c.len ∧ c.len ≤ 15 ∧ c.rc < 2 ^ c.len := by
  have h1 : (c.sym, c.len) ∈ sortedSymbols lens := by
    rw [← canonicalCodes_symbols]
    exact List.mem_map.2 ⟨c, h, rfl⟩
  obtain ⟨hs, hl, h2, h3⟩ := mem_sortedSymbols.1 h1
  refine ⟨⟨hs, hl⟩, h2, h3, ?_⟩
  have : ∀ (code : BitVec 16) (prev : Nat) (ps : List (Nat × Nat)), ∀ d ∈ assignCodes code prev ps, d.rc < 2 ^ d.len := by
    intro code prev ps
    induction ps generalizing code prev with
    | nil => simp [assignCodes]
    | cons p ps ih =>
      obtain ⟨s, l⟩ := p
      intro d hd
      simp only [assignCodes, List.mem_cons] at hd
      rcases hd with rfl | hd
      · exact rev_lt _ _
      · exact ih _ _ d hd
  exact this _ _ _ c h

/-- A cleared table is in range. -/
theorem emptyTable_ok (pb : Nat) : TableOk (emptyTable pb) := by
  constructor <;> intro e he <;> simp [emptyTable] at he
  · obtain ⟨-, rfl⟩ := he; simp [PrimaryOk, entryLen, entryValue, entryDepth, Config.ovfCapacity]
  · subst he; simp [entryValue]

/-- A direct entry of a symbol and a length is in range. -/
theorem directEntry_ok {c : Code} (hs : c.sym ≤ 510) (hl : 1 ≤ c.len) (hl2 : c.len ≤ 15) :
    PrimaryOk (directEntry c) ∧ (entryValue (directEntry c)).toNat ≤ 510 := by
  obtain ⟨h1, h2⟩ := directEntry_fields (c := c) (by omega) (by omega)
  have : entryLen (directEntry c) ≠ 0 := by
    intro h; rw [h] at h2; simp at h2; omega
  refine ⟨by rw [PrimaryOk, if_neg this]; omega, by omega⟩

/-- Writing a short code keeps a table in range. -/
theorem writeShort_ok {pb : Nat} {t : CodeTable pb} (h : TableOk t) {c : Code} (hc : PrimaryOk (directEntry c)) :
    TableOk (writeShort t c) := by
  refine ⟨fun e he => ?_, h.2⟩
  rcases mem_fill he with rfl | he
  · exact hc
  · exact h.1 e he

/-- Writing the short codes keeps a table in range. -/
theorem foldl_writeShort_ok {pb : Nat} (cs : List Code) (t : CodeTable pb) (h : TableOk t) (hc : ∀ c ∈ cs, PrimaryOk (directEntry c)) :
    TableOk (cs.foldl writeShort t) := by
  induction cs generalizing t with
  | nil => exact h
  | cons c cs ih => exact ih _ (writeShort_ok h (hc c (by simp))) fun d hd => hc d (by simp [hd])

/-- Writing the members of a group keeps the overflow entries in range. -/
theorem foldl_writeOverflow_ok (pb base depth : Nat) (cs : List Code) (o : Vector Entry Config.ovfEntries)
    (h : ∀ e ∈ o.toList, (entryValue e).toNat ≤ 510) (hc : ∀ c ∈ cs, (entryValue (directEntry c)).toNat ≤ 510) :
    ∀ e ∈ (cs.foldl (writeOverflow pb base depth) o).toList, (entryValue e).toNat ≤ 510 := by
  induction cs generalizing o with
  | nil => exact h
  | cons c cs ih =>
    refine ih _ ?_ fun d hd => hc d (by simp [hd])
    intro e he
    rcases mem_fill he with rfl | he
    · exact hc c (by simp)
    · exact h e he

/-- Writing a group that fits keeps a table in range. -/
theorem writeGroup_ok {pb : Nat} {t : CodeTable pb} (h : TableOk t) {g : Group} {base : Nat} (hb : base + 2 ^ g.depth ≤ 0x1FF)
    (hd : g.depth ≤ 7) (hc : ∀ c ∈ g.members, (entryValue (directEntry c)).toNat ≤ 510) : TableOk (writeGroup base g t) := by
  have hp := Nat.two_pow_pos g.depth
  obtain ⟨e1, e2, e3⟩ := escapeEntry_fields (base := base) (depth := g.depth) (by omega) (by omega)
  refine ⟨fun e he => ?_, foldl_writeOverflow_ok _ _ _ _ _ h.2 hc⟩
  have : e = escapeEntry base g.depth ∨ e ∈ t.primary.toList := by
    have he' : e ∈ t.primary.toList.set g.pfx (escapeEntry base g.depth) := by simpa [writeGroup] using he
    exact (List.mem_or_eq_of_mem_set he').symm
  rcases this with rfl | h'
  · rw [PrimaryOk, if_pos e3, e1, e2]; exact hb
  · exact h.1 e h'

/-- The depth of a group is at most the longest code less the primary width (42 R166). -/
theorem groupDepth_le {pb n : Nat} : ∀ {cs : List Code}, (∀ c ∈ cs, c.len ≤ n) → groupDepth pb cs ≤ n - pb
  | [], _ => by simp [groupDepth]
  | c :: cs, h => by
    have h1 := h c (by simp)
    have h2 := groupDepth_le (pb := pb) (cs := cs) fun d hd => h d (by simp [hd])
    simp only [groupDepth]; omega

/-- The members and the depth of a group (42 R166). -/
theorem mem_groups {pb : Nat} {long : List Code} {g : Group} (h : g ∈ groups pb long) :
    g.members = long.filter (fun c => codePrefix pb c = g.pfx) ∧ g.depth = groupDepth pb g.members ∧ g.pfx ∈ prefixes pb long := by
  simp only [groups, List.mem_map] at h
  obtain ⟨p, hp, rfl⟩ := h
  exact ⟨rfl, rfl, hp⟩

/-- Allocating groups of depth at most 7 keeps a table in range. -/
theorem allocate_ok {pb : Nat} (gs : List Group) (ctr : Nat) (t u : CodeTable pb) (h : TableOk t)
    (hd : ∀ g ∈ gs, g.depth ≤ 7) (hc : ∀ g ∈ gs, ∀ c ∈ g.members, (entryValue (directEntry c)).toNat ≤ 510)
    (e : allocate gs ctr t = .ok u) : TableOk u := by
  induction gs generalizing ctr t with
  | nil => simp only [allocate, Except.ok.injEq] at e; subst e; exact h
  | cons g gs ih =>
    rcases allocate_cons g gs ctr t with ⟨-, e'⟩ | ⟨-, -, e'⟩ | ⟨-, hcap, e'⟩
    · rw [e'] at e; cases e
    · rw [e'] at e; cases e
    · rw [e'] at e
      exact ih _ _ (writeGroup_ok h hcap (hd g (by simp)) (hc g (by simp))) (fun g' h' => hd g' (by simp [h']))
        (fun g' h' => hc g' (by simp [h'])) e

/-- With a primary width of at least 8 a group is at most 7 deep (42 R167). -/
theorem groups_depth {pb : Nat} {lens : List CodeLen} (f : Code → Bool) (hpb : 8 ≤ pb) {g : Group} (h : g ∈ groups pb ((canonicalCodes lens).filter f)) :
    g.depth ≤ 7 := by
  obtain ⟨hm, hd, -⟩ := mem_groups h
  rw [hd]
  have := groupDepth_le (pb := pb) (n := 15) (cs := g.members) (by
    intro c hc; rw [hm] at hc; simp only [List.mem_filter] at hc
    exact (mem_canonicalCodes hc.1.1).2.2.1)
  omega

/-- Which errors the allocation of groups raises (42 R167, R168). -/
theorem allocate_errors {pb : Nat} (gs : List Group) (ctr : Nat) (t : CodeTable pb) (hd : ∀ g ∈ gs, g.depth ≤ 8) (hc : ctr ≤ 0x1FF) :
    allocate gs ctr t ≠ .error .invalidTableEntry ∧
    (allocate gs ctr t = .error .sampleOverflow ↔ 0x1FF < ctr + (gs.map fun g => 2 ^ g.depth).sum) := by
  induction gs generalizing ctr t with
  | nil => simp [allocate]; omega
  | cons g gs ih =>
    have h8 := hd g (by simp)
    rcases allocate_cons g gs ctr t with ⟨h, e'⟩ | ⟨-, h, e'⟩ | ⟨-, hcap, e'⟩
    · omega
    · rw [e']; simp; omega
    · rw [e']
      have := ih (ctr + 2 ^ g.depth) (writeGroup ctr g t) (fun g' h' => hd g' (by simp [h'])) hcap
      refine ⟨this.1, this.2.trans ?_⟩
      simp; omega

/-- A table in range resolves every window, to a symbol a table can have (43 R191). -/
theorem resolve_ok {pb : Nat} {t : CodeTable pb} (h : TableOk t) (win : Dword) : ∃ r, resolve t win = .ok r ∧ r.value.toNat ≤ 510 := by
  unfold resolve
  have hp : PrimaryOk (primaryEntry t win) := h.1 _ (by unfold primaryEntry; exact Vector.mem_toList_iff.2 (Vector.getElem_mem _))
  simp only
  split
  · rename_i hne
    rw [PrimaryOk, if_neg hne] at hp
    exact ⟨_, rfl, hp⟩
  · rename_i he
    rw [ne_eq, not_not] at he
    rw [PrimaryOk, if_pos he] at hp
    have hlt : overflowIndex pb (primaryEntry t win) win < Config.ovfEntries := by
      unfold overflowIndex peekAt
      have := Nat.mod_lt (win.toNat / 2 ^ pb) (Nat.two_pow_pos (entryDepth (primaryEntry t win)).toNat)
      simp only [Config.ovfCapacity, Config.ovfEntries] at *
      omega
    rw [dif_pos hlt]
    refine ⟨_, rfl, h.2 _ ?_⟩
    simp

/-- Folding fills: a slot that only writers of the same value select, and one does, holds it. -/
theorem foldl_fill {n : Nat} (sel : Code → Nat → Bool) (cs : List Code) (t : Vector Entry n) (i : Nat) (hi : i < n) (c : Code)
    (hu : ∀ d ∈ cs, sel d i = true → d = c) :
    (cs.foldl (fun t d => fill (sel d) (directEntry d) t) t)[i] = if c ∈ cs ∧ sel c i = true then directEntry c else t[i] := by
  induction cs generalizing t with
  | nil => simp
  | cons d cs ih =>
    rw [List.foldl_cons, ih _ fun e he => hu e (by simp [he]), getElem_fill _ _ _ _ hi]
    by_cases hc : sel c i = true
    · by_cases hm : c ∈ cs
      · simp [hc, hm]
      · by_cases hd : sel d i = true
        · have := hu d (by simp) hd; subst this; simp [hc, hm]
        · have : c ≠ d := by rintro rfl; exact hd hc
          simp [hm, hd, this]
    · have : sel d i ≠ true := fun h => by have := hu d (by simp) h; subst this; exact hc h
      simp [hc, this]

/-- The short codes write primary slots only (42 R165). -/
theorem foldl_writeShort_primary {pb : Nat} (cs : List Code) (t : CodeTable pb) :
    (cs.foldl writeShort t).primary = cs.foldl (fun t d => fill (fun j => decide (j % 2 ^ d.len = d.rc)) (directEntry d) t) t.primary := by
  induction cs generalizing t with
  | nil => rfl
  | cons c cs ih => rw [List.foldl_cons, List.foldl_cons, ih]; rfl

/-- The prefixes are those of the long codes. -/
theorem mem_prefixes {pb p : Nat} : ∀ {cs : List Code}, p ∈ prefixes pb cs ↔ ∃ c ∈ cs, codePrefix pb c = p
  | [] => by simp [prefixes]
  | c :: cs => by
    simp only [prefixes, List.mem_cons, List.mem_filter, mem_prefixes (cs := cs), decide_eq_true_eq]
    constructor
    · rintro (rfl | ⟨⟨d, hd, rfl⟩, -⟩)
      · exact ⟨c, .inl rfl, rfl⟩
      · exact ⟨d, .inr hd, rfl⟩
    · rintro ⟨d, rfl | hd, rfl⟩
      · exact .inl rfl
      · by_cases h : codePrefix pb d = codePrefix pb c
        · exact .inl h
        · exact .inr ⟨⟨d, hd, rfl⟩, by simpa using h⟩

/-- Each prefix has one group (42 R166). -/
theorem prefixes_nodup (pb : Nat) : ∀ cs : List Code, (prefixes pb cs).Nodup
  | [] => by simp [prefixes]
  | c :: cs => by
    simp only [prefixes, List.nodup_cons]
    exact ⟨by simp, (prefixes_nodup pb cs).filter _⟩

/-- What allocate leaves: slots outside keep, each group gets its base. -/
theorem allocate_spec {pb : Nat} (gs : List Group) : ∀ (ctr : Nat) (t u : CodeTable pb), (gs.map (·.pfx)).Nodup → allocate gs ctr t = .ok u →
    (∀ j (hj : j < 2 ^ pb), (∀ g ∈ gs, g.pfx ≠ j) → u.primary[j] = t.primary[j]) ∧
    (∀ j (hj : j < Config.ovfEntries), j < ctr → u.overflow[j] = t.overflow[j]) ∧
    (∀ g ∈ gs, ∃ base, ctr ≤ base ∧ base + 2 ^ g.depth ≤ 0x1FF ∧ g.depth ≤ 8 ∧
      (∀ (hj : g.pfx < 2 ^ pb), u.primary[g.pfx] = escapeEntry base g.depth) ∧
      ∀ x (hx : x < Config.ovfEntries), base ≤ x → x < base + 2 ^ g.depth →
        ∃ o : Vector Entry Config.ovfEntries, u.overflow[x] = (g.members.foldl (writeOverflow pb base g.depth) o)[x]) := by
  induction gs with
  | nil => intro ctr t u _ e; simp only [allocate, Except.ok.injEq] at e; subst e; simp
  | cons g gs ih =>
    intro ctr t u hn e
    rcases allocate_cons g gs ctr t with ⟨-, e'⟩ | ⟨-, -, e'⟩ | ⟨hd, hcap, e'⟩
    · rw [e'] at e; cases e
    · rw [e'] at e; cases e
    · rw [e'] at e
      rw [List.map_cons, List.nodup_cons] at hn
      obtain ⟨i1, i2, i3⟩ := ih _ _ _ hn.2 e
      have hp := Nat.two_pow_pos g.depth
      have keepP : ∀ j (hj : j < 2 ^ pb), g.pfx ≠ j → (writeGroup ctr g t).primary[j] = t.primary[j] := by
        intro j hj h; simp only [writeGroup]; rw [Vector.getElem_setIfInBounds, if_neg h]
      have keepO : ∀ (ms : List Code) (o : Vector Entry Config.ovfEntries) x (hx : x < Config.ovfEntries), x < ctr →
          (ms.foldl (writeOverflow pb ctr g.depth) o)[x] = o[x] := by
        intro ms
        induction ms with
        | nil => intro o x hx h; rfl
        | cons m ms ihm =>
          intro o x hx h
          rw [List.foldl_cons, ihm _ x hx h, writeOverflow, getElem_fill _ _ _ _ hx, if_neg]
          simp; omega
      refine ⟨fun j hj h => ?_, fun j hj h => ?_, fun g' hg' => ?_⟩
      · rw [i1 j hj fun g' h' => h g' (by simp [h']), keepP j hj (h g (by simp))]
      · rw [i2 j hj (by omega)]; exact keepO _ _ j hj h
      · rcases List.mem_cons.1 hg' with rfl | hg'
        · refine ⟨ctr, by omega, hcap, hd, fun hj => ?_, fun x hx h1 h2 => ⟨t.overflow, ?_⟩⟩
          · rw [i1 _ hj fun g'' h'' he => hn.1 (List.mem_map.2 ⟨g'', h'', he⟩)]
            simp only [writeGroup]; rw [Vector.getElem_setIfInBounds, if_pos rfl]
          · rw [i2 x hx h2]; rfl
        · obtain ⟨base, b1, b2, b3, b4, b5⟩ := i3 g' hg'
          exact ⟨base, by omega, b2, b3, b4, b5⟩

/-- A slot that holds a direct entry resolves to its symbol (43 R190). -/
theorem resolve_direct {pb : Nat} {t : CodeTable pb} {win : Dword} {c : Code} (hs : c.sym < 512) (h1 : 1 ≤ c.len) (h2 : c.len < 16)
    (h : primaryEntry t win = directEntry c) : resolve t win = .ok { value := BitVec.ofNat 9 c.sym, len := BitVec.ofNat 4 c.len } := by
  obtain ⟨f1, f2⟩ := directEntry_fields hs h2
  unfold resolve
  simp only [h]
  have : entryLen (directEntry c) ≠ 0 := by intro h'; rw [h'] at f2; simp at f2; omega
  rw [if_pos this]
  congr 2
  · apply BitVec.eq_of_toNat_eq; rw [f1, BitVec.toNat_ofNat]; omega
  · apply BitVec.eq_of_toNat_eq; rw [f2, BitVec.toNat_ofNat]; omega

/-- No member of a group has a longer suffix than its depth. -/
theorem le_groupDepth {pb : Nat} {c : Code} : ∀ {cs : List Code}, c ∈ cs → c.len - pb ≤ groupDepth pb cs
  | d :: ds, h => by
    simp only [groupDepth]
    rcases List.mem_cons.1 h with rfl | h
    · omega
    · have := le_groupDepth (pb := pb) h; omega

/-- The code-length set TBUILD builds from is determined by LENS and TCOUNT (41 R136). -/
theorem lengthsAre_iff {s : State} {lens : List CodeLen} : s.LengthsAre lens ↔ lens = s.codeLens := by
  have hlen : s.codeLens.length = s.tcount.toNat := by
    have := s.tcount.isLt
    simp only [State.codeLens, List.length_take, Vector.length_toList, Config.lensEntries]; omega
  have hget : ∀ (i : Nat) (h : i < 511), i < s.tcount.toNat → s.codeLens[i]? = some s.lens[i] := by
    intro i h hi
    simp [State.codeLens, hi, h, Config.lensEntries]
  constructor
  · rintro ⟨h1, h2⟩
    refine List.ext_getElem? fun i => ?_
    by_cases hi : i < s.tcount.toNat
    · have := s.tcount.isLt
      rw [h2 i (by omega) hi, hget i (by omega) hi]
    · rw [List.getElem?_eq_none (by omega), List.getElem?_eq_none (by omega)]
  · rintro rfl
    exact ⟨hlen, hget⟩

end Sys2Proof.Machine
end

