-- ==== Sys2Proof/Laws/Codes.lean ====
section
/-! SUPPORT. Canonical codes: bit reversal, and that a set of lengths that is not over-subscribed has prefix-free codes
(00_scope.md R7, 42_table_builder.md R162, R163). -/

namespace Sys2Proof.Machine

/-- Reversal looks at the low bits only (00 R7). -/
theorem rev_mod (l c : Nat) : rev l (c % 2 ^ l) = rev l c := by
  induction l generalizing c with
  | zero => simp [rev]
  | succ l ih =>
    simp only [rev]
    have h1 : c % 2 ^ (l + 1) % 2 = c % 2 := Nat.mod_mod_of_dvd _ (Dvd.intro_left _ (pow_succ 2 l).symm)
    have h2 : c % 2 ^ (l + 1) / 2 = c / 2 % 2 ^ l := by
      rw [Nat.pow_succ', Nat.mod_mul_right_div_self]
    rw [h1, h2, ih]

/-- The low bits of a reversed code are the reversal of its top bits. -/
theorem rev_mod_two_pow (k l c : Nat) (h : k ≤ l) (hc : c < 2 ^ l) : rev l c % 2 ^ k = rev k (c / 2 ^ (l - k)) := by
  induction l generalizing c k with
  | zero =>
    have : k = 0 := by omega
    subst this; simp [rev]
  | succ l ih =>
    rcases Nat.lt_or_ge l k with hk | hk
    · obtain rfl : k = l + 1 := by omega
      rw [Nat.sub_self, pow_zero, Nat.div_one, Nat.mod_eq_of_lt (rev_lt _ _)]
    · simp only [rev]
      have hd : 2 ^ k ∣ c % 2 * 2 ^ l := Dvd.dvd.mul_left (Nat.pow_dvd_pow 2 hk) _
      rw [Nat.add_mod, Nat.mod_eq_zero_of_dvd hd, Nat.zero_add, Nat.mod_mod, ih k (c / 2) hk (by rw [Nat.pow_succ] at hc; omega), Nat.div_div_eq_div_mul, ← Nat.pow_succ', show (l - k).succ = l + 1 - k by omega]

/-- Reversal loses nothing (00 R7). -/
theorem rev_injective (l : Nat) : ∀ {a b : Nat}, a < 2 ^ l → b < 2 ^ l → rev l a = rev l b → a = b := by
  induction l with
  | zero => intro a b ha hb _; simp at ha hb; omega
  | succ l ih =>
    intro a b ha hb h
    simp only [rev] at h
    have h1 := rev_lt l (a / 2)
    have h2 := rev_lt l (b / 2)
    rw [Nat.pow_succ] at ha hb
    have hq : a % 2 = b % 2 ∧ rev l (a / 2) = rev l (b / 2) := by
      rcases Nat.mod_two_eq_zero_or_one a with x | x <;> rcases Nat.mod_two_eq_zero_or_one b with y | y <;> simp only [x, y, Nat.zero_mul, Nat.one_mul, Nat.zero_add] at h <;> (constructor <;> omega)
    have := ih (by omega) (by omega) hq.2
    omega

/-- The Kraft sum of a list of symbols with their lengths, in units of 2^-15. -/
def kraftOf (ps : List (Nat × Nat)) : Nat := (ps.map fun p => 2 ^ (15 - p.2)).sum

/-- The code of `c` is no prefix of the code of `d`, which is not shorter. -/
def NoPrefix (c d : Code) : Prop := c.len ≤ d.len ∧ d.rc % 2 ^ c.len ≠ c.rc

/-- Codes assigned from a counter that fits are not below it. -/
theorem assign_val (ps : List (Nat × Nat)) : ∀ (code : BitVec 16) (prev : Nat), prev ≤ 15 →
    (∀ p ∈ ps, prev ≤ p.2 ∧ p.2 ≤ 15) → ps.Pairwise (fun p q => p.2 ≤ q.2) →
    code.toNat * 2 ^ (15 - prev) + kraftOf ps ≤ 2 ^ 15 →
    ∀ d ∈ assignCodes code prev ps, ∃ v, v < 2 ^ d.len ∧ d.rc = rev d.len v ∧ code.toNat * 2 ^ (15 - prev) ≤ v * 2 ^ (15 - d.len) ∧ d.len ≤ 15 := by
  induction ps with
  | nil => intro code prev _ _ _ _ d hd; simp [assignCodes] at hd
  | cons p ps ih =>
    obtain ⟨s, l⟩ := p
    intro code prev hprev hb hs hk d hd
    have hl := hb (s, l) (by simp)
    simp only at hl
    have hk' : code.toNat * 2 ^ (15 - prev) + (2 ^ (15 - l) + kraftOf ps) ≤ 2 ^ 15 := by simpa [kraftOf] using hk
    have hpl : 2 ^ (15 - prev) = 2 ^ (l - prev) * 2 ^ (15 - l) := by rw [← Nat.pow_add]; congr 1; omega
    have hsh : (shiftCode code prev l).toNat = code.toNat * 2 ^ (l - prev) := by
      have hlt : code.toNat * 2 ^ (l - prev) < 2 ^ 16 := by
        have h1 : code.toNat * 2 ^ (l - prev) ≤ code.toNat * 2 ^ (15 - prev) := Nat.mul_le_mul_left _ (Nat.pow_le_pow_right (by omega) (by omega))
        omega
      unfold shiftCode; split
      · rw [BitVec.toNat_shiftLeft, Nat.shiftLeft_eq, Nat.mod_eq_of_lt hlt]
      · rw [show l - prev = 0 by omega]; simp
    have hv : code.toNat * 2 ^ (15 - prev) = (shiftCode code prev l).toNat * 2 ^ (15 - l) := by rw [hsh, hpl, Nat.mul_assoc]
    have hprev' : (if prev < l then l else prev) = l := by split <;> omega
    have hpos := Nat.two_pow_pos (15 - l)
    have hltl : (shiftCode code prev l).toNat < 2 ^ l := by
      have : (shiftCode code prev l).toNat * 2 ^ (15 - l) < 2 ^ l * 2 ^ (15 - l) := by
        rw [← hv, ← Nat.pow_add, show l + (15 - l) = 15 by omega]; omega
      exact Nat.lt_of_mul_lt_mul_right this
    simp only [assignCodes, List.mem_cons] at hd
    rcases hd with rfl | hd
    · exact ⟨(shiftCode code prev l).toNat, hltl, by simp only [Nat.mod_eq_of_lt hltl], by simp only; omega, hl.2⟩
    · have hsucc : (shiftCode code prev l + 1).toNat = (shiftCode code prev l).toNat + 1 := by
        have : 2 ^ l ≤ 2 ^ 15 := Nat.pow_le_pow_right (by omega) hl.2
        rw [BitVec.toNat_add]; simp; omega
      rw [hprev'] at hd
      obtain ⟨hs1, hs2⟩ := List.pairwise_cons.1 hs
      obtain ⟨v, h1, h2, h3, h4⟩ := ih (shiftCode code prev l + 1) l hl.2 (fun q hq => ⟨hs1 q hq, (hb q (by simp [hq])).2⟩) hs2 (by rw [hsucc, Nat.add_mul]; omega) d hd
      refine ⟨v, h1, h2, ?_, h4⟩
      rw [hsucc, Nat.add_mul] at h3; omega

/-- Codes assigned from a counter that fits are prefix free. -/
theorem assign_prefixFree (ps : List (Nat × Nat)) : ∀ (code : BitVec 16) (prev : Nat), prev ≤ 15 →
    (∀ p ∈ ps, prev ≤ p.2 ∧ p.2 ≤ 15) → ps.Pairwise (fun p q => p.2 ≤ q.2) →
    code.toNat * 2 ^ (15 - prev) + kraftOf ps ≤ 2 ^ 15 → (assignCodes code prev ps).Pairwise NoPrefix := by
  induction ps with
  | nil => intro code prev _ _ _ _; simp [assignCodes]
  | cons p ps ih =>
    obtain ⟨s, l⟩ := p
    intro code prev hprev hb hs hk
    have hl := hb (s, l) (by simp)
    simp only at hl
    have hk' : code.toNat * 2 ^ (15 - prev) + (2 ^ (15 - l) + kraftOf ps) ≤ 2 ^ 15 := by simpa [kraftOf] using hk
    have hpl : 2 ^ (15 - prev) = 2 ^ (l - prev) * 2 ^ (15 - l) := by rw [← Nat.pow_add]; congr 1; omega
    have hsh : (shiftCode code prev l).toNat = code.toNat * 2 ^ (l - prev) := by
      have hlt : code.toNat * 2 ^ (l - prev) < 2 ^ 16 := by
        have h1 : code.toNat * 2 ^ (l - prev) ≤ code.toNat * 2 ^ (15 - prev) := Nat.mul_le_mul_left _ (Nat.pow_le_pow_right (by omega) (by omega))
        omega
      unfold shiftCode; split
      · rw [BitVec.toNat_shiftLeft, Nat.shiftLeft_eq, Nat.mod_eq_of_lt hlt]
      · rw [show l - prev = 0 by omega]; simp
    have hv : code.toNat * 2 ^ (15 - prev) = (shiftCode code prev l).toNat * 2 ^ (15 - l) := by rw [hsh, hpl, Nat.mul_assoc]
    have hprev' : (if prev < l then l else prev) = l := by split <;> omega
    have hpos := Nat.two_pow_pos (15 - l)
    have hltl : (shiftCode code prev l).toNat < 2 ^ l := by
      have : (shiftCode code prev l).toNat * 2 ^ (15 - l) < 2 ^ l * 2 ^ (15 - l) := by
        rw [← hv, ← Nat.pow_add, show l + (15 - l) = 15 by omega]; omega
      exact Nat.lt_of_mul_lt_mul_right this
    have hsucc : (shiftCode code prev l + 1).toNat = (shiftCode code prev l).toNat + 1 := by
      have : 2 ^ l ≤ 2 ^ 15 := Nat.pow_le_pow_right (by omega) hl.2
      rw [BitVec.toNat_add]; simp; omega
    obtain ⟨hs1, hs2⟩ := List.pairwise_cons.1 hs
    have hk2 : (shiftCode code prev l + 1).toNat * 2 ^ (15 - l) + kraftOf ps ≤ 2 ^ 15 := by rw [hsucc, Nat.add_mul]; omega
    have hb2 : ∀ q ∈ ps, l ≤ q.2 ∧ q.2 ≤ 15 := fun q hq => ⟨hs1 q hq, (hb q (by simp [hq])).2⟩
    simp only [assignCodes, hprev']
    refine List.pairwise_cons.2 ⟨fun d hd => ?_, ih _ l hl.2 hb2 hs2 hk2⟩
    obtain ⟨v, h1, h2, h3, h4⟩ := assign_val ps _ l hl.2 hb2 hs2 hk2 d hd
    have hdl : l ≤ d.len := by
      have : (d.sym, d.len) ∈ ps := by rw [← assignCodes_symbols (shiftCode code prev l + 1) l ps]; exact List.mem_map.2 ⟨d, hd, rfl⟩
      exact (hb2 _ this).1
    refine ⟨hdl, ?_⟩
    rw [h2, rev_mod_two_pow _ _ _ hdl h1, Nat.mod_eq_of_lt hltl]
    intro he
    have hlt2 : v / 2 ^ (d.len - l) < 2 ^ l := by
      rw [Nat.div_lt_iff_lt_mul (Nat.two_pow_pos _), ← Nat.pow_add, show l + (d.len - l) = d.len by omega]; exact h1
    have := rev_injective l hlt2 hltl he
    rw [hsucc] at h3
    -- (sc+1) * 2^(15-l) ≤ v * 2^(15-d.len), with 2^(15-l) = 2^(d.len - l) * 2^(15-d.len)
    have e : 2 ^ (15 - l) = 2 ^ (d.len - l) * 2 ^ (15 - d.len) := by rw [← Nat.pow_add]; congr 1; omega
    rw [e, ← Nat.mul_assoc] at h3
    have h5 := Nat.le_of_mul_le_mul_right h3 (Nat.two_pow_pos _)
    have h6 := (Nat.le_div_iff_mul_le (Nat.two_pow_pos (d.len - l))).2 h5
    omega

/-- Sorting keeps the Kraft sum. -/
theorem kraft_sorted (lens : List CodeLen) : kraftOf (sortedSymbols lens) = kraftSum lens := by
  have hlen : ∀ l k, ((symbolsOfLen l k lens).map fun s => 2 ^ (15 - l)).sum = (lens.map fun x => if x.toNat = l then 2 ^ (15 - l) else 0).sum := by
    intro l k
    induction lens generalizing k with
    | nil => simp [symbolsOfLen]
    | cons x xs ih =>
      simp only [symbolsOfLen, List.map_cons, List.sum_cons]
      split
      · simp only [List.map_cons, List.sum_cons, ih]
      · rw [ih]; omega
  have h1 : ∀ (ls : List Nat), kraftOf (ls.flatMap fun l => (symbolsOfLen l 0 lens).map fun s => (s, l)) = (ls.map fun l => (lens.map fun x => if x.toNat = l then 2 ^ (15 - l) else 0).sum).sum := by
    intro ls
    induction ls with
    | nil => simp [kraftOf]
    | cons l ls ih =>
      simp only [List.flatMap_cons, List.map_cons, List.sum_cons, ← ih, ← hlen l 0]
      simp [kraftOf, Function.comp_def]
  rw [sortedSymbols, h1]
  clear h1 hlen
  induction lens with
  | nil => simp [kraftSum]
  | cons x xs ih =>
    have add : ∀ (f g : Nat → Nat) (R : List Nat), (R.map fun l => f l + g l).sum = (R.map f).sum + (R.map g).sum := by
      intro f g R
      induction R with
      | nil => rfl
      | cons r R ih => simp only [List.map_cons, List.sum_cons, ih]; omega
    have one : ∀ x : CodeLen, ((List.range' 1 15).map fun l => if x.toNat = l then 2 ^ (15 - l) else 0).sum = if x = 0 then 0 else 2 ^ (15 - x.toNat) := by decide +kernel
    simp only [List.map_cons, List.sum_cons]
    rw [add, ih, kraftSum, kraftSum, List.map_cons, List.sum_cons, ← one x]

/-- A pairwise relation between two different members, one way or the other. -/
theorem pairwise_of_mem {α} {R : α → α → Prop} {l : List α} (h : l.Pairwise R) {a b : α} (ha : a ∈ l) (hb : b ∈ l) (hne : a ≠ b) : R a b ∨ R b a := by
  induction l with
  | nil => cases ha
  | cons x xs ih =>
    obtain ⟨h1, h2⟩ := List.pairwise_cons.1 h
    rcases List.mem_cons.1 ha with rfl | ha <;> rcases List.mem_cons.1 hb with rfl | hb
    · exact absurd rfl hne
    · exact .inl (h1 _ hb)
    · exact .inr (h1 _ (by assumption))
    · exact ih h2 (by assumption) (by assumption)

/-- No window begins with two codes of a prefix-free set. -/
theorem noPrefix_exclusive {cs : List Code} (h : cs.Pairwise NoPrefix) {c d : Code} (hc : c ∈ cs) (hd : d ∈ cs) (hne : c ≠ d) {x : Nat}
    (h1 : x % 2 ^ c.len = c.rc) (h2 : x % 2 ^ d.len = d.rc) : False := by
  have key : ∀ a b : Code, NoPrefix a b → x % 2 ^ a.len = a.rc → x % 2 ^ b.len = b.rc → False := by
    intro a b hab ha hb
    apply hab.2
    rw [← hb, Nat.mod_mod_of_dvd _ (Nat.pow_dvd_pow 2 hab.1), ha]
  rcases pairwise_of_mem h hc hd hne with h | h
  · exact key _ _ h h1 h2
  · exact key _ _ h h2 h1

end Sys2Proof.Machine
end

