-- ==== Sys2Proof/Laws/Step.lean ====
section
/-! SUPPORT. What a step of the machine can do, turn by turn (00_scope.md R9), and the memories every operation keeps
canonical. -/

namespace Sys2Proof.Machine

/-- Everything a step can be. -/
theorem step_cases (s : State) :
    (s.engineNext ∧ step s = engineStep s.afterTurn) ∨
    (∃ e rest, s.turns = .bus e :: rest ∧ step s = exec (decodeBus e) s.afterTurn) ∨
    (∃ a b rest, s.turns = .srcWrite a b :: rest ∧ step s = hostSrcWrite a b s.afterTurn) ∨
    (∃ a b rest, s.turns = .outWrite a b :: rest ∧ step s = hostOutWrite a b s.afterTurn) ∨
    (∃ a rest, s.turns = .outRead a :: rest ∧ step s = hostOutRead a s.afterTurn) := by
  unfold step State.engineNext State.afterTurn
  cases h : s.turns with
  | nil => exact .inl ⟨.inl rfl, by cases s; simp_all⟩
  | cons t rest =>
    cases t with
    | engine => exact .inl ⟨.inr ⟨rest, rfl⟩, rfl⟩
    | bus e => exact .inr (.inl ⟨e, rest, rfl, rfl⟩)
    | srcWrite a b => exact .inr (.inr (.inl ⟨a, b, rest, rfl, rfl⟩))
    | outWrite a b => exact .inr (.inr (.inr (.inl ⟨a, b, rest, rfl, rfl⟩)))
    | outRead a => exact .inr (.inr (.inr (.inr ⟨a, rest, rfl, rfl⟩)))

/-- Everything an engine step can be (00 R9, 60 R283): nothing while not BUSY; a fault where no element is fetched; the
fetched element's meaning. -/
theorem engineStep_cases (s : State) :
    (s.run ≠ .busy ∧ engineStep s = .next s) ∨
    (s.run = .busy ∧ ∃ f, fetchInstr s = .error f ∧ engineStep s = .fault f) ∨
    (s.run = .busy ∧ ∃ i, fetchInstr s = .ok i ∧ engineStep s = exec i s) := by
  unfold engineStep
  by_cases h : s.run = .busy
  · cases hf : fetchInstr s with
    | error f => exact .inr (.inl ⟨h, f, rfl, by simp [h]⟩)
    | ok i => exact .inr (.inr ⟨h, i, rfl, by simp [h]⟩)
  · exact .inl ⟨h, by simp [h]⟩

/-- An element is fetched from the context of SEQ and the refilled window (40 R110), or from no window at all. -/
theorem fetchInstr_ok {s : State} {i : Instr} (h : fetchInstr s = .ok i) :
    ∃ c w, contextOf s = .ok c ∧ windowFor s = .ok w ∧ decode c w = .ok i := by
  unfold fetchInstr at h
  cases hc : contextOf s with
  | error f => simp [hc] at h
  | ok c =>
    cases hw : windowFor s with
    | error f => simp [hc, hw] at h
    | ok w =>
      cases hd : decode c w with
      | error e => simp [hc, hw, hd] at h
      | ok j => simp only [hc, hw, hd, Except.ok.injEq] at h; subst h; exact ⟨c, w, rfl, rfl, hd⟩

/-- The element fetched is one the bitstream or an implicit step has, never a host command (30 R94, R95). -/
theorem encodeBus_of_fetched {s : State} {i : Instr} (h : fetchInstr s = .ok i) : encodeBus i = none := by
  obtain ⟨c, w, -, -, hd⟩ := fetchInstr_ok h
  cases c <;> simp only [decode, Except.map] at hd
  case idle => cases hd
  case sym t =>
    cases hr : resolve t w with
    | error e => simp [hr] at hd
    | ok r =>
      simp only [hr, Except.ok.injEq] at hd
      subst hd
      unfold symbolInstr
      split
      · rfl
      · split <;> rfl
  case dsym t =>
    cases hr : resolve t w with
    | error e => simp [hr] at hd
    | ok r => simp only [hr, Except.ok.injEq] at hd; subst hd; rfl
  case tbuild w' => cases w' <;> (cases hd; rfl)
  case bt => cases hd; split <;> rfl
  case tflag w' => cases hd; split <;> rfl
  case eob => cases hd; split <;> rfl
  all_goals (cases hd; rfl)

/-! ### The canonical form of the memories -/

theorem memOk_of_fields {s t : State} (h : s.MemOk) (h1 : t.src = s.src) (h2 : t.out = s.out) (h3 : t.tainted = s.tainted)
    (h4 : t.cfg = s.cfg) : t.MemOk := by
  unfold State.MemOk at *
  rw [h1, h2, h3, h4]
  exact h

/-- Every write of output memory keeps the memories canonical. -/
theorem memOk_outWrite {s t : State} (h : s.MemOk) (a : Nat) (b : Byte) (h1 : t.src = s.src)
    (h2 : t.out = s.out.write (s.wrap a) b) (h3 : t.tainted = s.tainted) (h4 : t.cfg = s.cfg) : t.MemOk := by
  obtain ⟨⟨w1, w2, w3⟩, b1, b2, b3⟩ := h
  unfold State.MemOk
  rw [h1, h2, h3, h4]
  exact ⟨⟨w1, Memory.wf_write w2 _ _, w3⟩, b1, Memory.bounded_write b2 (s.wrap_lt a) b, b3⟩

/-- Every host write of source memory keeps the memories canonical. -/
theorem memOk_srcWrite {s t : State} (h : s.MemOk) (a : Nat) (b : Byte) (h1 : t.src = s.src.write (s.wrap a) b)
    (h2 : t.out = s.out) (h3 : t.tainted = s.tainted) (h4 : t.cfg = s.cfg) : t.MemOk := by
  obtain ⟨⟨w1, w2, w3⟩, b1, b2, b3⟩ := h
  unfold State.MemOk
  rw [h1, h2, h3, h4]
  exact ⟨⟨Memory.wf_write w1 _ _, w2, w3⟩, Memory.bounded_write b1 (s.wrap_lt a) b, b2, b3⟩

/-- Tainting an address keeps the memories canonical. -/
theorem memOk_taint {s : State} (h : s.MemOk) (a : Nat) : (taint a s).MemOk := by
  unfold taint
  split
  · obtain ⟨⟨w1, w2, w3⟩, b1, b2, b3⟩ := h
    refine ⟨⟨w1, w2, pairwise_addAddress w3 _⟩, b1, b2, ?_⟩
    intro x hx
    rcases mem_addAddress.1 hx with rfl | hx
    · exact s.wrap_lt a
    · exact b3 x hx
  · exact h

/-- Nothing is listed after reset. -/
theorem reset_memOk : State.reset.MemOk := by
  simp [State.MemOk, State.reset, Memory.wf]

/-- On the engine's turn the engine steps. -/
theorem engine_step {s : State} (h : s.engineNext) : step s = engineStep s.afterTurn := by
  rcases step_cases s with ⟨-, h'⟩ | ⟨e, r, h', -⟩ | ⟨a, b, r, h', -⟩ | ⟨a, b, r, h', -⟩ | ⟨a, r, h', -⟩
  · exact h'
  all_goals (rcases h with h | ⟨r, h⟩ <;> rw [h'] at h <;> cases h)

/-- A BUSY engine whose window decodes executes what it decodes (00 R9). -/
theorem engineStep_of_decoded {s : State} {c : Ctx} {w : Dword} {i : Instr} (hr : s.run = .busy) (hc : contextOf s = .ok c)
    (hw : windowFor s = .ok w) (hd : decode c w = .ok i) : engineStep s = exec i s := by
  simp [engineStep, hr, fetchInstr, hc, hw, hd]

/-- The decoding context, by sequencer state (30 R82). -/
theorem contextOf_cases {s : State} {c : Ctx} (hc : contextOf s = .ok c) :
   (s.seq = .idle ∧ c = .idle) ∨ (s.seq = .bt ∧ c = .bt) ∨ (s.seq = .lcnt ∧ c = .lcnt) ∨ (s.seq = .lbyte ∧ c = .lbyte) ∨
   (∃ w, s.seq = .tcnt w ∧ c = .tcnt w) ∨ (∃ w, s.seq = .tflag w ∧ c = .tflag w) ∨ (∃ w, s.seq = .tnib w ∧ c = .tnib w) ∨
   (∃ w, s.seq = .tbuild w ∧ c = .tbuild w) ∨ (s.seq = .sym ∧ c = .sym s.largeTable) ∨
   (s.seq = .lextra ∧ ∃ r, s.lengthRow? s.lidx.toNat = some r ∧ c = .lextra r.extra) ∨ (s.seq = .dsym ∧ c = .dsym s.smallTable) ∨
   (s.seq = .dextra ∧ ∃ r, s.distRow? s.didx.toNat = some r ∧ c = .dextra r.extra) ∨ (s.seq = .copy ∧ c = .copy) ∨ (s.seq = .eob ∧ c = .eob) := by
  unfold contextOf at hc
  cases hs : s.seq <;> simp only [hs] at hc
  case lextra =>
    cases hr : s.lengthRow? s.lidx.toNat <;> simp [hr] at hc
    subst hc; simp
  case dextra =>
    cases hr : s.distRow? s.didx.toNat <;> simp [hr] at hc
    subst hc; simp
  all_goals (cases hc; simp)

/-- A table has at most 511 code lengths (10 R43). -/
theorem codeLens_length (s : State) : s.codeLens.length ≤ 511 := by
  simp only [State.codeLens, List.length_take]
  have := s.tcount.isLt
  omega

/-- Append leaves the bit window alone. -/
theorem appendThen_window (b : Byte) (s : State) (rest : State → State)
   (hr : ∀ u, (rest u).acc = u.acc ∧ (rest u).avail = u.avail ∧ (rest u).cursor = u.cursor ∧ (rest u).plimit = u.plimit ∧ (rest u).ovr = u.ovr) :
   (appendThen b s rest).acc = s.acc ∧ (appendThen b s rest).avail = s.avail ∧ (appendThen b s rest).cursor = s.cursor ∧ (appendThen b s rest).plimit = s.plimit ∧ (appendThen b s rest).ovr = s.ovr := by
  rcases appendThen_cases b s rest with ⟨-, e⟩ | ⟨-, e⟩ <;> rw [e]
  · exact ⟨rfl, rfl, rfl, rfl, rfl⟩
  · exact hr _

/-- An element's meaning leaves the window of Read(width), or leaves the window alone if it has no bits. -/
theorem exec_window {i : Instr} {s t : State} (hi : encodeBus i = none) (e : exec i s = .next t) :
    (i.width = 0 ∧ t.acc = s.acc ∧ t.avail = s.avail ∧ t.cursor = s.cursor ∧ t.plimit = s.plimit ∧ t.ovr = s.ovr) ∨
    ∃ w, TookBits i.width s w ∧ t.acc = w.acc ∧ t.avail = w.avail ∧ t.cursor = w.cursor ∧ t.plimit = w.plimit ∧ t.ovr = w.ovr := by
  have go : ∀ {k : Nat} {rest : State → State}, i.width = k → readThen k s rest = .next t →
    (∀ u, (rest u).acc = u.acc ∧ (rest u).avail = u.avail ∧ (rest u).cursor = u.cursor ∧ (rest u).plimit = u.plimit ∧ (rest u).ovr = u.ovr) →
    ∃ w, TookBits i.width s w ∧ t.acc = w.acc ∧ t.avail = w.avail ∧ t.cursor = w.cursor ∧ t.plimit = w.plimit ∧ t.ovr = w.ovr := by
    intro k rest hk e hr
    obtain ⟨u, hu, rfl⟩ := readThen_next e
    exact ⟨take k u, ⟨u, hu, by rw [hk]⟩, hr _⟩
  have hsc : ∀ j u, (startCopy j u).acc = u.acc ∧ (startCopy j u).avail = u.avail ∧ (startCopy j u).cursor = u.cursor ∧ (startCopy j u).plimit = u.plimit ∧ (startCopy j u).ovr = u.ovr := by
    intro j u; unfold startCopy; split
    · simp
    · split <;> simp
  have hsd : ∀ j u, (startDistance j u).acc = u.acc ∧ (startDistance j u).avail = u.avail ∧ (startDistance j u).cursor = u.cursor ∧ (startDistance j u).plimit = u.plimit ∧ (startDistance j u).ovr = u.ovr := by
    intro j u; unfold startDistance; split
    · simp
    · split <;> simp
  cases i <;> simp only [encodeBus, reduceCtorEq] at hi <;> simp only [exec] at e
  case tbuildL =>
    left; simp only [execTbuildL] at e; split at e <;> cases e <;> exact ⟨rfl, rfl, rfl, rfl, rfl, rfl⟩
  case tbuildS =>
    left; simp only [execTbuildS] at e; split at e <;> cases e <;> exact ⟨rfl, rfl, rfl, rfl, rfl, rfl⟩
  case copy =>
    left; simp only [execCopy, Host.Outcome.next.injEq] at e; subst e
    exact ⟨rfl, appendThen_window (copySource s) s _ fun u => ⟨rfl, rfl, rfl, rfl, rfl⟩⟩
  case xbLen k x =>
    simp only [execXbLen] at e; split at e
    · cases e
    · exact .inr (go rfl e fun u => ⟨rfl, rfl, rfl, rfl, rfl⟩)
  case xbDist k x =>
    simp only [execXbDist] at e; split at e
    · cases e
    · exact .inr (go rfl e fun u => ⟨rfl, rfl, rfl, rfl, rfl⟩)
  case tcnt w c => exact .inr (go rfl e fun u => by split <;> exact ⟨rfl, rfl, rfl, rfl, rfl⟩)
  case lbyte b => exact .inr (go rfl e fun u => appendThen_window _ _ _ fun u => ⟨rfl, rfl, rfl, rfl, rfl⟩)
  case symLit b => exact .inr (go rfl e fun u => appendThen_window _ _ _ fun u => ⟨rfl, rfl, rfl, rfl, rfl⟩)
  case symBref v l => exact .inr (go rfl e fun u => hsc _ _)
  case dsym v l => exact .inr (go rfl e fun u => hsd _ _)
  all_goals exact .inr (go rfl e fun u => ⟨rfl, rfl, rfl, rfl, rfl⟩)

/-- No element takes more than 32 bits. -/
theorem width_le (i : Instr) : i.width ≤ 32 := by
  cases i <;> simp only [Instr.width] <;> omega

/-- A symbol is never an extra-bits row. -/
theorem symbolInstr_ne (r : Resolved) (k : Fin 33) (x : Word) : symbolInstr r ≠ .xbLen k x ∧ symbolInstr r ≠ .xbDist k x := by
  unfold symbolInstr; split
  · simp
  · split <;> simp

/-- The inputs of a run, and what the host last read, are the same. -/
def SameInputs (s t : State) : Prop :=  t.hdrflag = s.hdrflag ∧ t.csize = s.csize ∧ t.dsize = s.dsize ∧ t.pbase = s.pbase ∧ t.obase = s.obase ∧
      t.plimit = s.plimit ∧ t.endianL = s.endianL ∧ t.src = s.src ∧ t.tainted = s.tainted ∧ t.cfg = s.cfg ∧
      t.rdata = s.rdata ∧ t.mdata = s.mdata ∧ t.turns = s.turns

/-- Same inputs twice is same inputs. -/
theorem sameInputs_trans {s t u : State} (h1 : SameInputs s t) (h2 : SameInputs t u) : SameInputs s u := by
  unfold SameInputs at *; simp_all

/-- An element's meaning leaves the inputs of a run alone. -/
theorem exec_sameInputs {i : Instr} {s t : State} (hi : encodeBus i = none) (e : exec i s = .next t) : SameInputs s t := by
  have go : ∀ {k : Nat} {rest : State → State}, readThen k s rest = .next t → (∀ w, SameInputs w (rest w)) → SameInputs s t := by
    intro k rest e hr
    exact readThen_keeps e (P := SameInputs) fun w _ hw => sameInputs_trans (by rw [hw]; simp [SameInputs, State.withWindow]) (hr w)
  have tr : ∀ {s : State}, SameInputs s (truncateRun s) := by intro s; simp [SameInputs]
  have ap : ∀ {b : Byte} {s : State}, SameInputs s (appendByte b s) := by intro b s; simp [SameInputs]
  have hsc : ∀ j u, SameInputs u (startCopy j u) := by
    intro j u; unfold startCopy; split
    · simp [SameInputs]
    · split <;> simp [SameInputs]
  have hsd : ∀ j u, SameInputs u (startDistance j u) := by
    intro j u; unfold startDistance; split
    · simp [SameInputs]
    · split <;> simp [SameInputs]
  cases i <;> simp only [encodeBus, reduceCtorEq] at hi <;> simp only [exec] at e
  case tbuildL =>
    simp only [execTbuildL] at e; split at e <;> cases e <;> simp [SameInputs]
  case tbuildS =>
    simp only [execTbuildS] at e; split at e <;> cases e <;> simp [SameInputs]
  case copy =>
    simp only [execCopy, Host.Outcome.next.injEq] at e; subst e
    exact appendThen_keeps (P := SameInputs) _ _ _ tr fun _ => by simp [SameInputs]
  case xbLen k x =>
    simp only [execXbLen] at e; split at e
    · cases e
    · exact go e fun u => by simp [SameInputs]
  case xbDist k x =>
    simp only [execXbDist] at e; split at e
    · cases e
    · exact go e fun u => by simp [SameInputs]
  case tcnt w c => exact go e fun u => by split <;> simp [SameInputs]
  case lbyte b => exact go e fun u => appendThen_keeps (P := SameInputs) _ _ _ tr fun _ => by simp [SameInputs]
  case symLit b => exact go e fun u => appendThen_keeps (P := SameInputs) _ _ _ tr fun _ => by simp [SameInputs]
  case symBref v l => exact go e fun u => hsc _ _
  case dsym v l => exact go e fun u => hsd _ _
  all_goals exact go e fun u => ⟨rfl, rfl, rfl, rfl, rfl, rfl, rfl, rfl, rfl, rfl, rfl, rfl, rfl⟩

/-- No output byte was appended, or one. -/
def AppendsAtMostOne (s t : State) : Prop := t.cfg = s.cfg ∧ ((t.ocur = s.ocur ∧ t.out = s.out) ∨
    (s.ocur < s.dsize ∧ t.ocur = s.ocur + 1 ∧ ∃ b, StoredByte s t s.outAddr b))

/-- Append appends at most one byte. -/
theorem appendsAtMostOne_append (b : Byte) (s : State) (rest : State → State) (hr : ∀ u, (rest u).ocur = u.ocur ∧ (rest u).src = u.src ∧ (rest u).out = u.out ∧ (rest u).tainted = u.tainted ∧ (rest u).cfg = u.cfg) :
    AppendsAtMostOne s (appendThen b s rest) := by
  rcases appendThen_cases b s rest with ⟨-, e⟩ | ⟨h, e⟩ <;> rw [e]
  · exact ⟨rfl, .inl ⟨rfl, rfl⟩⟩
  · obtain ⟨h1, h2, h3, h4, h5⟩ := hr (appendByte b s)
    exact ⟨h5, .inr ⟨h, by rw [h1]; rfl, b, storedByte_of_fields (storedByte_appendByte b s) h2 h3 h4 h5⟩⟩

/-- Reading bits before does not matter. -/
theorem appendsAtMostOne_window {s w t : State} (hw : w = s.withWindow w) (h : AppendsAtMostOne w t) : AppendsAtMostOne s t := by
  have e1 : w.ocur = s.ocur := by rw [hw]; rfl
  have e2 : w.out = s.out := by rw [hw]; rfl
  have e3 : w.src = s.src := by rw [hw]; rfl
  have e4 : w.cfg = s.cfg := by rw [hw]; rfl
  have e5 : w.tainted = s.tainted := by rw [hw]; rfl
  have e6 : w.dsize = s.dsize := by rw [hw]; rfl
  have e7 : w.outAddr = s.outAddr := by rw [hw]; rfl
  obtain ⟨hc, ⟨h1, h2⟩ | ⟨h1, h2, b, h3⟩⟩ := h
  · exact ⟨hc.trans e4, .inl ⟨h1.trans e1, h2.trans e2⟩⟩
  · rw [e1, e6] at h1; rw [e1] at h2; rw [e7] at h3
    exact ⟨hc.trans e4, .inr ⟨h1, h2, b, storedByte_of_fields' h3 e3.symm e2.symm e5.symm e4.symm⟩⟩

/-- An element's meaning appends at most one byte. -/
theorem exec_appendsAtMostOne {i : Instr} {s t : State} (hi : encodeBus i = none) (e : exec i s = .next t) : AppendsAtMostOne s t := by
  have go : ∀ {k : Nat} {rest : State → State}, readThen k s rest = .next t → (∀ w, AppendsAtMostOne w (rest w)) → AppendsAtMostOne s t := by
    intro k rest e hr
    exact readThen_keeps e (P := AppendsAtMostOne) fun w _ hw => appendsAtMostOne_window hw (hr w)
  have triv : ∀ {s t : State}, t.cfg = s.cfg → t.ocur = s.ocur → t.out = s.out → AppendsAtMostOne s t := fun a b c => ⟨a, .inl ⟨b, c⟩⟩
  cases i <;> simp only [encodeBus, reduceCtorEq] at hi <;> simp only [exec] at e
  case tbuildL =>
    simp only [execTbuildL] at e; split at e <;> cases e <;> exact triv rfl rfl rfl
  case tbuildS =>
    simp only [execTbuildS] at e; split at e <;> cases e <;> exact triv rfl rfl rfl
  case copy =>
    simp only [execCopy, Host.Outcome.next.injEq] at e; subst e
    exact appendsAtMostOne_append _ _ _ fun u => ⟨rfl, rfl, rfl, rfl, rfl⟩
  case xbLen k x =>
    simp only [execXbLen] at e; split at e
    · cases e
    · exact go e fun u => triv rfl rfl rfl
  case xbDist k x =>
    simp only [execXbDist] at e; split at e
    · cases e
    · exact go e fun u => triv rfl rfl rfl
  case tcnt w c => exact go e fun u => by split <;> exact triv rfl rfl rfl
  case lbyte b => exact go e fun u => appendsAtMostOne_append _ _ _ fun u => ⟨rfl, rfl, rfl, rfl, rfl⟩
  case symLit b => exact go e fun u => appendsAtMostOne_append _ _ _ fun u => ⟨rfl, rfl, rfl, rfl, rfl⟩
  case symBref v l =>
    refine go e fun u => ?_
    unfold startCopy; split
    · exact triv rfl rfl rfl
    · split <;> exact triv rfl rfl rfl
  case dsym v l =>
    refine go e fun u => ?_
    unfold startDistance; split
    · exact triv rfl rfl rfl
    · split <;> exact triv rfl rfl rfl
  all_goals exact go e fun u => triv rfl rfl rfl

/-- START leaves both memories alone. -/
theorem startRun_memories {s t : State} (e : startRun s = .next t) : t.src = s.src ∧ t.out = s.out ∧ t.cfg = s.cfg := by
  rcases startRun_cases s with ⟨-, e'⟩ | ⟨-, -, e'⟩ | ⟨-, -, -, e'⟩ | ⟨-, -, -, e'⟩ <;> rw [e'] at e <;> cases e <;> exact ⟨rfl, rfl, rfl⟩

end Sys2Proof.Machine
end

