-- ==== Sys2Proof/Laws/Invariant.lean ====
section
/-! SUPPORT. What keeps the invariant of a state (Safety.lean), operation by operation. -/

namespace Sys2Proof.Machine

/-- The invariant does not look at the window. -/
theorem inv_withWindow {s : State} (h : s.Inv) (w : State) : (s.withWindow w).Inv :=
  ⟨h.seqOk, h.flagsOk, h.memOk, h.addressRegsOk, h.outputOk, h.operandsOk, h.tablesOk, h.disjointOk⟩

/-- The invariant does not look at the turns. -/
theorem inv_afterTurn {s : State} (h : s.Inv) : s.afterTurn.Inv :=
  ⟨h.seqOk, h.flagsOk, h.memOk, h.addressRegsOk, h.outputOk, h.operandsOk, h.tablesOk, h.disjointOk⟩

/-- The invariant does not look at the draws. -/
theorem inv_draws {s : State} (h : s.Inv) (d : Nat) : ({ s with draws := d }).Inv :=
  ⟨h.seqOk, h.flagsOk, h.memOk, h.addressRegsOk, h.outputOk, h.operandsOk, h.tablesOk, h.disjointOk⟩

/-- moving to a busy sequencer state -/
theorem inv_seq {s : State} (h : s.Inv) (hb : s.run = .busy) (q : Seq) (hq : q ≠ .idle)
    (ho : ({ s with seq := q }).OperandsOk) : ({ s with seq := q }).Inv :=
  ⟨⟨fun _ => hq, fun _ => hb⟩, h.flagsOk, h.memOk, h.addressRegsOk, h.outputOk, ho, h.tablesOk, h.disjointOk⟩

/-- A BUSY run is not truncated. -/
theorem trunc_false {s : State} (h : s.Inv) (hb : s.run = .busy) : s.trunc = false := by
  have := h.flagsOk.2
  cases ht : s.trunc
  · rfl
  · have := this ht; rw [hb] at this; cases this

/-- Without an ERROR, ERR is none. -/
theorem err_none {s : State} (h : s.Inv) (hb : s.run ≠ .error) : s.err = .none := by
  have := h.flagsOk.1
  by_contra hc
  exact hb (this.1 hc)

/-- Raising an error keeps the invariant (60 R272). -/
theorem inv_raise {s : State} (h : s.Inv) (hb : s.trunc = false) {c : ErrCode} (hc : c ≠ .none) : (raiseErr c s).Inv := by
  refine ⟨?_, ⟨?_, ?_⟩, h.memOk, h.addressRegsOk, ?_, trivial, ?_, by simp [State.DisjointOk]⟩
  · simp [State.SeqOk]
  · simp [hc]
  · simp [hb]
  · simp [State.OutputOk]
  · simp [State.TablesOk]

/-- Append keeps the invariant if the rest of the step does (44 R220). -/
theorem inv_append {s : State} (h : s.Inv) (hb : s.run = .busy) (b : Byte) (rest : State → State)
    (hr : (appendByte b s).Inv → (rest (appendByte b s)).Inv) : (appendThen b s rest).Inv := by
  rcases appendThen_cases b s rest with ⟨-, e⟩ | ⟨hlt, e⟩
  · rw [e]
    have he := err_none h (by rw [hb]; decide)
    refine ⟨?_, ⟨?_, ?_⟩, h.memOk, h.addressRegsOk, ?_, trivial, ?_, by simp [State.DisjointOk]⟩
    · simp [State.SeqOk]
    · simp [he]
    · simp
    · simp [State.OutputOk]
    · simp [State.TablesOk]
  · rw [e]
    apply hr
    refine ⟨h.seqOk, h.flagsOk, memOk_outWrite h.memOk s.outAddr b rfl rfl rfl rfl, h.addressRegsOk, ?_, h.operandsOk, h.tablesOk, h.disjointOk⟩
    intro _
    show s.ocur + 1 ≤ s.dsize
    bv_omega

/-- Reading bits keeps the invariant. -/
theorem inv_of_tookBits {k : Nat} {s w : State} (h : s.Inv) (ht : TookBits k s w) : w.Inv := by
  rw [← withWindow_of_tookBits ht]; exact inv_withWindow h w

/-- A bit-reading step keeps the invariant if its rest does. -/
theorem readThen_inv {k : Nat} {s t : State} {rest : State → State} (h : s.Inv) (e : readThen k s rest = .next t)
    (hr : ∀ w, TookBits k s w → s.withWindow w = w → w.Inv → (rest w).Inv) : t.Inv := by
  obtain ⟨u, hu, rfl⟩ := readThen_next e
  have hw : TookBits k s (take k u) := ⟨u, hu, rfl⟩
  exact hr _ hw (withWindow_of_tookBits hw) (inv_of_tookBits h hw)

/-- Reading bits leaves STATE. -/
theorem withWindow_run {s w : State} (h : s.withWindow w = w) : w.run = s.run := by rw [← h]; rfl

/-- Reading bits leaves SEQ. -/
theorem withWindow_seq {s w : State} (h : s.withWindow w = w) : w.seq = s.seq := by rw [← h]; rfl

/-- START keeps the invariant (45 R241 to R243). -/
theorem startRun_inv {s t : State} (h : s.Inv) (e : startRun s = .next t) : t.Inv := by
  have hm : (initRun s).MemOk := by
    obtain ⟨⟨w1, w2, w3⟩, b1, b2, b3⟩ := h.memOk
    exact ⟨⟨w1, w2, List.Pairwise.nil⟩, b1, b2, by intro a ha; simp at ha⟩
  rcases startRun_cases s with ⟨-, e'⟩ | ⟨-, -, e'⟩ | ⟨-, -, -, e'⟩ | ⟨-, -, hov, e'⟩
  · rw [e'] at e; cases e; exact h
  · rw [e'] at e; cases e
    refine ⟨?_, ⟨?_, ?_⟩, hm, h.addressRegsOk, ?_, trivial, ?_, by simp [State.DisjointOk]⟩
    · simp [State.SeqOk]
    · simp
    · simp [initRun]
    · simp [State.OutputOk]
    · simp [State.TablesOk]
  · rw [e'] at e; cases e
  · rw [e'] at e; cases e
    refine ⟨⟨fun _ => by simp, fun _ => rfl⟩, ⟨?_, ?_⟩, hm, h.addressRegsOk, ?_, trivial, fun _ => ⟨emptyTable_ok 10, emptyTable_ok 8⟩, fun _ => hov⟩
    · simp [initRun]
    · simp [initRun]
    · intro _; show (0 : Word) ≤ s.dsize; bv_omega

/-- The host's commands keep the invariant. -/
theorem bus_inv {i : Instr} {s t : State} (h : s.Inv) (hi : encodeBus i ≠ none) (e : exec i s = .next t) : t.Inv := by
  cases i <;> simp only [encodeBus, ne_eq, not_true_eq_false] at hi <;> simp only [exec] at e
  case start => exact startRun_inv h e
  case regread off width =>
    simp only [execRegread, Host.Outcome.next.injEq] at e; subst e
    exact ⟨h.seqOk, h.flagsOk, h.memOk, h.addressRegsOk, h.outputOk, h.operandsOk, h.tablesOk, h.disjointOk⟩
  case reset =>
    simp only [execReset, Host.Outcome.next.injEq] at e; subst e
    refine ⟨by simp [State.SeqOk], ⟨by simp, by simp⟩, h.memOk, ⟨addrSpace_pos _, addrSpace_pos _⟩, by simp [State.OutputOk], trivial, by simp [State.TablesOk], by simp [State.DisjointOk]⟩
  case regwrite off width x =>
    unfold execRegwrite at e
    split at e
    · cases e; exact h
    · rename_i r hr
      rcases writeReg_cases r x s with ⟨-, -, e'⟩ | ⟨t', e', hf, hbusy, ha⟩
      · rw [e'] at e; exact startRun_inv h e
      · rw [e'] at e; cases e
        by_cases hb : s.run = .busy
        · rw [hbusy hb]; exact h
        · have hrun : t.run = s.run := by rw [hf]
          refine ⟨?_, ?_, ?_, ha h.addressRegsOk, ?_, ?_, ?_, fun h' => absurd (hrun ▸ h') hb⟩
          · rw [State.SeqOk, hrun]; rw [hf]; exact h.seqOk
          · rw [State.FlagsOk, hrun]; rw [hf]; exact h.flagsOk
          · exact memOk_of_fields h.memOk (by rw [hf]) (by rw [hf]) (by rw [hf]) (by rw [hf])
          · intro h'; rw [hrun] at h'; exact absurd h' hb
          · have : t.seq = .idle := by
              rw [hf]; show s.seq = .idle
              by_contra hc; exact hb (h.seqOk.2 hc)
            rw [State.OperandsOk, this]; trivial
          · intro h'; rw [hrun] at h'; exact absurd h' hb

/-- Marking an address keeps the invariant. -/
theorem inv_taint {s : State} (h : s.Inv) (a : Nat) : (taint a s).Inv := by
  have hm := memOk_taint h.memOk a
  have hf : taint a s = { s with tainted := (taint a s).tainted } := by unfold taint; split <;> rfl
  rw [hf] at hm ⊢
  exact ⟨h.seqOk, h.flagsOk, hm, h.addressRegsOk, h.outputOk, h.operandsOk, h.tablesOk, h.disjointOk⟩

/-- A write of output memory keeps the invariant. -/
theorem inv_out {s : State} (h : s.Inv) (a : Nat) (b : Byte) : ({ s with out := s.out.write (s.wrap a) b }).Inv :=
  ⟨h.seqOk, h.flagsOk, memOk_outWrite h.memOk a b rfl rfl rfl rfl, h.addressRegsOk, h.outputOk, h.operandsOk, h.tablesOk, h.disjointOk⟩

/-- A write of source memory keeps the invariant. -/
theorem inv_src {s : State} (h : s.Inv) (a : Nat) (b : Byte) : ({ s with src := s.src.write (s.wrap a) b }).Inv :=
  ⟨h.seqOk, h.flagsOk, memOk_srcWrite h.memOk a b rfl rfl rfl rfl, h.addressRegsOk, h.outputOk, h.operandsOk, h.tablesOk, h.disjointOk⟩

/-- Inv of a busy state from a busy state with the same rest. -/
theorem inv_busy {w t : State} (h : w.Inv) (hb : w.run = .busy) (hq : t.seq ≠ .idle) (ho : t.OperandsOk)
    (ht : TableOk t.largeTable ∧ TableOk t.smallTable)
    (e : t = { w with seq := t.seq, litrem := t.litrem, tcount := t.tcount, tidx := t.tidx, lidx := t.lidx, didx := t.didx,
                      copyrem := t.copyrem, dist := t.dist, lens := t.lens, lp := t.lp, lo := t.lo, sp := t.sp, so := t.so }) : t.Inv := by
  have h1 : t.run = w.run := by rw [e]
  have h2 : t.err = w.err := by rw [e]
  have h3 : t.trunc = w.trunc := by rw [e]
  refine ⟨⟨fun _ => hq, fun _ => by rw [h1, hb]⟩, ?_, memOk_of_fields h.memOk (by rw [e]) (by rw [e]) (by rw [e]) (by rw [e]), ?_, ?_, ho, fun _ => ht, by rw [e]; exact h.disjointOk⟩
  · have := h.flagsOk; simpa [State.FlagsOk, h1, h2, h3] using this
  · rw [e]; exact h.addressRegsOk
  · rw [e]; exact h.outputOk

/-- The operands of a state whose SEQ is known. -/
theorem operandsOk_seq {t : State} {q : Seq} (h : t.seq = q) (ho : ({ t with seq := q }).OperandsOk) : t.OperandsOk := by
  subst h; exact ho

/-- A back-reference symbol keeps the invariant (43 R194). -/
theorem startCopy_inv {w : State} {i : Nat} (hlt : i < 256) (hi : w.Inv) (hb : w.run = .busy) : (startCopy i w).Inv := by
  unfold startCopy
  cases hr : w.lengthRow? i with
  | none => exact inv_raise hi (trunc_false hi hb) (by decide)
  | some r =>
    simp only
    split
    · refine inv_busy hi hb (by simp) ?_ (hi.tablesOk hb) rfl
      refine ⟨r, ?_, ‹_›⟩
      show w.lengthRow? (BitVec.ofNat 8 i).toNat = some r
      rw [BitVec.toNat_ofNat, Nat.mod_eq_of_lt (by omega)]; exact hr
    · refine inv_busy hi hb (by simp) ?_ (hi.tablesOk hb) rfl
      show 3 ≤ (copyCount r 0).toNat
      rw [copyCount_toNat]; omega

/-- A distance symbol keeps the invariant (43 R196). -/
theorem startDistance_inv {w : State} {d : BitVec 9} (hi : w.Inv) (hb : w.run = .busy) (hc : 3 ≤ w.copyrem.toNat) : (startDistance d w).Inv := by
  unfold startDistance
  cases hr : w.distRow? d.toNat with
  | none => exact inv_raise hi (trunc_false hi hb) (by decide)
  | some r =>
    simp only
    split
    · refine inv_busy hi hb (by simp) ?_ (hi.tablesOk hb) rfl
      exact ⟨hc, r, hr, ‹_›⟩
    · refine inv_busy hi hb (by simp) ?_ (hi.tablesOk hb) rfl
      refine ⟨?_, ?_⟩
      · show 1 ≤ w.copyrem.toNat; omega
      · show 1 ≤ (copyDistance r 0).toNat
        rw [copyDistance_toNat]; omega

/-- A length entry keeps the invariant (41 R134, R135). -/
theorem afterLen_inv {w : State} (hi : w.Inv) (hb : w.run = .busy) (tb : Tbl) (l : CodeLen) (ht : w.tidx < w.tcount) : (afterLen tb (storeLen l w)).Inv := by
  have hlt := w.tcount.isLt
  refine inv_busy hi hb ?_ ?_ (hi.tablesOk hb) rfl
  · simp only [afterLen]; split <;> simp
  · by_cases h : w.tidx + 1 = w.tcount
    · refine operandsOk_seq (q := .tbuild tb) (if_pos h) ⟨h, ?_⟩
      show w.tcount ≠ 0
      bv_omega
    · refine operandsOk_seq (q := .tflag tb) (if_neg h) ?_
      show w.tidx + 1 < w.tcount
      bv_omega

end Sys2Proof.Machine
end

