-- ==== Sys2Proof/Laws/Run.lean ====
section
/-! SUPPORT. Runs of several steps, and the turns of the load sequence (45_host_commands.md R251). -/

namespace Sys2Proof.Machine

/-- A run of k + 1 steps whose first answers a next state. -/
theorem run_next {k : Nat} {s t : State} (h : step s = .next t) : Host.Core.run Sys2Proof.core (k+1) s = Host.Core.run Sys2Proof.core k t := by
  have h' : Sys2Proof.core.step s = .next t := h
  refine (Host.Core.run.eq_2 Sys2Proof.core s k).trans ?_
  rw [h']

/-- A turn that writes a register other than CTRL. -/
theorem step_regWrite {s : State} {r : Reg} {x : Word} {rest : List Turn} (hr : r ≠ .ctrl) (ht : s.turns = regWriteTurn r x :: rest) :
    step s = writeReg r x { s with turns := rest } := by
  simp only [step, ht, regWriteTurn, decodeBus]
  have : ¬ (regOffset r = 0 ∧ True ∧ x.getLsbD 0 = true) := by
    rintro ⟨h, -, -⟩; cases r <;> simp [regOffset] at h hr
  rw [if_neg this]; simp only [exec, execRegwrite, regAt_regOffset]

end Sys2Proof.Machine
end

