-- ==== Sys2Proof/Laws/Container.lean ====
section
/-! SUPPORT. The host software around the engine (45_host_commands.md R246 to R248). -/

namespace Sys2Proof.Machine

/-- Four bytes as one word, as arithmetic. -/
theorem append4_toNat (a b c d : Byte) : (a ++ b ++ c ++ d : Word).toNat = d.toNat + 2 ^ 8 * c.toNat + 2 ^ 16 * b.toNat + 2 ^ 24 * a.toNat := by
  simp only [BitVec.toNat_append]
  rw [Nat.shiftLeft_eq, Nat.mul_comm, ← Nat.two_pow_add_eq_or_of_lt d.isLt, Nat.shiftLeft_eq, Nat.mul_comm _ (2^8), ← Nat.two_pow_add_eq_or_of_lt c.isLt, Nat.shiftLeft_eq, Nat.mul_comm _ (2^8), ← Nat.two_pow_add_eq_or_of_lt b.isLt]
  ring

/-- bswap32 reverses the bytes (45 R246). -/
theorem bswap_append (a b c d : Byte) : bswap32 (a ++ b ++ c ++ d : Word) = d ++ c ++ b ++ a := by
  have ha := a.isLt; have hb := b.isLt; have hc := c.isLt; have hd := d.isLt
  unfold bswap32
  congr 1
  · congr 1
    · congr 1 <;> (apply BitVec.eq_of_toNat_eq; rw [BitVec.extractLsb'_toNat, append4_toNat, Nat.shiftRight_eq_div_pow]; omega)
    · apply BitVec.eq_of_toNat_eq; rw [BitVec.extractLsb'_toNat, append4_toNat, Nat.shiftRight_eq_div_pow]; omega
  · apply BitVec.eq_of_toNat_eq; rw [BitVec.extractLsb'_toNat, append4_toNat, Nat.shiftRight_eq_div_pow]; omega

/-- The scanner records where it parsed (45 R247). -/
theorem parseAtOffset_offset {h : List Byte} {q : Nat} {o : OffsetHeader} (e : parseAtOffset h q = .ok o) : o.offset = q := by
  unfold parseAtOffset at e; split at e <;> cases e; rfl

/-- A scan that succeeds has a parsed match in front of a successful rest. -/
theorem consMatch_ok {m : HostResult OffsetHeader} {rest : HostResult (List OffsetHeader)} {hs : List OffsetHeader} (h : consMatch m rest = .ok hs) :
    ∃ o os, m = .ok o ∧ rest = .ok os ∧ hs = o :: os := by
  unfold consMatch at h
  split at h
  · cases h
  · cases h
  · split at h
    · cases h; exact ⟨_, _, rfl, rfl, rfl⟩
    · cases h
    · cases h

/-- A word is its four bytes. -/
theorem eq_of_bytes (x : Word) :
    (x.extractLsb' 24 8 ++ x.extractLsb' 16 8 ++ x.extractLsb' 8 8 ++ x.extractLsb' 0 8 : Word) = x := by
  have := x.isLt
  apply BitVec.eq_of_toNat_eq
  simp only [append4_toNat, BitVec.extractLsb'_toNat, Nat.shiftRight_eq_div_pow]
  omega

/-- A size field read back from its bytes, in either byte order (45 R246). -/
theorem sizeField_of_bytes (x : Word) :
    sizeField (x.extractLsb' 0 8) (x.extractLsb' 8 8) (x.extractLsb' 16 8) (x.extractLsb' 24 8) false = x ∧
      sizeField (x.extractLsb' 24 8) (x.extractLsb' 16 8) (x.extractLsb' 8 8) (x.extractLsb' 0 8) true = x :=
  ⟨eq_of_bytes x, (bswap_append _ _ _ _).trans (eq_of_bytes x)⟩

/-- The fields after a magic come back from their bytes (45 R246). -/
theorem parseFields_sizeBytes (mask b0 b1 b2 flag : Byte) (c d : Word) (more : List Byte) :
    parseFields mask (b0 :: b1 :: b2 :: flag :: (sizeBytes flag c ++ sizeBytes flag d ++ more)) =
      .ok { compressionType := flag &&& mask, big := decide (128 ≤ flag.toNat)
            csize := BitVec.ofNat 64 c.toNat, dsize := BitVec.ofNat 64 d.toNat } := by
  have hb := bigEndian_bit flag
  have w64 : ∀ x : Word, x.setWidth 64 = BitVec.ofNat 64 x.toNat := fun x => BitVec.eq_of_toNat_eq (by simp)
  unfold sizeBytes
  by_cases h : 128 ≤ flag.toNat
  · simp only [h, if_true, List.reverse_cons, List.reverse_nil, List.nil_append, List.cons_append, parseFields, hb,
      decide_true, (sizeField_of_bytes _).2, w64]
  · simp only [h, if_false, List.nil_append, List.cons_append, parseFields, hb, decide_false, (sizeField_of_bytes _).1, w64]

/-- Fewer bytes than a header are refused (log 26). -/
theorem parseFields_short (mask : Byte) {h : List Byte} (hl : h.length < 12) : parseFields mask h = .refused .shortHeader := by
  unfold parseFields
  split
  · simp at hl; omega
  · rfl

/-- Fewer than 3 bytes end a scan (45 R248). -/
theorem scan_short {bytes : List Byte} (h : bytes.length < 3) (p : Nat) : scan bytes p = .ok [] := by
  unfold scan
  split
  · simp at h; omega
  · rfl

/-- A byte that is not `E` is passed over (45 R248). -/
theorem scan_skip {b : Byte} (h : b ≠ 0x45) (more : List Byte) (p : Nat) : scan (b :: more) p = scan more (p + 1) := by
  match more with
  | b1 :: b2 :: rest => rw [scan, if_pos h]
  | [] | [_] => rw [scan_short (by simp), scan_short (by simp)]

end Sys2Proof.Machine
end

