-- ==== Sys2Proof/Laws/HostMemory.lean ====
section
/-! SUPPORT. The host's own memory accesses (20_memory.md R68, R72, R74): what a write marks, what a source write leaves, what
a read answers. -/

namespace Sys2Proof.Machine

/-- Marking an address changes the marks at most, and never the memory (20 R74(a)). -/
theorem taint_frame (a : Nat) (s : State) : taint a s = { s with tainted := (taint a s).tainted } := by
  unfold taint; split <;> rfl

/-- What is marked after a write: what was, and the address itself inside the payload window of a run. -/
theorem mem_taint {a x : Nat} {s : State} :
    x ∈ (taint a s).tainted ↔
      x ∈ s.tainted ∨ (x = s.wrap a ∧ s.run = .busy ∧ s.inPayloadWindow (s.wrap a) = true) := by
  unfold taint
  split
  · rename_i h
    simp only [mem_addAddress, h, and_true]; tauto
  · rename_i h
    exact ⟨.inl, fun h' => h'.elim id fun h' => absurd h'.2 h⟩

/-- A byte is open at a marked address, and otherwise what the memory holds. -/
theorem srcByte?_eq (s : State) (a : Nat) :
    s.srcByte? a = if s.wrap a ∈ s.tainted then none else s.srcMem.read? (s.wrap a) := rfl

/-- START's clearing leaves the source memory as it is, with no address marked (20 R72(a)). -/
theorem srcByte?_initRun (s : State) (a : Nat) : (initRun s).srcByte? a = s.srcMem.read? (s.wrap a) := rfl

/-- A write of the source memory, then the mark, is a source write (20 R74(a), log 15). -/
theorem sourceWritten_taint {s u : State} {a : Nat} {b : Byte} (h1 : u.tainted = s.tainted) (h2 : u.run = s.run)
    (h3 : u.pbase = s.pbase) (h4 : u.plimit = s.plimit) (h5 : u.cfg = s.cfg)
    (hm : u.srcMem = s.srcMem.write (s.wrap a) b) : SourceWritten s (taint a u) a b := by
  have hw : ∀ x, u.wrap x = s.wrap x := fun x => by simp [State.wrap, h5]
  have hw' : ∀ x, (taint a u).wrap x = s.wrap x := fun x => by rw [taint_frame]; exact hw x
  have hm' : (taint a u).srcMem = s.srcMem.write (s.wrap a) b := by rw [taint_frame]; exact hm
  have hp : u.inPayloadWindow (u.wrap a) = s.inPayloadWindow (s.wrap a) := by
    simp [State.inPayloadWindow, State.wrap, h3, h4, h5]
  refine ⟨?_, ?_, ?_, fun a' ha => ?_⟩
  · rw [mem_taint, hp, h1, h2, hw]; tauto
  · rw [srcByte?_eq, hw', hm', Memory.read?_write_same]
  · rw [srcByte?_initRun, hw', hm', Memory.read?_write_same]
  · have : s.wrap a' ∈ (taint a u).tainted ↔ s.wrap a' ∈ s.tainted := by
      rw [mem_taint, h1, hw]; exact ⟨fun h => h.elim id fun h => absurd h.1 ha, .inl⟩
    simp only [srcByte?_eq, hw', hm', this, Memory.read?_write_other _ b ha]

/-- Everything a host read of output can do: while BUSY a draw, otherwise the byte there (20 R68, R72). -/
theorem hostOutRead_cases (a : Nat) (s : State) :
    (s.run = .busy ∧
      hostOutRead a s = .next { s with draws := s.draws + 1, mdata := Config.freeByte s.draws }) ∨
    (s.run ≠ .busy ∧ hostOutRead a s = .next { s with mdata := outRead a s }) := by
  unfold hostOutRead
  by_cases h : s.run = .busy
  · exact .inl ⟨h, if_pos h⟩
  · exact .inr ⟨h, if_neg h⟩

/-- A host read of output changes the draws and what the host received, nothing else. -/
theorem hostOutRead_frame {a : Nat} {s t : State} (h : hostOutRead a s = .next t) :
    t = { s with draws := t.draws, mdata := t.mdata } := by
  rcases hostOutRead_cases a s with ⟨-, e⟩ | ⟨-, e⟩ <;> rw [e] at h <;> cases h <;> rfl

end Sys2Proof.Machine
end

