-- ==== Sys2Proof/Laws/HostRun.lean ====
section
/-! SUPPORT. The host's run of the engine (45_host_commands.md R251): turns one after the other, placing the container, reading
registers and output back, what a poll makes of STATUS. -/

namespace Sys2Proof.Machine

/-- A turn whose step answers a next state, then the rest. -/
theorem runTurns_cons {t : Turn} {ts : List Turn} {s u : State} (h : step { s with turns := [t] } = .next u) :
    runTurns (t :: ts) s = runTurns ts u := by
  rw [runTurns, h]

/-- Turns that answer a next state, then the rest. -/
theorem runTurns_append {xs ys : List Turn} {s u : State} (h : runTurns xs s = .next u) :
    runTurns (xs ++ ys) s = runTurns ys u := by
  induction xs generalizing s with
  | nil => cases h; rfl
  | cons t ts ih =>
    rw [runTurns] at h
    split at h
    · rename_i v hv; rw [List.cons_append, runTurns_cons hv]; exact ih h
    · cases h
    · cases h

/-- A register read of the host answers that register and changes nothing else (45 R244). -/
theorem runTurns_regRead (r : Reg) (s : State) :
    runTurns [regReadTurn r] s = .next { s with turns := [], rdata := readReg r s } := by
  have h : regAt (regOffset r) 32 = some r := regAt_regOffset r
  have : step { s with turns := [regReadTurn r] } = .next { s with turns := [], rdata := readReg r s } := by
    simp only [step, regReadTurn, decodeBus, exec, execRegread, readWindow, h]
    cases r <;> rfl
  rw [runTurns_cons this]; rfl

/-- A register write of the host to a register other than CTRL (45 R240). -/
theorem step_regWriteTurn {r : Reg} (hr : r ≠ .ctrl) (x : Word) (s : State) :
    step { s with turns := [regWriteTurn r x] } = writeReg r x { s with turns := [] } :=
  step_regWrite hr rfl

/-- Outside a run the host reads back the bytes of output memory, in order (20 R68, R72(b)). -/
theorem readBack_spec (n a : Nat) (got : List Byte) {s : State} (hb : s.run ≠ .busy) (ht : s.turns = []) :
    ∃ u, u = { s with mdata := u.mdata } ∧
      readBack n a got s = .returned (.ok (got ++ (List.range n).map fun i => outRead (a + i) s)) u := by
  induction n generalizing a got s with
  | zero => exact ⟨s, rfl, by simp [readBack]⟩
  | succ n ih =>
    have h1 : step { s with turns := [.outRead a] } = .next { s with mdata := outRead a s } := by
      have : outRead a { s with turns := [] } = outRead a s := outRead_of_fields a rfl rfl
      simp [step, hostOutRead, hb, this]
      exact ht
    obtain ⟨u, hu, h2⟩ := ih (a + 1) (got ++ [outRead a s]) (s := { s with mdata := outRead a s }) hb ht
    refine ⟨u, hu, ?_⟩
    rw [readBack, runTurns_cons h1]
    refine h2.trans ?_
    have e : ∀ i, outRead (a + 1 + i) { s with mdata := outRead a s } = outRead (a + (i + 1)) s := fun i => by
      rw [Nat.add_right_comm, Nat.add_assoc]; exact outRead_of_fields _ rfl rfl
    rw [List.range_succ_eq_map]
    simp [e, Function.comp_def]

/-- What a poll makes of STATUS (45 R251): nothing while the run goes on, then success or the error ERR names. -/
theorem pollVerdict_status (s : State) :
    pollVerdict s.status = match s.run with
      | .idle | .busy => none
      | .done => some (.ok ())
      | .error => some (match s.err with
        | .none => .refused .reservedErrorCode
        | .unsupportedCompressionType => .fail .unsupportedCompressionType
        | .invalidTableEntry => .fail .invalidTableEntry
        | .sampleOverflow => .fail .sampleOverflow
        | .internalFailure => .fail .internalFailure) := by
  unfold State.status
  cases s.run <;> cases s.trunc <;> cases s.ovr <;> cases s.err <;> decide

/-- Outside a run the host places bytes one by one: they are there, and nothing else of the source memory changes
(45 R251). -/
theorem placeBytes_spec (a : Nat) (bs : List Byte) {s : State} (hb : s.run ≠ .busy) (hl : bs.length ≤ s.cfg.addrSpace) :
    ∃ u, runTurns (placeBytes a bs) s = .next u ∧ u = { s with src := u.src, out := u.out, turns := u.turns } ∧
      (s.cfg.oneMemory = false → u.out = s.out) ∧
      (∀ (i : Nat) (hi : i < bs.length), u.srcMem.read? (s.wrap (a + i)) = some bs[i]) ∧
      ∀ x, (∀ i, i < bs.length → x ≠ s.wrap (a + i)) → u.srcMem.read? x = s.srcMem.read? x := by
  induction bs generalizing a s with
  | nil => exact ⟨s, rfl, rfl, fun _ => rfl, fun i hi => absurd hi (Nat.not_lt_zero i), fun _ _ => rfl⟩
  | cons b bs ih =>
    obtain ⟨v, hv, hf, ho, hm⟩ : ∃ v, step { s with turns := [.srcWrite a b] } = .next v ∧
        v = { s with src := v.src, out := v.out, turns := v.turns } ∧ (s.cfg.oneMemory = false → v.out = s.out) ∧
        v.srcMem = s.srcMem.write (s.wrap a) b := by
      have hr : ∀ q : State, q.run = s.run → q.hostWriteRefused a = false := fun q h => by
        simp [State.hostWriteRefused, h, hb]
      have htn : ∀ q : State, q.run = s.run → taint a q = q := fun q h => if_neg fun h' => hb (h ▸ h'.1)
      cases hone : s.cfg.oneMemory
      · refine ⟨{ s with turns := [], src := s.src.write (s.wrap a) b }, ?_, rfl, fun _ => rfl, ?_⟩
        · simp only [step, hostSrcWrite, hone, Bool.false_eq_true, if_false]
          exact congrArg Host.Outcome.next (htn { s with turns := [], src := s.src.write (s.wrap a) b } rfl)
        · simp [State.srcMem, hone]
      · refine ⟨{ s with turns := [], out := s.out.write (s.wrap a) b }, ?_, rfl, fun h => (nomatch h), ?_⟩
        · simp only [step, hostSrcWrite, hone, if_true, hr { s with turns := [] } rfl, Bool.false_eq_true, if_false]
          exact congrArg Host.Outcome.next (htn { s with turns := [], out := s.out.write (s.wrap a) b } rfl)
        · simp [State.srcMem, hone]
    have hc : v.cfg = s.cfg := by rw [hf]
    have hw : ∀ x, v.wrap x = s.wrap x := fun x => by simp [State.wrap, hc]
    simp only [List.length_cons] at hl
    obtain ⟨u, h1, h2, h3, h4, h5⟩ := ih (a + 1) (s := v) (by rw [hf]; exact hb) (by rw [hc]; omega)
    refine ⟨u, by rw [placeBytes, runTurns_cons hv, h1], by rw [h2, hf], fun h => by rw [h3 (by rw [hc]; exact h), ho h],
      fun i hi => ?_, fun x hx => ?_⟩
    · cases i with
      | zero =>
        rw [Nat.add_zero, h5, hm, Memory.read?_write_same]; rfl
        intro i hi h
        rw [hw] at h
        have h' : 0 ≡ i + 1 [MOD s.cfg.addrSpace] := Nat.ModEq.add_left_cancel' a (by rw [Nat.add_zero, Nat.add_comm i 1, ← Nat.add_assoc]; exact h)
        rw [Nat.ModEq, Nat.mod_eq_of_lt (by omega), Nat.mod_eq_of_lt (by omega)] at h'
        omega
      | succ i =>
        have := h4 i (by simpa using hi)
        rw [hw, Nat.add_assoc, Nat.add_comm 1 i] at this
        exact this
    · rw [h5 x fun i hi => by rw [hw, Nat.add_assoc, Nat.add_comm 1 i]; exact hx (i + 1) (by simp; omega), hm]
      exact Memory.read?_write_other _ _ (by have := hx 0 (by simp); simpa using this)

end Sys2Proof.Machine
end

