-- ==== Sys2Proof/Laws/PerInstr.lean ====
section
/-! SUPPORT. Per-instruction statements. Family `Width`: what the encoding of each row takes of the bitstream
(30_encoding.md R82, R94, R95). -/

namespace Sys2Proof.Laws.Width

/-- The row takes at most 32 payload bits; a host row takes none and has no payload bits, and its bus access decodes to
it; a row with a fixed layout has exactly its width in bits. -/
def Statement (i : Instr) : Prop :=
  i.width ≤ 32 ∧
    (∀ e, encodeBus i = some e → i.wf = true → i.width = 0 ∧ decodeBus e = i ∧ ∀ book, encode book i = []) ∧
    ((∀ v l, i ≠ .symLit v l) → (∀ l, i ≠ .symEnd l) → (∀ v l, i ≠ .symBref v l) → (∀ d l, i ≠ .dsym d l) →
      ∀ book, (encode book i).length = i.width)

theorem btLit : Statement .btLit :=
  ⟨Sys2Proof.Machine.width_le _, fun _ h => by simp [encodeBus] at h, fun _ _ _ _ _ => by simp [encode, Instr.width]⟩

theorem btTbl : Statement .btTbl :=
  ⟨Sys2Proof.Machine.width_le _, fun _ h => by simp [encodeBus] at h, fun _ _ _ _ _ => by simp [encode, Instr.width]⟩

theorem lcnt (n : BitVec 15) : Statement (.lcnt n) :=
  ⟨Sys2Proof.Machine.width_le _, fun _ h => by simp [encodeBus] at h, fun _ _ _ _ _ => by simp [encode, Instr.width]⟩

theorem lbyte (b : Byte) : Statement (.lbyte b) :=
  ⟨Sys2Proof.Machine.width_le _, fun _ h => by simp [encodeBus] at h, fun _ _ _ _ _ => by simp [encode, Instr.width]⟩

theorem tcnt (w : Tbl) (c : BitVec 9) : Statement (.tcnt w c) :=
  ⟨Sys2Proof.Machine.width_le _, fun _ h => by simp [encodeBus] at h, fun _ _ _ _ _ => by simp [encode, Instr.width]⟩

theorem len0 (w : Tbl) : Statement (.len0 w) :=
  ⟨Sys2Proof.Machine.width_le _, fun _ h => by simp [encodeBus] at h, fun _ _ _ _ _ => by simp [encode, Instr.width]⟩

theorem len (w : Tbl) : Statement (.len w) :=
  ⟨Sys2Proof.Machine.width_le _, fun _ h => by simp [encodeBus] at h, fun _ _ _ _ _ => by simp [encode, Instr.width]⟩

theorem lenNib (w : Tbl) (l : CodeLen) : Statement (.lenNib w l) :=
  ⟨Sys2Proof.Machine.width_le _, fun _ h => by simp [encodeBus] at h, fun _ _ _ _ _ => by simp [encode, Instr.width]⟩

theorem symLit (v : Byte) (l : CodeLen) : Statement (.symLit v l) :=
  ⟨Sys2Proof.Machine.width_le _, fun _ h => by simp [encodeBus] at h, fun h _ _ _ => absurd rfl (h _ _)⟩

theorem symEnd (l : CodeLen) : Statement (.symEnd l) :=
  ⟨Sys2Proof.Machine.width_le _, fun _ h => by simp [encodeBus] at h, fun _ h _ _ => absurd rfl (h _)⟩

theorem symBref (v : BitVec 9) (l : CodeLen) : Statement (.symBref v l) :=
  ⟨Sys2Proof.Machine.width_le _, fun _ h => by simp [encodeBus] at h, fun _ _ h _ => absurd rfl (h _ _)⟩

theorem xbLen (k : Fin 33) (x : Word) : Statement (.xbLen k x) :=
  ⟨Sys2Proof.Machine.width_le _, fun _ h => by simp [encodeBus] at h, fun _ _ _ _ _ => by simp [encode, Instr.width]⟩

theorem dsym (d : BitVec 9) (l : CodeLen) : Statement (.dsym d l) :=
  ⟨Sys2Proof.Machine.width_le _, fun _ h => by simp [encodeBus] at h, fun _ _ _ h => absurd rfl (h _ _)⟩

theorem xbDist (k : Fin 33) (y : Word) : Statement (.xbDist k y) :=
  ⟨Sys2Proof.Machine.width_le _, fun _ h => by simp [encodeBus] at h, fun _ _ _ _ _ => by simp [encode, Instr.width]⟩

theorem eob0 : Statement .eob0 :=
  ⟨Sys2Proof.Machine.width_le _, fun _ h => by simp [encodeBus] at h, fun _ _ _ _ _ => by simp [encode, Instr.width]⟩

theorem eob1 : Statement .eob1 :=
  ⟨Sys2Proof.Machine.width_le _, fun _ h => by simp [encodeBus] at h, fun _ _ _ _ _ => by simp [encode, Instr.width]⟩

theorem tbuildL : Statement .tbuildL :=
  ⟨Sys2Proof.Machine.width_le _, fun _ h => by simp [encodeBus] at h, fun _ _ _ _ _ => by simp [encode, Instr.width]⟩

theorem tbuildS : Statement .tbuildS :=
  ⟨Sys2Proof.Machine.width_le _, fun _ h => by simp [encodeBus] at h, fun _ _ _ _ _ => by simp [encode, Instr.width]⟩

theorem copy : Statement .copy :=
  ⟨Sys2Proof.Machine.width_le _, fun _ h => by simp [encodeBus] at h, fun _ _ _ _ _ => by simp [encode, Instr.width]⟩

theorem start : Statement .start :=
  ⟨by simp [Instr.width], fun e h _ => by cases h; exact ⟨rfl, rfl, fun _ => rfl⟩, fun _ _ _ _ _ => rfl⟩

theorem regwrite (off width : Nat) (x : Word) : Statement (.regwrite off width x) := by
  refine ⟨by simp [Instr.width], fun e h hw => ?_, fun _ _ _ _ _ => rfl⟩
  cases h
  refine ⟨rfl, if_neg ?_, fun _ => rfl⟩
  rintro ⟨rfl, rfl, hx⟩
  rw [Instr.wf, hx] at hw
  simp at hw

theorem regread (off width : Nat) : Statement (.regread off width) :=
  ⟨by simp [Instr.width], fun e h _ => by cases h; exact ⟨rfl, rfl, fun _ => rfl⟩, fun _ _ _ _ _ => rfl⟩

theorem reset : Statement .reset :=
  ⟨by simp [Instr.width], fun e h _ => by cases h; exact ⟨rfl, rfl, fun _ => rfl⟩, fun _ _ _ _ _ => rfl⟩

end Sys2Proof.Laws.Width
end

