-- ==== Sys2Proof/Tests/Slice0.lean ====
section
/-! SUPPORT. Tests of one step each, with values from spec/95_test_vectors.md and words written out from spec/30_encoding.md;
and for every obligation with hypotheses, a concrete state and operands that meet them (`witness_<name>`). -/

namespace Sys2Proof.Tests

-- one theorem at a time: many kernel evaluations at once need more threads than the sandbox has
set_option Elab.async false

open Sys2Proof Sys2Proof.Machine

/-! ### Well-formedness: one ill-formed term for each check -/

theorem test_wf_symBref_low : Instr.wf (.symBref 0x100 3) = false := by decide
theorem test_wf_symBref_high : Instr.wf (.symBref 0x1FF 3) = false := by decide
theorem test_wf_dsym_high : Instr.wf (.dsym 511 3) = false := by decide
theorem test_wf_xbLen_zero_width : Instr.wf (.xbLen 0 0) = false := by decide
theorem test_wf_xbLen_too_wide : Instr.wf (.xbLen 3 8) = false := by decide
theorem test_wf_xbDist_too_wide : Instr.wf (.xbDist 1 2) = false := by decide
theorem test_wf_regwrite_is_start : Instr.wf (.regwrite 0 32 1) = false := by decide
theorem test_wf_accepts : Instr.wf (.symBref 0x1FE 15) = true ∧ Instr.wf (.dsym 510 0) = true ∧
    Instr.wf (.xbLen 32 0xFFFFFFFF) = true ∧ Instr.wf (.regwrite 0 32 2) = true := by decide

/-! ### Decoding: bits in consumption order, from 30 R82 and the notation of 30 R92 -/

/-- The bits of a string of 0 and 1, first read first. -/
def bits (s : String) : List Bool := s.toList.map (· == '1')

/-- Table Large of P2 as the spec gives it: 0x100 with code `0`, 0x102 with code `1`. -/
def largeP2 : CodeTable 10 :=
  { primary := Vector.ofFn fun i => if i.val % 2 = 0 then 0x8001 else 0x8101, overflow := Vector.replicate _ 0 }

/-- The escape of SD-2: P[0x3FF] = 0x0090, O[2] = 0x250B. -/
def largeSD2 : CodeTable 10 :=
  { primary := (Vector.replicate _ 0).setIfInBounds 0x3FF 0x0090, overflow := (Vector.replicate _ 0).setIfInBounds 2 0x250B }

/-- Table Small of P2 as the spec gives it: symbol 1 with code `0`. -/
def smallP2 : CodeTable 8 :=
  { primary := Vector.ofFn fun i => if i.val % 2 = 0 then 0x0081 else 0, overflow := Vector.replicate _ 0 }

theorem test_decode_bt : decode .bt (windowOf (bits "0") []) = .ok .btLit ∧
    decode .bt (windowOf (bits "1") []) = .ok .btTbl := by decide +kernel
theorem test_decode_lcnt : decode .lcnt (windowOf (bits "101000000000001") (bits "11")) = .ok (.lcnt 0x4005) := by
  decide +kernel
theorem test_decode_lbyte : decode .lbyte (windowOf (bits "10000011") (bits "1")) = .ok (.lbyte 0xC1) := by decide +kernel
theorem test_decode_tcnt : decode (.tcnt .large) (windowOf (bits "110000001") (bits "1")) = .ok (.tcnt .large 259) := by
  decide +kernel
theorem test_decode_len : decode (.tflag .small) (windowOf (bits "0") (bits "1")) = .ok (.len0 .small) ∧
    decode (.tflag .small) (windowOf (bits "1") []) = .ok (.len .small) ∧
    decode (.tnib .large) (windowOf (bits "1001") (bits "1")) = .ok (.lenNib .large 9) := by decide +kernel
theorem test_decode_symbols : decode (.sym largeP2) (windowOf (bits "0") (bits "1")) = .ok (.symEnd 1) ∧
    decode (.sym largeP2) (windowOf (bits "1") []) = .ok (.symBref 0x102 1) ∧
    decode (.sym largeSD2) (windowOf (bits "11111111111") []) = .ok (.symLit 0x4A 11) := by decide +kernel
theorem test_decode_dsym : decode (.dsym smallP2) (windowOf (bits "0") (bits "1")) = .ok (.dsym 1 1) := by decide +kernel
theorem test_decode_extra : decode (.lextra 1) (windowOf (bits "1") (bits "1")) = .ok (.xbLen 1 1) ∧
    decode (.dextra 3) (windowOf (bits "110") (bits "1")) = .ok (.xbDist 3 3) := by decide +kernel
theorem test_decode_eob : decode .eob (windowOf (bits "0") (bits "1")) = .ok .eob0 ∧
    decode .eob (windowOf (bits "1") []) = .ok .eob1 := by decide +kernel
theorem test_decode_implicit : decode (.tbuild .large) 0 = .ok .tbuildL ∧ decode (.tbuild .small) 0 = .ok .tbuildS ∧
    decode .copy 0 = .ok .copy ∧ decode .idle 0 = .error .noElement := by decide +kernel
theorem test_decode_host : decodeBus (.write 0 32 0x80000001) = .start ∧ decodeBus (.write 0 32 2) = .regwrite 0 32 2 ∧
    decodeBus (.write 0 16 1) = .regwrite 0 16 1 ∧ decodeBus (.read 4 32) = .regread 4 32 ∧
    decodeBus .resetInput = .reset := by decide
/-- SD-3's shape: an unwritten slot is an escape of base 0 and depth 0. -/
theorem test_decode_unwritten_slot :
    decode (.sym { largeSD2 with overflow := largeSD2.overflow.setIfInBounds 0 0x240A }) (windowOf (bits "1111111110") []) =
      .ok (.symLit 0x48 10) := by decide +kernel
/-- The first 57 bits of P1's payload are its program's (95, P1). -/
theorem test_encode_p1 :
    let b : CodeBook := { large := [], small := [] }
    bitsToNat (encode b .btLit ++ encode b (.lcnt 5) ++ encode b (.lbyte 1) ++ encode b (.lbyte 2) ++ encode b (.lbyte 3) ++
      encode b (.lbyte 4) ++ encode b (.lbyte 5) ++ encode b .eob1) = 0x010504030201000A := by decide +kernel
/-- 95, P3: the stream codes of the large table. -/
theorem test_encode_symbol :
    symbolBits [2, 1, 3, 3] 0 = bits "10" ∧ symbolBits [2, 1, 3, 3] 1 = bits "0" ∧ symbolBits [2, 1, 3, 3] 2 = bits "110" ∧
      symbolBits [2, 1, 3, 3] 3 = bits "111" := by decide +kernel

/-! ### One step each -/

/-- Parameters with the candidate tables of 43 R199, as the vectors "under candidate tables" use (log 8). -/
def cfg : Config.Params := { Config.defaults with tables := Config.candidateTables }

/-- A BUSY state with a window that holds the whole payload, and 6 output bytes declared. -/
def run (q : Seq) (acc : Dword) (avail : Nat) : State :=
  { State.reset with
    run := .busy, seq := q, acc := acc, avail := BitVec.ofNat 64 avail, cursor := 8, plimit := 8, dsize := 6
    pbase := 0x1000, obase := 0x8000, cfg := cfg }

/-- The next step answers a state in which `p` holds. -/
def after (s : State) (p : State → Bool) : Bool :=
  match step s with
  | .next t => p t
  | .fault _ => false
  | .refused _ => false

/-- The payload of P1 at 0x1000, with the run at its first element. -/
def p1 : State :=
  { State.reset with
    run := .busy, seq := .bt, plimit := 8, dsize := 5, csize := 8, hdrflag := 1, pbase := 0x1000, obase := 0x8000, cfg := cfg
    src := [(0x1000, 0x0A), (0x1001, 0), (0x1002, 1), (0x1003, 2), (0x1004, 3), (0x1005, 4), (0x1006, 5), (0x1007, 1)] }

/-- 95, SQ-1 step 1: (CURSOR, AVAIL, OUT_LEN) = (4, 31, 0). -/
theorem test_btLit : after p1 (fun t => t.seq = .lcnt ∧ t.cursor = 4 ∧ t.avail = 31 ∧ t.ocur = 0) = true := by decide +kernel
theorem test_btTbl : after (run .bt 1 40) (fun t => t.seq = .tcnt .large ∧ t.avail = 39 ∧ t.acc = 0) = true := by
  decide +kernel
/-- 95, SQ-1 step 2: LCNT 5, (8, 48, 0). -/
theorem test_lcnt : after { p1 with seq := .lcnt, acc := 0x01000005, avail := 31, cursor := 4 }
    (fun t => t.seq = .lbyte ∧ t.litrem = 5 ∧ t.cursor = 8 ∧ t.avail = 48) = true := by decide +kernel
theorem test_lcnt_zero : after (run .lcnt 0x8000 40) (fun t => t.seq = .eob ∧ t.acc = 1) = true := by decide +kernel
/-- 95, SQ-1 step 3. -/
theorem test_lbyte : after { run .lbyte 0x010504030201 48 with litrem := 5 }
    (fun t => t.seq = .lbyte ∧ t.litrem = 4 ∧ t.ocur = 1 ∧ t.out = [(0x8000, 1)] ∧ t.avail = 40) = true := by decide +kernel
/-- 95, SQ-7: DSIZE 0, the byte is consumed and nothing written. -/
theorem test_lbyte_truncates : after { run .lbyte 0x010504030201 48 with litrem := 5, dsize := 0 }
    (fun t => t.run = .done ∧ t.trunc ∧ t.seq = .idle ∧ t.out = [] ∧ t.acc = 0x0105040302 ∧ t.litrem = 5) = true := by
  decide +kernel
theorem test_tcnt : after (run (.tcnt .large) 259 40) (fun t => t.seq = .tflag .large ∧ t.tcount = 259 ∧ t.tidx = 0) = true := by
  decide +kernel
/-- 95, SQ-3: a count of 0 keeps the table. -/
theorem test_tcnt_keep : after (run (.tcnt .small) 0x200 40) (fun t => t.seq = .sym ∧ t.acc = 1 ∧ t.tcount = 0) = true := by
  decide +kernel
theorem test_len0 : after { run (.tflag .small) 0 40 with tcount := 2, lens := Vector.replicate _ 7 }
    (fun t => t.seq = .tflag .small ∧ t.tidx = 1 ∧ t.lens[0] = 0 ∧ t.lens[1] = 7) = true := by decide +kernel
theorem test_len : after { run (.tflag .small) 1 40 with tcount := 2 } (fun t => t.seq = .tnib .small ∧ t.tidx = 0) = true := by
  decide +kernel
theorem test_lenNib_last : after { run (.tnib .large) 0x1F 40 with tcount := 3, tidx := 2 }
    (fun t => t.seq = .tbuild .large ∧ t.tidx = 3 ∧ t.lens[2] = 15 ∧ t.acc = 1) = true := by decide +kernel
/-- 95, SD-3: `1111111110`, 10 bits. -/
theorem test_symLit : after { run .sym 0x1FF 40 with
      lo := (Vector.replicate _ 0).setIfInBounds 0 0x240A }
    (fun t => t.seq = .sym ∧ t.out = [(0x8000, 0x48)] ∧ t.avail = 30) = true := by decide +kernel
/-- 95, SD-9: a zero-length resolution appends 00 and takes no bit. -/
theorem test_symLit_zero_length : after (run .sym 5 3)
    (fun t => t.seq = .sym ∧ t.out = [(0x8000, 0)] ∧ t.avail = 3 ∧ t.acc = 5) = true := by decide +kernel
theorem test_symEnd : after { run .sym 0 40 with lp := largeP2.primary } (fun t => t.seq = .eob ∧ t.avail = 39) = true := by
  decide +kernel
/-- 95, SD-4: COPYREM = 4. -/
theorem test_symBref : after { run .sym 1 40 with lp := largeP2.primary }
    (fun t => t.seq = .dsym ∧ t.copyrem = 4 ∧ t.avail = 39) = true := by decide +kernel
/-- 95, SD-7: i = 29 ≥ N12. -/
theorem test_symBref_past_table : after { run .sym 1 40 with lp := Vector.replicate _ 0x8F01 }
    (fun t => t.run = .error ∧ t.err = .internalFailure ∧ t.seq = .idle ∧ t.avail = 39) = true := by decide +kernel
/-- 95, SD-5: i = 9, extra bit 1, COPYREM = 14. -/
theorem test_xbLen : after { run .lextra 3 40 with lidx := 9 }
    (fun t => t.seq = .dsym ∧ t.copyrem = 14 ∧ t.avail = 39 ∧ t.acc = 1) = true := by decide +kernel
/-- 95, P2: DSYM 1, distance 2. -/
theorem test_dsym : after { run .dsym 0 40 with sp := smallP2.primary, copyrem := 4 }
    (fun t => t.seq = .copy ∧ t.dist = 2 ∧ t.avail = 39) = true := by decide +kernel
/-- 95, SD-8: d = 30 ≥ N34. -/
theorem test_dsym_past_table : after { run .dsym 0 40 with sp := Vector.replicate _ 0x0F01, copyrem := 4 }
    (fun t => t.run = .error ∧ t.err = .internalFailure ∧ t.avail = 39) = true := by decide +kernel
/-- 95, SD-6: d = 8, 3 extra bits 7, DIST = 24. -/
theorem test_xbDist : after { run .dextra 7 40 with didx := 8, copyrem := 13 }
    (fun t => t.seq = .copy ∧ t.dist = 24 ∧ t.avail = 37) = true := by decide +kernel
theorem test_eob0 : after (run .eob 2 40) (fun t => t.seq = .bt ∧ t.run = .busy ∧ t.acc = 1) = true := by decide +kernel
/-- 95, SQ-1 step 8: (8, 7, 5), DONE. -/
theorem test_eob1 : after (run .eob 1 8) (fun t => t.run = .done ∧ t.seq = .idle ∧ t.avail = 7 ∧ t.trunc = false) = true := by
  decide +kernel
/-- 95, TB-8: the large table of `[15, 15]`. -/
theorem test_tbuildL : after { run (.tbuild .large) 5 3 with tcount := 2, tidx := 2, lens := Vector.replicate _ 15 }
    (fun t => t.seq = .tcnt .small ∧ t.lp[0] = 0x0050 ∧ t.lo[0] = 0x000F ∧ t.lo[16] = 0x008F ∧ t.acc = 5) = true := by
  decide +kernel
/-- 95, TB-2: the small table of `[1, 9]`. -/
theorem test_tbuildS : after { run (.tbuild .small) 5 3 with
      tcount := 2, tidx := 2, lens := (Vector.replicate _ 9).setIfInBounds 0 1 }
    (fun t => t.seq = .sym ∧ t.sp[2] = 1 ∧ t.sp[1] = 0x0010 ∧ t.so[0] = 0x0089 ∧ t.so[1] = 0) = true := by decide +kernel
/-- 95, TB-5: 385 codes of length 15 need 512 slots. -/
theorem test_tbuildS_overflow : after { run (.tbuild .small) 5 3 with
      tcount := 385, tidx := 385, lens := Vector.replicate _ 15 }
    (fun t => t.run = .error ∧ t.err = .sampleOverflow ∧ t.seq = .idle) = true := by decide +kernel
/-- 95, CP-1, first byte: distance 2 back from `07 09`. -/
def copying : State :=
  { run .copy 0 3 with out := [(0x8000, 7), (0x8001, 9)], ocur := 2, copyrem := 4, dist := 2 }
theorem test_copy : after copying (fun t => t.seq = .copy ∧ t.copyrem = 3 ∧ t.ocur = 3 ∧
    t.out = [(0x8000, 7), (0x8001, 9), (0x8002, 7)]) = true := by decide +kernel
/-- 20 R68: two host reads in a row of an output byte never written answer the same. -/
theorem test_outRead_unwritten_twice :
    ∃ t u, step { copying with run := .done, turns := [.outRead 0x9000, .outRead 0x9000] } = .next t ∧ step t = .next u ∧
      u.mdata = t.mdata ∧ u.draws = t.draws ∧ u.out = t.out :=
  ⟨_, _, rfl, rfl, rfl, rfl, rfl⟩
/-- 95, CP-2, first byte: position -1 reads 0. -/
theorem test_copy_before_start : after { copying with dist := 3 } (fun t => t.outByte? 0x8002 = some 0 ∧ t.draws = 0) = true := by
  decide +kernel
/-- 95, H-9: START with HDRFLAG 0. -/
theorem test_start_other_type : after { State.reset with turns := [.bus (.write 0 32 1)] }
    (fun t => t.status = 0x103 ∧ t.ocur = 0 ∧ t.turns = []) = true := by decide +kernel
theorem test_start : after { p1 with run := .idle, seq := .idle, hdrflag := 0x81, turns := [.bus (.write 0 32 1)] }
    (fun t => t.run = .busy ∧ t.seq = .bt ∧ t.endianL ∧ t.plimit = 8) = true := by decide +kernel
/-- 95, H-10: a write while BUSY is ignored. -/
theorem test_regwrite_busy : after { p1 with turns := [.bus (.write 0x10 32 100)] } (fun t => t.dsize = 5) = true := by
  decide +kernel
theorem test_regwrite : after { State.reset with turns := [.bus (.write 0x18 32 0x12345678)] }
    (fun t => t.pbase = 0x1234567800000000) = true := by decide +kernel
/-- 95, H-12: AVAIL = -34 and STATUS 0xE. -/
theorem test_regread_avail : after { State.reset with avail := -34, turns := [.bus (.read 0x2C 32)] }
    (fun t => t.rdata = 0xFFFFFFDE) = true := by decide +kernel
theorem test_regread_status :
    after { State.reset with run := .done, trunc := true, ovr := true, turns := [.bus (.read 0x04 32)] }
      (fun t => t.rdata = 0xE) = true := by decide +kernel
theorem test_reset : after { p1 with turns := [.bus .resetInput] }
    (fun t => t.run = .idle ∧ t.seq = .idle ∧ t.dsize = 0 ∧ t.pbase = 0 ∧ t.src = p1.src) = true := by decide +kernel

/-- 95, BW-1 and BW-2: Refill in both byte orders. -/
def bw1 (big : Bool) : State :=
  { State.reset with
    acc := 0x1F, avail := 5, plimit := 4, endianL := big, src := [(0, 0xDD), (1, 0xCC), (2, 0xBB), (3, 0xAA)] }
theorem test_refill_little : (refill (bw1 false)).toOption.map (fun t => (t.acc, t.avail, t.cursor)) =
    some (0x1557799BBF, 37, 4) := by decide +kernel
theorem test_refill_big : (refill (bw1 true)).toOption.map (fun t => (t.acc, t.avail, t.cursor)) =
    some (0x1BB997755F, 37, 4) := by decide +kernel
/-- 95, BW-5 and BW-6: a partial word, then a Take past the valid bits. -/
theorem test_refill_partial_then_take :
    (refill { bw1 false with acc := 0, avail := 0, plimit := 2 }).toOption.map
      (fun t => (t.acc, t.avail, (take 20 t).acc, (take 20 t).avail, (take 20 t).ovr)) =
    some (0xAABBCCDD, 16, 0xAAB, -4, true) := by decide +kernel

/-- 95, H-1, H-2: headers of both byte orders. -/
theorem test_header : parseHeader .mask8F [0x45, 0x44, 0x4C, 0x81, 0, 0, 0, 8, 0, 0, 0, 5] =
    .ok { compressionType := 0x81, big := true, csize := 8, dsize := 5 } := by decide +kernel
/-- 95, H-6: no backtracking. -/
theorem test_scan_no_backtracking : scan [0x45, 0x44, 0x45, 0x44, 0x4C, 0, 0, 0, 0, 0, 0, 0, 0, 0] 0 = .ok [] := by decide +kernel
/-- 95, H-7: the store decoder. -/
theorem test_store : decompress .mask0F [0x45, 0x44, 0x4C, 0, 3, 0, 0, 0, 2, 0, 0, 0, 0xAA, 0xBB, 0xCC] 0 0 [] State.reset =
    .returned (.ok [0xAA, 0xBB]) State.reset := rfl

/-- Two rows as the first instruction after reset (log 12). -/
theorem test_first_instruction :
    decodeTableWord 8 1 = some .btTbl ∧ after (State.reset.withFetchWord 8 1) (fun t => t.seq = .tcnt .large) = true ∧
      decodeTableWord 8 0 = some .btLit ∧ after (State.reset.withFetchWord 8 0) (fun t => t.seq = .lcnt) = true := by
  decide +kernel

/-! ### Witnesses: for every obligation with hypotheses, a state and operands that meet them -/

/-- Whether a meaning or a step answers a next state. -/
def isNext (r : Result) : Bool :=
  match r with
  | .next _ => true
  | .fault _ => false
  | .refused _ => false

theorem next_of_isNext {r : Result} (h : isNext r = true) : ∃ t, r = .next t := by
  cases r with
  | next t => exact ⟨t, rfl⟩
  | fault f => cases h
  | refused f => cases h

theorem refillable_p1 : p1.Refillable := by unfold State.Refillable; decide +kernel
theorem refillable_run (q : Seq) (acc : Dword) (avail : Nat) : (run q acc avail).Refillable := fun h => by
  have : (8 : Word) < 8 := h
  exact absurd this (by decide)

theorem inv_p1 : p1.Inv where
  seqOk := by unfold State.SeqOk; decide
  flagsOk := by unfold State.FlagsOk; decide
  memOk := by simp [State.MemOk, Memory.wf, p1, cfg, Config.defaults, Config.Params.addrSpace, State.reset]
  addressRegsOk := by unfold State.AddressRegsOk; decide
  outputOk := by unfold State.OutputOk; decide
  operandsOk := trivial
  tablesOk := fun _ => ⟨emptyTable_ok 10, emptyTable_ok 8⟩
  disjointOk := fun _ => by decide +kernel

theorem window_p1 : p1.WindowOk ∧ p1.NoWrap := by unfold State.WindowOk State.NoWrap; decide +kernel
theorem payload_p1 : p1.HoldsPayload := fun _ =>
  ⟨fun _ => rfl, fun i h => by
    have : (i : Int) < 0 := h
    omega⟩

/-- The same run three elements later: the second literal byte is next, and the window holds the last 40 payload bits. -/
def p1Byte : State := { p1 with seq := .lbyte, acc := 0x0105040302, avail := 40, cursor := 8, ocur := 1, litrem := 4 }

theorem payload_p1Byte : p1Byte.HoldsPayload := by
  refine fun _ => ⟨fun h => absurd (show (8 : Word) < 8 from h) (by decide), fun i h => ?_⟩
  have key : ∀ i < 40, ∀ b : Bool, p1Byte.payloadBit? (p1Byte.bitpos + (i : Nat)).toNat = some b → p1Byte.acc.getLsbD i = b := by
    decide +kernel
  have : (i : Int) < 40 := h
  exact key i (by omega)

theorem inv_p1Byte : p1Byte.Inv :=
  ⟨by unfold State.SeqOk; decide, by unfold State.FlagsOk; decide, inv_p1.memOk, inv_p1.addressRegsOk,
    by unfold State.OutputOk; decide, by show 1 ≤ p1Byte.litrem.toNat; decide, inv_p1.tablesOk, inv_p1.disjointOk⟩

theorem window_p1Byte : p1Byte.WindowOk ∧ p1Byte.NoWrap := by unfold State.WindowOk State.NoWrap; decide +kernel

theorem inv_copying : copying.Inv where
  seqOk := by unfold State.SeqOk; decide
  flagsOk := by unfold State.FlagsOk; decide
  memOk := by simp [State.MemOk, Memory.wf, copying, run, cfg, Config.defaults, Config.Params.addrSpace, State.reset]
  addressRegsOk := by unfold State.AddressRegsOk; decide
  outputOk := by unfold State.OutputOk; decide
  operandsOk := by show 1 ≤ copying.copyrem.toNat ∧ 1 ≤ copying.dist.toNat; decide
  tablesOk := fun _ => ⟨emptyTable_ok 10, emptyTable_ok 8⟩
  disjointOk := fun _ => by decide +kernel

theorem engineNext_of_nil {s : State} (h : s.turns = []) : s.engineNext := .inl h

theorem witness_StepRunsTheDecodedInstruction :
    (p1.run = .busy ∧ p1.engineNext ∧ readsBits p1.seq = true ∧ contextOf p1.afterTurn = .ok .bt ∧
      ∃ u, refill p1.afterTurn = .ok u ∧ decode .bt u.acc = .ok .btLit) ∧
    (copying.run = .busy ∧ copying.engineNext ∧ readsBits copying.seq = false ∧ contextOf copying.afterTurn = .ok .copy ∧
      decode .copy copying.acc = .ok .copy) ∧
    ({ p1 with turns := [.bus (.read 4 32)] } : State).turns = .bus (.read 4 32) :: [] := by
  refine ⟨⟨rfl, .inl rfl, rfl, rfl, ?_⟩, ⟨rfl, .inl rfl, rfl, rfl, rfl⟩, rfl⟩
  exact ⟨_, rfl, by decide +kernel⟩

/-- Every sequencer state of a run, with the operands its element is read with. -/
theorem witness_EachSequencerStateReadsItsElement :
    (∀ q, (run q 0 40).run = .busy ∧ (run q 0 40).engineNext ∧ (run q 0 40).seq = q ∧
      ∃ u, refill (run q 0 40).afterTurn = .ok u) ∧
    (∃ r, ({ run .lextra 0 40 with lidx := 8 } : State).lengthRow? 8 = some r ∧ r.extra = 1) ∧
    (∃ r, ({ run .dextra 0 40 with didx := 29 } : State).distRow? 29 = some r ∧ r.extra = 13) ∧
    (∃ r, resolve ({ run .sym 0 40 with lp := largeP2.primary } : State).largeTable 0 = .ok r ∧ r.value = 0x100) ∧
    (∃ r, resolve ({ run .dsym 0 40 with sp := smallP2.primary } : State).smallTable 0 = .ok r ∧ r.value = 1) := by
  refine ⟨fun q => ⟨rfl, .inl rfl, rfl, refill_ok (refillable_run q 0 40)⟩, ⟨_, rfl, rfl⟩, ⟨_, rfl, rfl⟩, ⟨{ value := 0x100, len := 1 }, ?_, rfl⟩,
    ⟨{ value := 1, len := 1 }, ?_, rfl⟩⟩ <;> decide +kernel

theorem witness_IdleEngineTakesNoStep : State.reset.run ≠ .busy ∧ State.reset.engineNext := ⟨by decide, .inl rfl⟩

theorem witness_EveryStepKeepsTheInvariant : p1.Inv ∧ ∃ t, step p1 = .next t := ⟨inv_p1, next_of_isNext (by decide +kernel)⟩

theorem witness_EveryStepKeepsTheWindow : p1.Inv ∧ p1.WindowOk ∧ p1.NoWrap ∧ ∃ t, step p1 = .next t :=
  ⟨inv_p1, window_p1.1, window_p1.2, next_of_isNext (by decide +kernel)⟩

theorem witness_WindowHoldsThePayloadBits :
    (p1.Inv ∧ p1.WindowOk ∧ p1.NoWrap ∧ p1.HoldsPayload ∧ ∃ t, step p1 = .next t) ∧
    (p1Byte.Inv ∧ p1Byte.WindowOk ∧ p1Byte.NoWrap ∧ p1Byte.HoldsPayload ∧ ∃ t, step p1Byte = .next t) ∧
    p1Byte.payloadBit? 25 = some true :=
  ⟨⟨inv_p1, window_p1.1, window_p1.2, payload_p1, next_of_isNext (by decide +kernel)⟩,
    ⟨inv_p1Byte, window_p1Byte.1, window_p1Byte.2, payload_p1Byte, next_of_isNext (by decide +kernel)⟩, by decide +kernel⟩

/-- States of a run that meet the invariant: those whose output, operands and tables do. -/
theorem inv_run {s : State} (q : Seq) (hs : s.seq = q) (hq : q ≠ .idle) (hb : s.run = .busy)
    (hf : s.err = .none ∧ s.trunc = false) (hm : s.src = [] ∧ s.out = [] ∧ s.tainted = []) (hc : s.cfg = cfg)
    (hr : s.pbase = 0x1000 ∧ s.obase = 0x8000) (ho : s.ocur ≤ s.dsize) (hp : s.OperandsOk)
    (ht : TableOk s.largeTable ∧ TableOk s.smallTable) (hd : s.regionsOverlap = false) : s.Inv where
  seqOk := ⟨fun _ => hs ▸ hq, fun _ => hb⟩
  flagsOk := by simp [State.FlagsOk, hf, hb]
  memOk := by simp [State.MemOk, Memory.wf, hm]
  addressRegsOk := by simp [State.AddressRegsOk, hr, hc, cfg, Config.defaults, Config.Params.addrSpace]
  outputOk := fun _ => ho
  operandsOk := hp
  tablesOk := fun _ => ht
  disjointOk := fun _ => hd

/-- A symbol past the static tables, in a table as Build could leave it. -/
def pastTable : State := { run .sym 1 40 with lp := Vector.replicate _ 0x8F01 }
/-- 385 codes of length 15. -/
def tooLong : State := { run (.tbuild .small) 5 3 with tcount := 385, tidx := 385, lens := Vector.replicate _ 15 }
/-- A run that ends by an end-of-block bit of 1, by truncation, by each error, and by the reset input. -/
theorem witness_RunsEndOnlyByTheirCauses :
    ((run .eob 1 8).Inv ∧ (run .eob 1 8).run = .busy ∧ fetchInstr (run .eob 1 8).afterTurn = .ok .eob1 ∧
      after (run .eob 1 8) (fun t => t.run = .done ∧ t.trunc = false) = true) ∧
    (({ copying with dsize := 2 } : State).run = .busy ∧
      after { copying with dsize := 2 } (fun t => t.run = .done ∧ t.trunc) = true) ∧
    (tooLong.Inv ∧ tooLong.run = .busy ∧ after tooLong (fun t => t.run = .error ∧ t.err = .sampleOverflow) = true) ∧
    (pastTable.Inv ∧ pastTable.run = .busy ∧ after pastTable (fun t => t.run = .error ∧ t.err = .internalFailure) = true) ∧
    ({ p1 with turns := [.bus .resetInput] } : State).run = .busy ∧
      after { p1 with turns := [.bus .resetInput] } (fun t => t.run = .idle) = true := by
  refine ⟨⟨?_, rfl, by decide +kernel, by decide +kernel⟩, ⟨rfl, by decide +kernel⟩, ⟨?_, rfl, by decide +kernel⟩,
    ⟨?_, rfl, by decide +kernel⟩, rfl, by decide +kernel⟩
  · exact inv_run .eob rfl (by decide) rfl ⟨rfl, rfl⟩ ⟨rfl, rfl, rfl⟩ rfl ⟨rfl, rfl⟩ (by decide) trivial
      ⟨emptyTable_ok 10, emptyTable_ok 8⟩ (by decide +kernel)
  · exact inv_run (.tbuild .small) rfl (by decide) rfl ⟨rfl, rfl⟩ ⟨rfl, rfl, rfl⟩ rfl ⟨rfl, rfl⟩ (by decide)
      (show tooLong.tidx = tooLong.tcount ∧ tooLong.tcount ≠ 0 by decide) ⟨emptyTable_ok 10, emptyTable_ok 8⟩ (by decide +kernel)
  · refine inv_run .sym rfl (by decide) rfl ⟨rfl, rfl⟩ ⟨rfl, rfl, rfl⟩ rfl ⟨rfl, rfl⟩ (by decide) trivial
      ⟨⟨?_, (emptyTable_ok 10).2⟩, emptyTable_ok 8⟩ (by decide +kernel)
    intro e he
    obtain rfl : e = 0x8F01 := by
      simpa [pastTable, State.largeTable, Vector.toList_replicate, List.mem_replicate] using he
    unfold PrimaryOk; decide

theorem witness_NoStepFaults : p1.Inv ∧ p1.WindowOk := ⟨inv_p1, window_p1.1⟩

theorem witness_FetchedElementsAreWellFormed :
    copying.Inv ∧ copying.run = .busy ∧ fetchInstr copying = .ok .copy := ⟨inv_copying, rfl, rfl⟩

theorem witness_EngineStepsLeaveTheRunsInputs : p1.engineNext ∧ ∃ t, step p1 = .next t :=
  ⟨.inl rfl, next_of_isNext (by decide +kernel)⟩

theorem witness_EngineStepsWriteOnlyTheNextOutputByte :
    (p1.engineNext ∧ after p1 (fun t => t.ocur = p1.ocur) = true) ∧
    (copying.engineNext ∧ after copying (fun t => t.ocur = copying.ocur + 1) = true) :=
  ⟨⟨.inl rfl, by decide +kernel⟩, .inl rfl, by decide +kernel⟩

theorem witness_RowsThatStoreNothingLeaveTheMemories :
    (∃ t, exec .btLit p1 = .next t) ∧ (∃ t, exec (.regread 4 32) p1 = .next t) :=
  ⟨next_of_isNext (by decide +kernel), next_of_isNext (by decide +kernel)⟩

theorem witness_DecodeInvertsEncode :
    (∀ i ∈ [Instr.lcnt 32767, .tcnt .small 511, .xbLen 32 0xFFFFFFFF, .xbDist 1 1, .lenNib .large 15, .copy],
      i.wf = true ∧ encodeBus i = none ∧ (∀ v l, i ≠ .symLit v l) ∧ (∀ l, i ≠ .symEnd l) ∧ (∀ v l, i ≠ .symBref v l) ∧
        (∀ d l, i ≠ .dsym d l)) ∧
    ((Instr.regwrite 0 32 2).wf = true ∧ encodeBus (.regwrite 0 32 2) = some (.write 0 32 2)) := by
  simp [Instr.wf, wfExtra, encodeBus]

theorem witness_CanonicalCodesResolveToTheirSymbols :
    (8 = 10 ∨ 8 = 8) ∧ [(2 : CodeLen), 1, 3, 3].length ≤ 511 ∧ kraftSum [2, 1, 3, 3] ≤ 2 ^ 15 ∧
      (build 8 [2, 1, 3, 3]).toOption.isSome = true ∧ [(2 : CodeLen), 1, 3, 3][3] ≠ 0 := by decide +kernel

theorem witness_SourceReadsAreImageBytesOrDraws : p1.srcByte? 0x1007 = some 1 ∧ p1.srcByte? 0x1008 = none := by
  decide +kernel

/-- Inside and outside the payload window, with separate and with one memory; and a marked byte, before a START and after. -/
theorem witness_HostSourceWrites :
    (let s : State := { p1 with turns := [.srcWrite 0x100B 9] };
      s.turns = .srcWrite 0x100B 9 :: [] ∧ s.cfg.oneMemory = false ∧ s.run = .busy ∧
        s.inPayloadWindow (s.wrap 0x100B) = true ∧ s.wrap 0x1000 ≠ s.wrap 0x100B) ∧
    (let s : State := { p1 with turns := [.srcWrite 0x100C 9] };
      s.turns = .srcWrite 0x100C 9 :: [] ∧ s.cfg.oneMemory = false ∧ s.inPayloadWindow (s.wrap 0x100C) = false ∧
        s.wrap 0x100C ∉ s.tainted) ∧
    (let s : State := { p1 with cfg := { cfg with oneMemory := true }, turns := [.srcWrite 0x8004 9] };
      s.cfg.oneMemory = true ∧ s.run = .busy ∧ s.inOutputRegion (s.wrap 0x8004) = true) ∧
    (let s : State := { p1 with cfg := { cfg with oneMemory := true }, turns := [.srcWrite 0x8005 9] };
      s.cfg.oneMemory = true ∧ ¬(s.run = .busy ∧ s.inOutputRegion (s.wrap 0x8005) = true)) ∧
    (let s : State := { copying with tainted := [0x1003] };
      s.wrap 0x1003 ∈ s.tainted ∧ after s (fun t => t.srcByte? 0x1003 = none) = true) ∧
    (let s : State := { p1 with tainted := [0x1003], run := .done, seq := .idle, turns := [.bus (.write 0 32 1)] };
      s.wrap 0x1003 ∈ s.tainted ∧ after s (fun t => t.srcByte? 0x1003 = some 2) = true) := by decide +kernel

theorem witness_HostOutputAccesses :
    (let s : State := { p1 with turns := [.outWrite 0x8004 9] };
      s.turns = .outWrite 0x8004 9 :: [] ∧ s.run = .busy ∧ s.inOutputRegion (s.wrap 0x8004) = true) ∧
    (∀ one, let s : State := { p1 with cfg := { cfg with oneMemory := one }, turns := [.outWrite 0x8005 9] };
      s.turns = .outWrite 0x8005 9 :: [] ∧ s.cfg.oneMemory = one ∧
        ¬(s.run = .busy ∧ s.inOutputRegion (s.wrap 0x8005) = true)) ∧
    (let s : State := { copying with turns := [.outRead 0x8000] };
      s.turns = .outRead 0x8000 :: [] ∧ s.run = .busy) ∧
    (let s : State := { copying with turns := [.outRead 0x8000], run := .done };
      s.turns = .outRead 0x8000 :: [] ∧ s.run ≠ .busy ∧ s.outByte? 0x8000 = some 7) := by decide +kernel

/-- With four defined bytes, and with three (the fourth fetched byte is past SRC_IMAGE). -/
theorem witness_RefillMergesOneWord :
    (∀ a ∈ [(0 : Nat), 32], let s : State := { bw1 false with avail := BitVec.ofNat 64 a, plimit := 1 };
      0 ≤ s.avail.toInt ∧ s.avail.toInt ≤ 32 ∧ s.cursor < s.plimit ∧
        s.srcByte? (s.pbase.toNat + s.cursor.toNat) = some 0xDD ∧ s.srcByte? (s.pbase.toNat + s.cursor.toNat + 1) = some 0xCC ∧
        s.srcByte? (s.pbase.toNat + s.cursor.toNat + 2) = some 0xBB ∧
        s.srcByte? (s.pbase.toNat + s.cursor.toNat + 3) = some 0xAA) ∧
    (let s : State := { bw1 false with pbase := 1 };
      0 ≤ s.avail.toInt ∧ s.avail.toInt ≤ 32 ∧ s.cursor < s.plimit ∧
        s.srcByte? (s.pbase.toNat + s.cursor.toNat + 3) = none) := by decide +kernel

theorem witness_RefillNoOpAndDeficit :
    32 < ({ p1 with avail := 33 } : State).avail.toInt ∧ copying.plimit ≤ copying.cursor := by decide +kernel

/-- Also a state of a run past its payload, where AVAIL is below 0 and OVR set. -/
theorem witness_TakeConsumesTheLowBits :
    ((32 : Nat) ≤ 32 ∧ p1.NoWrap) ∧
    (let s : State := { p1 with avail := -4, ovr := true }; s.avail.toInt < 0 ∧ (s.avail.toInt < 0 → s.ovr = true)) :=
  ⟨⟨by decide, window_p1.2⟩, by decide⟩

theorem witness_BitposAdvancesByTheWidth : encodeBus (.lcnt 5) = none ∧ p1.NoWrap ∧ ∃ t, exec (.lcnt 5) p1 = .next t :=
  ⟨rfl, window_p1.2, next_of_isNext (by decide +kernel)⟩

theorem witness_BlockTypeSelectsTheBlock : p1.Refillable := refillable_p1
theorem witness_LiteralCountStartsTheRun : p1.Refillable := refillable_p1
theorem witness_LiteralByteIsAppended :
    copying.Refillable ∧ copying.ocur < copying.dsize ∧
      ({ copying with dsize := 2 } : State).Refillable ∧ ({ copying with dsize := 2 } : State).dsize ≤ copying.ocur :=
  ⟨refillable_run .copy 0 3, by decide, refillable_run .copy 0 3, by decide⟩
theorem witness_TableCountOpensTheLengths : p1.Refillable ∧ (511 : BitVec 9) ≠ 0 := ⟨refillable_p1, by decide⟩
theorem witness_LengthEntriesFillTheScratch :
    let s : State := { run (.tflag .small) 0 40 with tcount := 511, tidx := 510 }
    s.Refillable ∧ s.tidx < s.tcount := ⟨refillable_run (.tflag .small) 0 40, by decide⟩
theorem witness_BuiltTableIsInstalled :
    let s : State := { run (.tbuild .small) 0 40 with tcount := 2, tidx := 2, lens := Vector.replicate _ 15 }
    s.LengthsAre [15, 15] ∧ (build 10 [15, 15]).toOption.isSome = true ∧ (build 8 [15, 15]).toOption.isSome = true :=
  ⟨lengthsAre_iff.2 (by decide +kernel), by decide +kernel⟩
theorem witness_FailedBuildRaisesItsError :
    let s : State := { run (.tbuild .small) 0 40 with tcount := 481, tidx := 481, lens := Vector.replicate _ 15 }
    s.LengthsAre s.codeLens ∧ (build 10 s.codeLens).toOption.isSome = false ∧ (build 8 s.codeLens).toOption.isSome = false :=
  ⟨lengthsAre_iff.2 rfl, by decide +kernel⟩
theorem witness_EndOfBlockEndsOrContinues : p1.Refillable := refillable_p1
theorem witness_ExhaustedStreamRunsForever :
    let s := run .bt 0 0
    s.run = .busy ∧ s.seq = .bt ∧ s.turns = [] ∧ s.plimit ≤ s.cursor ∧ s.acc = 0 := by decide +kernel
theorem witness_BuildNeverRaisesInvalidTableEntry : (8 : Nat) ≤ 8 := by decide
theorem witness_SampleOverflowCountsTheSlots : (8 : Nat) ≤ 10 := by decide
theorem witness_BuiltTablesStayInRange :
    (8 : Nat) ≤ 8 ∧ [(1 : CodeLen), 9].length ≤ 511 ∧ (build 8 [1, 9]).toOption.isSome = true := by decide +kernel
/-- A direct entry, an escape inside the overflow RAM, and one past it (which no table Build leaves has). -/
theorem witness_ResolveFollowsTheEscape :
    0x8001 % 16 ≠ 0 ∧ (0x0090 % 16 = 0 ∧ 0x0090 / 128 + 0xFFF / 2 ^ 10 % 2 ^ (0x0090 / 16 % 8) < 512) ∧
      (0xFFF0 % 16 = 0 ∧ 512 ≤ 0xFFF0 / 128 + 0xFFF / 2 ^ 10 % 2 ^ (0xFFF0 / 16 % 8)) := by decide
theorem witness_LiteralSymbolIsAppended :
    copying.Refillable ∧ copying.ocur < copying.dsize ∧
      ({ copying with dsize := 2 } : State).Refillable ∧ ({ copying with dsize := 2 } : State).dsize ≤ copying.ocur :=
  witness_LiteralByteIsAppended
theorem witness_SentinelEndsTheSymbolRun : p1.Refillable := refillable_p1
theorem witness_BackReferenceSetsTheCount :
    p1.Refillable ∧ (∃ r, 0x101 ≤ (0x109 : BitVec 9).toNat ∧ (0x109 : BitVec 9).toNat ≤ 0x1FE ∧
      p1.lengthRow? ((0x109 : BitVec 9).toNat - 0x101) = some r ∧ 0 < r.extra.val) ∧
    (∃ r, 0x101 ≤ (0x101 : BitVec 9).toNat ∧ (0x101 : BitVec 9).toNat ≤ 0x1FE ∧
      p1.lengthRow? ((0x101 : BitVec 9).toNat - 0x101) = some r ∧ r.extra.val = 0) ∧
    (0x101 ≤ (0x11E : BitVec 9).toNat ∧ (0x11E : BitVec 9).toNat ≤ 0x1FE ∧
      p1.cfg.n12 ≤ (0x11E : BitVec 9).toNat - 0x101) :=
  ⟨refillable_p1, ⟨_, by decide, by decide, rfl, by decide⟩, ⟨_, by decide, by decide, rfl, by decide⟩, by decide +kernel⟩
theorem witness_DistanceSymbolSetsTheDistance :
    p1.Refillable ∧ (∃ r, p1.distRow? (29 : BitVec 9).toNat = some r ∧ 0 < r.extra.val) ∧
    (∃ r, p1.distRow? (0 : BitVec 9).toNat = some r ∧ r.extra.val = 0) ∧ p1.cfg.n34 ≤ (30 : BitVec 9).toNat :=
  ⟨refillable_p1, ⟨_, rfl, by decide⟩, ⟨_, rfl, by decide⟩, by decide +kernel⟩
theorem witness_IndexPastTheTablesIsInternalFailure :
    (p1.run = .busy ∧ p1.err = .none ∧ 0x101 ≤ (0x11E : BitVec 9).toNat ∧ p1.cfg.n12 ≤ (0x11E : BitVec 9).toNat - 0x101 ∧
      p1.cfg.n34 ≤ (30 : BitVec 9).toNat) ∧
    (∃ t, exec (.symBref 0x11E 1) p1 = .next t) ∧ (∃ t, exec (.symBref 0x11D 1) p1 = .next t) ∧
    (∃ t, exec (.dsym 30 1) p1 = .next t) ∧ ∃ t, exec (.dsym 29 1) p1 = .next t :=
  ⟨by decide +kernel, next_of_isNext (by decide +kernel), next_of_isNext (by decide +kernel),
    next_of_isNext (by decide +kernel), next_of_isNext (by decide +kernel)⟩
theorem witness_ExtraBitsCompleteTheCopy :
    let s : State := { p1 with lidx := 28, didx := 29 }
    s.Refillable ∧ (∃ r, s.lengthRow? s.lidx.toNat = some r) ∧ ∃ r, s.distRow? s.didx.toNat = some r :=
  ⟨refillable_p1, ⟨_, rfl⟩, ⟨_, rfl⟩⟩
theorem witness_CopyAppendsTheByteBehind :
    (copying.ocur < copying.dsize ∧ copying.dist.toNat ≤ copying.ocur.toNat ∧
      copying.outByte? (copying.obase.toNat + (copying.ocur.toNat - copying.dist.toNat)) = some 7) ∧
    (copying.ocur.toNat < ({ copying with dist := 3 } : State).dist.toNat) ∧
    ({ copying with dsize := 2 } : State).dsize ≤ copying.ocur := by decide +kernel
theorem witness_CopyRepeatsWithPeriodDist :
    copying.run = .busy ∧ copying.seq = .copy ∧ copying.turns = [] ∧ copying.copyrem.toNat = 4 ∧ 1 ≤ 4 ∧
      1 ≤ copying.dist.toNat ∧ copying.dist.toNat ≤ copying.ocur.toNat ∧ copying.ocur.toNat + 4 ≤ copying.dsize.toNat ∧
      copying.dsize.toNat ≤ copying.cfg.addrSpace ∧
      ∀ j, j < copying.dist.toNat →
        copying.outByte? (copying.obase.toNat + (copying.ocur.toNat - copying.dist.toNat) + j) ≠ none := by decide +kernel
theorem witness_StartBeginsARun :
    let s : State := { p1 with run := .idle, seq := .idle }
    s.run ≠ .busy ∧ s.hdrflag.toNat % 16 = 1 ∧ (initRun s).regionsOverlap = false := by decide +kernel
theorem witness_StartOfAnotherTypeIsAnError : State.reset.run ≠ .busy ∧ State.reset.hdrflag.toNat % 16 ≠ 1 := by decide
/-- The last byte of the payload window is the first output byte. -/
theorem witness_OverlapIsASharedAddress :
    (let s : State := { p1 with run := .idle, seq := .idle, obase := 0x100B };
      s.run ≠ .busy ∧ s.hdrflag.toNat % 16 = 1 ∧ (initRun s).regionsOverlap = true) ∧
    (let s : State := { p1 with run := .idle, seq := .idle, obase := 0x100C };
      s.run ≠ .busy ∧ s.hdrflag.toNat % 16 = 1 ∧ (initRun s).regionsOverlap = false) := by decide +kernel
theorem witness_BusyIgnoresStartAndWrites : p1.run = .busy := rfl
theorem witness_RegisterWritesReachTheirRegister :
    State.reset.run ≠ .busy ∧ p1.run = .busy ∧ (1 : Word).toNat % 2 = 1 ∧ (2 : Word).toNat % 2 = 0 ∧ 0x0A % 4 ≠ 0 ∧ 16 ≠ 32 := by
  decide
theorem witness_RegisterReadsReturnTheRegister : 0x32 % 4 ≠ 0 ∧ 8 ≠ 32 ∧ 0x34 ≤ 0x34 := by decide
/-- The agents of a list move one after the other, to a state in which `p` holds. -/
def afterTurns (ts : List Turn) (s : State) (p : State → Bool) : Bool :=
  match runTurns ts s with
  | .next t => p t
  | .fault _ => false
  | .refused _ => false

/-- What a call of the host software returned, if it did. -/
def returnedOf : HostRun → Option (HostResult (List Byte))
  | .returned r _ => some r
  | .polling _ | .fault _ | .refused _ => none
/-- 45 R251: a poll that finds the run ended reads its one output byte back; with the poll before it only, it goes on. -/
theorem test_poll : let s : State := { run .eob 1 8 with out := [(0x8000, 7)], ocur := 1 }
    returnedOf (pollLoop 0x8000 [0, 1] s) = some (.ok [7]) ∧ returnedOf (pollLoop 0x8000 [0] s) = none := by decide +kernel

/-- The container of P1: its header and its payload. -/
def containerP1 : List Byte := [0x45, 0x44, 0x4C, 1, 8, 0, 0, 0, 5, 0, 0, 0, 0x0A, 0, 1, 2, 3, 4, 5, 1]
/-- The load; the load of a whole container; and polls that find the engine BUSY, IDLE, DONE and in each error of a run. -/
theorem witness_EngineRunLoadsPollsAndReturns :
    (let s : State := { State.reset with turns := loadTurns 0x81 8 5 0x1000 0x8000 ++ [] };
      s.run ≠ .busy ∧ s.cfg.addrW = 64 ∧ s.cfg.csizeMode = .payloadOnly ∧ (0x81 : Byte).toNat % 16 = 1 ∧
        s.turns = loadTurns 0x81 8 5 0x1000 0x8000 ++ [] ∧
        ({ s with pbase := 0x1000, obase := 0x8000, dsize := 5, plimit := 8 } : State).regionsOverlap = false) ∧
    (let h : Header := { compressionType := 1, big := false, csize := 8, dsize := 5 };
      containerP1.length ≤ 2 ^ 64 ∧ (containerP1.getD 3 0).toNat % 16 = 1 ∧
        ({ State.reset with
            pbase := BitVec.ofNat 64 (0x1000 + 12), obase := BitVec.ofNat 64 0x8000
            dsize := h.dsize.setWidth 32, plimit := h.csize.setWidth 32 } : State).regionsOverlap = false) ∧
    afterTurns (List.replicate 1 .engine) p1 (fun t => t.run = .busy) = true ∧
    afterTurns (List.replicate 0 .engine) State.reset (fun t => t.run = .idle) = true ∧
    afterTurns (List.replicate 1 .engine) (run .eob 1 8) (fun t => t.run = .done) = true ∧
    afterTurns (List.replicate 1 .engine) tooLong (fun t => t.run = .error ∧ t.err = .sampleOverflow) = true ∧
    afterTurns (List.replicate 1 .engine) pastTable (fun t => t.run = .error ∧ t.err = .internalFailure) = true ∧
    afterTurns (List.replicate 0 .engine) { State.reset with run := .error, err := .unsupportedCompressionType }
      (fun t => t.run = .error ∧ t.err = .unsupportedCompressionType) = true := by decide +kernel
theorem witness_HeaderParseRecoversTheFields :
    3 ≤ [(0x45 : Byte), 0x44, 0x58].length ∧ [(0x45 : Byte), 0x44, 0x58].take 3 ≠ [0x45, 0x44, 0x4C] := by decide
/-- 95, H-5, which is also a gap without E before each magic and a scan that goes on after it. -/
theorem witness_ScannerReportsMagicsInOrder :
    scan [0x00, 0x45, 0x44, 0x4C, 0x01, 8, 0, 0, 0, 5, 0, 0, 0, 0x33, 0x45, 0x44, 0x4C, 0, 1, 0, 0, 0, 1, 0, 0, 0, 0xAA] 0 =
      .ok [{ header := { compressionType := 1, big := false, csize := 8, dsize := 5 }, offset := 1 },
        { header := { compressionType := 0, big := false, csize := 1, dsize := 1 }, offset := 14 }] ∧
    [(0x45 : Byte), 0x44].length < 3 ∧ (∀ b ∈ [(0x00 : Byte)], b ≠ 0x45) ∧ (0x45 : Byte) ≠ 0x44 ∧ (0x45 : Byte) ≠ 0x4C ∧
    scan (0x81 :: (sizeBytes 0x81 8 ++ sizeBytes 0x81 5 ++ [])) (0 + 3) = .ok [] ∧
    ([(0x45 : Byte), 0x44, 0x4C, 1, 8].take 3 = [0x45, 0x44, 0x4C] ∧ [(0x45 : Byte), 0x44, 0x4C, 1, 8].length < 12) ∧
    [(1 : Byte), 8, 0, 0, 0, 5, 0, 0].length < 9 := by decide +kernel
/-- Reads of a written and of a never-written byte, each repeated after a read of another address; and an engine step. -/
theorem witness_MemoryReadsAreIdempotent :
    (∀ a ∈ [0x8000, 0x9000],
      let s : State := { copying with run := .done, turns := [.outRead a] };
      let u : State := { copying with run := .done, turns := [.outRead a, .engine], mdata := 3 };
      s.turns = .outRead a :: [] ∧ s.run ≠ .busy ∧ u.turns = .outRead a :: [.engine] ∧ u.run ≠ .busy ∧ u.cfg = s.cfg ∧
        u.outByte? a = s.outByte? a) ∧
    (p1.engineNext ∧ ∃ t, step p1 = .next t) :=
  ⟨by decide +kernel, .inl rfl, next_of_isNext (by decide +kernel)⟩
theorem witness_DispatchAndStoreDecode :
    parseHeader .mask0F [0x45, 0x44, 0x58] = .fail .notEdlContainer ∧
    ∀ f ∈ [(0 : Byte), 1, 2], parseHeader .mask0F [0x45, 0x44, 0x4C, f, 8, 0, 0, 0, 5, 0, 0, 0] =
      .ok { compressionType := f, big := false, csize := 8, dsize := 5 } := by decide +kernel

end Sys2Proof.Tests
end

section
/-! The host's register accesses as the named register's own read or write, and the fields of STATUS (10_state.md R25, R31,
R40; 45_host_commands.md R240, R243, R244). -/

namespace Sys2Proof.Machine

/-! ### Register accesses -/

/-- A 32-bit host write at a register's offset is a write of that register (45 R240). -/
theorem exec_regwrite_regOffset (r : Reg) (x : Word) (s : State) :
    exec (.regwrite (regOffset r) 32 x) s = writeReg r x s := by
  simp [exec, execRegwrite]

/-- A host write that reaches no register is ignored (10 R29). -/
theorem exec_regwrite_of_regAt_none {off width : Nat} (h : regAt off width = none) (x : Word) (s : State) :
    exec (.regwrite off width x) s = .next s := by
  simp [exec, execRegwrite, h]

/-- A 32-bit host read at a register's offset returns that register (45 R244). -/
theorem exec_regread_regOffset (r : Reg) (s : State) :
    exec (.regread (regOffset r) 32) s = .next { s with rdata := readReg r s } := by
  simp [exec, execRegread, readWindow]

/-! ### Commands during a run -/

/-- START is ignored during a run (45 R243). -/
theorem exec_start_busy {s : State} (h : s.run = .busy) : exec .start s = .next s :=
  if_pos h

/-- Every host write is ignored during a run, whether or not it reaches a register (10 R40). -/
theorem exec_regwrite_busy {s : State} (h : s.run = .busy) (off width : Nat) (x : Word) :
    exec (.regwrite off width x) s = .next s := by
  cases hr : regAt off width with
  | none => exact exec_regwrite_of_regAt_none hr x s
  | some r =>
    obtain ⟨rfl, rfl⟩ := regAt_eq_some_iff.1 hr
    rw [exec_regwrite_regOffset, writeReg_busy h]

/-- Settles O52: START by its own BUSY check, a write by whether it reaches a register. -/
theorem busyIgnoresStartAndWrites : Obligations.BusyIgnoresStartAndWrites :=
  fun _ off width x h => ⟨exec_start_busy h, exec_regwrite_busy h off width x⟩

/-! ### The fields of STATUS -/

/-- Each field of STATUS is read off the sum `status_toNat`, since every field below it stays in its own bits (10 R31). -/
theorem status_fields (s : State) :
    s.status.toNat % 4 = s.run.bits.toNat ∧ s.status.toNat / 4 % 2 = s.trunc.toNat ∧
    s.status.toNat / 8 % 2 = s.ovr.toNat ∧ s.status.toNat / 16 % 16 = 0 ∧
    s.status.toNat / 256 % 256 = s.err.bits.toNat ∧ s.status.toNat / 65536 = 0 := by
  have hsum := status_toNat s
  have hrun : s.run.bits.toNat < 4 := s.run.bits.isLt
  have htrunc := s.trunc.toNat_lt
  have hovr := s.ovr.toNat_lt
  have herr : s.err.bits.toNat < 256 := s.err.bits.isLt
  omega

/-- The code of each run state (10 R25). -/
theorem runState_codes (r : RunState) :
    (r = .idle → r.bits = 0) ∧ (r = .busy → r.bits = 1) ∧ (r = .done → r.bits = 2) ∧ (r = .error → r.bits = 3) := by
  cases r <;> decide

/-- The code of each error (60 R270). -/
theorem errCode_codes (e : ErrCode) :
    (e = .none → e.bits = 0) ∧ (e = .unsupportedCompressionType → e.bits = 1) ∧ (e = .invalidTableEntry → e.bits = 8) ∧
    (e = .sampleOverflow → e.bits = 9) ∧ (e = .internalFailure → e.bits = 12) := by
  cases e <;> decide

/-- Settles O55: STATUS as a read-only register of the window, then its fields and their codes. -/
theorem statusWordLayout : Obligations.StatusWordLayout := by
  refine ⟨by decide, fun s x => exec_regwrite_regOffset .status x s, fun s => ⟨exec_regread_regOffset .status s, ?_⟩⟩
  obtain ⟨hstate, htrunc, hovr, hlow, herr, hhigh⟩ := status_fields s
  obtain ⟨hidle, hbusy, hdone, herror⟩ := runState_codes s.run
  exact ⟨hstate, htrunc, hovr, hlow, herr, hhigh, hidle, hbusy, hdone, herror, errCode_codes s.err⟩

end Sys2Proof.Machine
end

section
/-! The block sequencer's elements (41_block_sequencer.md R130 to R137): each reads its bits and goes on with its effect on
the state whose window has moved. -/

namespace Sys2Proof.Machine

/-- A bit-reading step from a refillable state is the rest of the step on `s` with its window moved by `k` bits. -/
theorem readThen_withWindow {s : State} (h : s.Refillable) (k : Nat) :
    ∃ w, TookBits k s w ∧ ∀ rest, readThen k s rest = .next (rest (s.withWindow w)) := by
  obtain ⟨w, htook, hwindow, hread⟩ := readThen_tookBits h k
  exact ⟨w, htook, fun rest => by rw [hwindow, hread]⟩

/-! ### Block type and end of block -/

/-- Settles O26: both rows read one bit and set SEQ. -/
theorem blockTypeSelectsTheBlock : Obligations.BlockTypeSelectsTheBlock := by
  intro s h
  obtain ⟨w, htook, hread⟩ := readThen_withWindow h 1
  exact ⟨w, htook, by rw [exec, execBtLit, hread], by rw [exec, execBtTbl, hread]⟩

/-- Settles O33: both rows read one bit; a bit of 1 leaves BUSY. -/
theorem endOfBlockEndsOrContinues : Obligations.EndOfBlockEndsOrContinues := by
  intro s h
  obtain ⟨w, htook, hread⟩ := readThen_withWindow h 1
  exact ⟨w, htook, by rw [exec, execEob0, hread], by rw [exec, execEob1, hread]⟩

/-! ### The literal run -/

/-- Settles O27: LITREM is wider than the 15-bit count, so it holds it exactly. -/
theorem literalCountStartsTheRun : Obligations.LiteralCountStartsTheRun := by
  intro s n h
  obtain ⟨w, htook, hread⟩ := readThen_withWindow h 15
  have hzero : n = 0 ↔ n.toNat = 0 := BitVec.toNat_eq
  refine ⟨w, _, htook, by rw [exec, execLcnt, hread], ?_, ?_⟩
  · exact BitVec.toNat_setWidth_of_le (by decide)
  · simp only [hzero]

/-- Append with room left in the output (44 R220). -/
theorem appendThen_of_lt {s : State} (h : s.ocur < s.dsize) (b : Byte) (rest : State → State) :
    appendThen b s rest = rest (appendByte b s) :=
  if_neg (BitVec.not_le.2 h)

/-- Append with the output full: failsafe truncation (44 R220, R221). -/
theorem appendThen_of_le {s : State} (h : s.dsize ≤ s.ocur) (b : Byte) (rest : State → State) :
    appendThen b s rest = truncateRun s :=
  if_pos h

/-- What LBYTE does after its byte was appended: LITREM was 1 exactly at the last byte of the run (41 R132). -/
def countLiteral (s : State) : State :=
  { s with litrem := s.litrem - 1, seq := if s.litrem = 1 then .eob else .lbyte }

/-- LBYTE takes its 8 bits before Append, and counts the byte after it (41 R132). -/
theorem execLbyte_eq (b : Byte) (s : State) :
    execLbyte b s = readThen 8 s fun t => appendThen b t countLiteral := by
  have hlast (u : State) : u.litrem - 1 = 0 ↔ u.litrem = 1 := sub_eq_zero
  simp only [execLbyte, hlast]
  rfl

/-- Settles O28: the two endings of Append, on the state whose 8 bits are taken; it has the OCUR, DSIZE and memories of the
state before. -/
theorem literalByteIsAppended : Obligations.LiteralByteIsAppended := by
  intro s b h
  obtain ⟨w, htook, hread⟩ := readThen_withWindow h 8
  have hexec : exec (.lbyte b) s = .next (appendThen b (s.withWindow w) countLiteral) := by
    rw [exec, execLbyte_eq, hread]
  refine ⟨w, htook, fun hroom => ⟨countLiteral (appendByte b (s.withWindow w)), ?_, rfl, ?_⟩, fun hfull => ?_⟩
  · rw [hexec, appendThen_of_lt (show (s.withWindow w).ocur < (s.withWindow w).dsize from hroom)]
  · have hstored := storedByte_appendByte b (s.withWindow w)
    exact storedByte_window rfl (storedByte_of_fields hstored rfl rfl rfl rfl)
  · rw [hexec, appendThen_of_le (show (s.withWindow w).dsize ≤ (s.withWindow w).ocur from hfull), truncateRun]

/-! ### The table header -/

/-- Settles O29: a count of 0 goes on with `nextTable`, any other with the table's length entries. -/
theorem tableCountOpensTheLengths : Obligations.TableCountOpensTheLengths := by
  intro s c h
  obtain ⟨w, htook, hread⟩ := readThen_withWindow h 9
  refine ⟨w, htook, fun hzero => ⟨?_, ?_⟩, fun hcount tb => ?_⟩
  · rw [exec, execTcnt, hread, if_pos hzero, nextTable]
  · rw [exec, execTcnt, hread, if_pos hzero, nextTable]
  · rw [exec, execTcnt, hread, if_neg hcount]

/-- The two rows that store a length, a flag of 0 and a nibble, do the same after their bits (41 R134, R135). -/
theorem exec_lengthEntry {tb : Tbl} {i : Instr} {l : CodeLen} (hi : i = .len0 tb ∧ l = 0 ∨ i = .lenNib tb l) (s : State) :
    exec i s = readThen i.width s fun t => afterLen tb (storeLen l t) := by
  rcases hi with ⟨rfl, rfl⟩ | rfl
  · rw [exec, execLen0, Instr.width]
  · rw [exec, execLenNib, Instr.width]

/-- TIDX below TCOUNT does not wrap when it advances (41 R134). -/
theorem tidx_succ_eq_tcount_iff {i n : BitVec 9} (h : i < n) : i + 1 = n ↔ i.toNat + 1 = n.toNat := by
  bv_omega

/-- A stored length is at LENS[TIDX] and nowhere else (41 R134, R135). -/
theorem storeLen_lens_getElem (l : CodeLen) (s : State) {j : Nat} (hj : j < 511) :
    (storeLen l s).lens[j] = if j = s.tidx.toNat then l else s.lens[j] := by
  simp only [storeLen_lens, Vector.getElem_setIfInBounds, eq_comm]

/-- Settles O30: a flag of 1 by its own row, the two rows that store a length as one. -/
theorem lengthEntriesFillTheScratch : Obligations.LengthEntriesFillTheScratch := by
  intro s tb h
  refine ⟨?_, fun hlt i l hi => ?_⟩
  · obtain ⟨w, htook, hread⟩ := readThen_withWindow h 1
    exact ⟨w, htook, by rw [exec, execLen, hread]⟩
  · obtain ⟨w, htook, hread⟩ := readThen_withWindow h i.width
    refine ⟨w, afterLen tb (storeLen l (s.withWindow w)), htook, ?_, ?_, fun j hj => ?_⟩
    · rw [exec_lengthEntry hi, hread]
    · simp only [← tidx_succ_eq_tcount_iff hlt]
      rfl
    · exact storeLen_lens_getElem l (s.withWindow w) hj

end Sys2Proof.Machine
end

section
/-! The order of the list S (42_table_builder.md R162): it goes through the lengths in ascending order and, for each one,
through the symbols in ascending order. -/

namespace Sys2Proof.Machine

/-- The symbols of one length ascend strictly: those after the symbol `k` are counted from `k + 1` on. -/
theorem symbolsOfLen_pairwise_lt (l k : Nat) (lens : List CodeLen) : (symbolsOfLen l k lens).Pairwise (· < ·) := by
  induction lens generalizing k with
  | nil => exact .nil
  | cons x xs ih =>
    have hlater : ∀ s ∈ symbolsOfLen l (k + 1) xs, k < s := by
      intro s hs
      obtain ⟨i, -, hi, -⟩ := mem_symbolsOfLen.1 hs
      omega
    rw [symbolsOfLen]
    split
    · exact .cons hlater (ih (k + 1))
    · exact ih (k + 1)

/-- S ascends strictly by length and, within one length, by symbol. -/
theorem sortedSymbols_pairwise (lens : List CodeLen) :
    (sortedSymbols lens).Pairwise fun p q => p.2 < q.2 ∨ (p.2 = q.2 ∧ p.1 < q.1) := by
  rw [sortedSymbols, List.pairwise_flatMap]
  constructor
  · intro l _
    rw [List.pairwise_map]
    exact (symbolsOfLen_pairwise_lt l 0 lens).imp fun hlt => .inr ⟨rfl, hlt⟩
  · refine (List.pairwise_lt_range' 1).imp fun hlt p hp q hq => .inl ?_
    obtain ⟨s, -, rfl⟩ := List.mem_map.1 hp
    obtain ⟨t, -, rfl⟩ := List.mem_map.1 hq
    exact hlt

/-- Settles O35: a 4-bit length is at most 15, so being one of the lengths 1 to 15 of S is being nonzero. -/
theorem symbolsAreSortedByLengthThenIndex : Obligations.SymbolsAreSortedByLengthThenIndex := by
  refine fun lens => ⟨fun s l => ?_, sortedSymbols_pairwise lens⟩
  rw [mem_sortedSymbols]
  refine exists_congr fun h => and_congr_right fun hl => ?_
  have hmax : (lens[s]).toNat < 2 ^ 4 := (lens[s]).isLt
  dsimp only at hl ⊢
  omega

end Sys2Proof.Machine
end

section
/-! Symbols, extra bits and distances (43_symbol_decode.md R192 to R200): the symbol's bits are taken first, and its effect is
on the state whose window has moved. -/

namespace Sys2Proof.Machine

/-! ### Literals and the sentinel -/

/-- The two endings of a row that takes `k` bits and appends a byte (44 R220): the moved window changes neither the room left
nor the address of the store. -/
theorem readThen_appendThen {s : State} (h : s.Refillable) (k : Nat) (b : Byte) (rest : State → State) :
    ∃ w, TookBits k s w ∧
      (s.ocur < s.dsize →
        readThen k s (fun t => appendThen b t rest) = .next (rest (appendByte b (s.withWindow w))) ∧
        StoredByte s (appendByte b (s.withWindow w)) s.outAddr b) ∧
      (s.dsize ≤ s.ocur → readThen k s (fun t => appendThen b t rest) = .next (truncateRun (s.withWindow w))) := by
  obtain ⟨w, htook, hread⟩ := readThen_withWindow h k
  refine ⟨w, htook, fun hroom => ⟨?_, ?_⟩, fun hfull => ?_⟩
  · rw [hread, appendThen_of_lt (show (s.withWindow w).ocur < (s.withWindow w).dsize from hroom)]
  · exact storedByte_window rfl (storedByte_appendByte b (s.withWindow w))
  · rw [hread, appendThen_of_le (show (s.withWindow w).dsize ≤ (s.withWindow w).ocur from hfull)]

/-- Settles O42: the two endings of `readThen_appendThen`; setting SEQ after the store leaves the memories alone. -/
theorem literalSymbolIsAppended : Obligations.LiteralSymbolIsAppended := by
  intro s v len h
  obtain ⟨w, htook, hroom, hfull⟩ := readThen_appendThen h len.toNat v fun u => { u with seq := .sym }
  refine ⟨w, htook, fun hlt => ?_, hfull⟩
  obtain ⟨hexec, hstored⟩ := hroom hlt
  exact ⟨_, hexec, rfl, storedByte_of_fields hstored rfl rfl rfl rfl⟩

/-- Settles O43: the row reads its code's bits and sets SEQ. -/
theorem sentinelEndsTheSymbolRun : Obligations.SentinelEndsTheSymbolRun := by
  intro s len h
  obtain ⟨w, htook, hread⟩ := readThen_withWindow h len.toNat
  exact ⟨w, htook, by rw [exec, execSymEnd, hread]⟩

/-! ### What an index into the static tables does -/

/-- N12 is where the length rows end (43 R198). -/
theorem lengthRow?_eq_none_iff {s : State} {i : Nat} : s.lengthRow? i = none ↔ s.cfg.n12 ≤ i :=
  List.getElem?_eq_none_iff

/-- N34 is where the distance rows end (43 R198). -/
theorem distRow?_eq_none_iff {s : State} {d : Nat} : s.distRow? d = none ↔ s.cfg.n34 ≤ d :=
  List.getElem?_eq_none_iff

/-- A back-reference index past the table (43 R194, R200). -/
theorem startCopy_of_none {s : State} {i : Nat} (h : s.lengthRow? i = none) :
    startCopy i s = raiseErr .internalFailure s := by
  rw [startCopy, h]

/-- A back-reference index inside the table (43 R194). -/
theorem startCopy_of_some {s : State} {i : Nat} {r : Config.ExtraRow} (h : s.lengthRow? i = some r) :
    startCopy i s = if 0 < r.extra.val then { s with lidx := BitVec.ofNat 8 i, seq := .lextra }
      else { s with copyrem := copyCount r 0, seq := .dsym } := by
  rw [startCopy, h]

/-- A distance symbol past the table (43 R196, R200). -/
theorem startDistance_of_none {s : State} {d : BitVec 9} (h : s.distRow? d.toNat = none) :
    startDistance d s = raiseErr .internalFailure s := by
  rw [startDistance, h]

/-- A distance symbol inside the table (43 R196). -/
theorem startDistance_of_some {s : State} {d : BitVec 9} {r : Config.ExtraRow} (h : s.distRow? d.toNat = some r) :
    startDistance d s = if 0 < r.extra.val then { s with didx := d, seq := .dextra }
      else { s with dist := copyDistance r 0, seq := .copy } := by
  rw [startDistance, h]

/-! ### The rows -/

/-- Settles O44: the cases of `startCopy`; the indexes of 0x101 to 0x1FE are at most 0xFD, so the 8 bits of LIDX hold them. -/
theorem backReferenceSetsTheCount : Obligations.BackReferenceSetsTheCount := by
  intro s v len h hlo hhi
  obtain ⟨w, htook, hread⟩ := readThen_withWindow h len.toNat
  have hexec : exec (.symBref v len) s = .next (startCopy (v.toNat - 0x101) (s.withWindow w)) := hread _
  refine ⟨w, htook, fun hpast => ?_, fun r hr => ⟨_, hexec, fun hextra => ?_, fun hnone => ?_⟩⟩
  · have hrow : (s.withWindow w).lengthRow? (v.toNat - 0x101) = none := lengthRow?_eq_none_iff.2 hpast
    rw [hexec, startCopy_of_none hrow, raiseErr]
  · rw [startCopy_of_some (s := s.withWindow w) hr, if_pos hextra]
    have hfits : v.toNat - 0x101 < 2 ^ 8 := by omega
    exact ⟨rfl, (BitVec.toNat_ofNat _ 8).trans (Nat.mod_eq_of_lt hfits)⟩
  · rw [startCopy_of_some (s := s.withWindow w) hr, if_neg (Nat.not_lt.2 hnone.le)]
    exact ⟨rfl, copyCount_toNat r 0⟩

/-- Settles O45: the cases of `startDistance`; DIDX is as wide as the symbol, so it holds it unchanged. -/
theorem distanceSymbolSetsTheDistance : Obligations.DistanceSymbolSetsTheDistance := by
  intro s d len h
  obtain ⟨w, htook, hread⟩ := readThen_withWindow h len.toNat
  have hexec : exec (.dsym d len) s = .next (startDistance d (s.withWindow w)) := hread _
  refine ⟨w, htook, fun hpast => ?_, fun r hr => ⟨_, hexec, fun hextra => ?_, fun hnone => ?_⟩⟩
  · have hrow : (s.withWindow w).distRow? d.toNat = none := distRow?_eq_none_iff.2 hpast
    rw [hexec, startDistance_of_none hrow, raiseErr]
  · rw [startDistance_of_some (s := s.withWindow w) hr, if_pos hextra]
  · rw [startDistance_of_some (s := s.withWindow w) hr, if_neg (Nat.not_lt.2 hnone.le)]
    exact ⟨rfl, copyDistance_toNat r 0⟩

/-- Settles O47: where the row exists the step is a read of its `k` bits, and the sums do not wrap. -/
theorem extraBitsCompleteTheCopy : Obligations.ExtraBitsCompleteTheCopy := by
  intro s k x h
  obtain ⟨w, htook, hread⟩ := readThen_withWindow h k.val
  refine ⟨w, htook, fun r hr => ?_, fun r hr => ?_⟩
  · have hexec : exec (.xbLen k x) s = .next { s.withWindow w with copyrem := copyCount r x, seq := .dsym } := by
      rw [exec, execXbLen, hr]
      exact hread _
    exact ⟨_, hexec, rfl, copyCount_toNat r x⟩
  · have hexec : exec (.xbDist k x) s = .next { s.withWindow w with dist := copyDistance r x, seq := .copy } := by
      rw [exec, execXbDist, hr]
      exact hread _
    exact ⟨_, hexec, rfl, copyDistance_toNat r x⟩

/-! ### InternalFailure -/

/-- In a run without an error, `startCopy` raises InternalFailure exactly past the length rows (43 R200). -/
theorem startCopy_fails_iff {s : State} (hrun : s.run = .busy) (herr : s.err = .none) (i : Nat) :
    ((startCopy i s).err = .internalFailure ↔ s.cfg.n12 ≤ i) ∧ ((startCopy i s).run = .error ↔ s.cfg.n12 ≤ i) := by
  rw [← lengthRow?_eq_none_iff]
  cases hr : s.lengthRow? i with
  | none => simp [startCopy_of_none hr]
  | some r =>
    rw [startCopy_of_some hr]
    split <;> simp [hrun, herr]

/-- In a run without an error, `startDistance` raises InternalFailure exactly past the distance rows (43 R200). -/
theorem startDistance_fails_iff {s : State} (hrun : s.run = .busy) (herr : s.err = .none) (d : BitVec 9) :
    ((startDistance d s).err = .internalFailure ↔ s.cfg.n34 ≤ d.toNat) ∧
    ((startDistance d s).run = .error ↔ s.cfg.n34 ≤ d.toNat) := by
  rw [← distRow?_eq_none_iff]
  cases hr : s.distRow? d.toNat with
  | none => simp [startDistance_of_none hr]
  | some r =>
    rw [startDistance_of_some hr]
    split <;> simp [hrun, herr]

/-- A next state of a bit-reading step is the rest of the step on `s` with its window moved. -/
theorem readThen_next_withWindow {k : Nat} {s t : State} {rest : State → State} (h : readThen k s rest = .next t) :
    ∃ w, t = rest (s.withWindow w) := by
  obtain ⟨u, hrefill, rfl⟩ := readThen_next h
  exact ⟨take k u, by rw [withWindow_of_tookBits ⟨u, hrefill, rfl⟩]⟩

/-- Settles O46: taking the code's bits leaves STATE, ERR and the tables, so both rows fail as their effects do. -/
theorem indexPastTheTablesIsInternalFailure : Obligations.IndexPastTheTablesIsInternalFailure := by
  refine fun s t len hrun herr => ⟨fun v _ hnext => ?_, fun d hnext => ?_⟩
  · obtain ⟨w, rfl⟩ := readThen_next_withWindow hnext
    exact startCopy_fails_iff (s := s.withWindow w) hrun herr _
  · obtain ⟨w, rfl⟩ := readThen_next_withWindow hnext
    exact startDistance_fails_iff (s := s.withWindow w) hrun herr _

end Sys2Proof.Machine
end

section
/-! The copy engine's step (44_copy_engine.md R222): the byte DIST back from OCUR is Appended, and COPYREM counts it. -/

namespace Sys2Proof.Machine

/-- The source of a COPY step before the start of the output is 0, and no memory is read (44 R222). -/
theorem copySource_of_lt {s : State} (h : s.ocur.toNat < s.dist.toNat) : copySource s = 0 := by
  rcases copySource_cases s with ⟨hle, -⟩ | ⟨-, hzero⟩
  · omega
  · exact hzero

/-- The source of a COPY step inside the output is the byte last written there (44 R222, 20 R62). -/
theorem copySource_of_some {s : State} (h : s.dist.toNat ≤ s.ocur.toNat) {b : Byte}
    (hb : s.outByte? (s.obase.toNat + (s.ocur.toNat - s.dist.toNat)) = some b) : copySource s = b := by
  rcases copySource_cases s with ⟨-, hread⟩ | ⟨hlt, -⟩
  · rw [hread, outRead_of_some hb]
  · omega

/-- What COPY does after its byte was appended: COPYREM was 1 exactly at the last byte of the copy (44 R222). -/
def countCopied (s : State) : State :=
  { s with copyrem := s.copyrem - 1, seq := if s.copyrem = 1 then .sym else .copy }

/-- COPY is an Append of its source and the count after it (44 R222). -/
theorem execCopy_eq (s : State) : execCopy s = .next (appendThen (copySource s) s countCopied) := by
  have hlast (u : State) : u.copyrem - 1 = 0 ↔ u.copyrem = 1 := sub_eq_zero
  simp only [execCopy, hlast]
  rfl

/-- Settles O48: the two endings of Append, with the two sources of a COPY step; counting the byte leaves the memories. -/
theorem copyAppendsTheByteBehind : Obligations.CopyAppendsTheByteBehind := by
  intro s
  have hexec : exec .copy s = .next (appendThen (copySource s) s countCopied) := execCopy_eq s
  refine ⟨fun hroom => ⟨countCopied (appendByte (copySource s) s), copySource s, ?_, rfl, ?_, copySource_of_lt,
    fun hle _ hb => copySource_of_some hle hb⟩, fun hfull => ?_⟩
  · rw [hexec, appendThen_of_lt hroom]
  · exact storedByte_of_fields (storedByte_appendByte (copySource s) s) rfl rfl rfl rfl
  · rw [hexec, appendThen_of_le hfull, truncateRun]

end Sys2Proof.Machine
end

section
/-! The host's commands (45_host_commands.md R240, R242, R244): each register's write and read as arithmetic on its value, and
START of a type the engine does not decode. -/

namespace Sys2Proof.Machine

/-! ### START -/

/-- STATUS of an ERROR run of another compression type, with no other flag set (10 R31). -/
theorem status_raise_unsupported {s : State} (htrunc : s.trunc = false) (hovr : s.ovr = false) :
    (raiseErr .unsupportedCompressionType s).status = 0x103 := by
  apply BitVec.eq_of_toNat_eq
  rw [status_toNat, raiseErr_err, raiseErr_ovr, raiseErr_trunc, raiseErr_run, htrunc, hovr]
  rfl

/-- START of another compression type raises its error on the cleared run state (45 R242). -/
theorem exec_start_of_other_type {s : State} (hrun : s.run ≠ .busy) (htype : s.hdrflag.toNat % 16 ≠ 1) :
    exec .start s = .next (raiseErr .unsupportedCompressionType (initRun s)) := by
  have hnibble : s.hdrflag.setWidth 4 ≠ (1 : BitVec 4) := fun h => htype ((typeNibble_iff _).1 h)
  rcases startRun_cases s with ⟨h, -⟩ | ⟨-, -, h⟩ | ⟨-, h, -⟩ | ⟨-, h, -⟩
  · exact absurd h hrun
  · exact h
  · exact absurd h hnibble
  · exact absurd h hnibble

/-- Settles O51: START clears the run state and then raises the error; each field is that of the raise or of the clearing. -/
theorem startOfAnotherTypeIsAnError : Obligations.StartOfAnotherTypeIsAnError := fun _ hrun htype =>
  ⟨_, exec_start_of_other_type hrun htype, rfl, rfl, rfl, rfl, rfl, rfl, rfl, status_raise_unsupported rfl rfl, rfl, rfl, rfl⟩

/-! ### Register writes -/

/-- An access that is misaligned, of another width or past the last register reaches no register (10 R29). -/
theorem regAt_eq_none_of_outside {off width : Nat} (h : off % 4 ≠ 0 ∨ width ≠ 32 ∨ 0x34 ≤ off) : regAt off width = none := by
  rcases h with halign | hwidth | hhigh
  · exact regAt_none_of_bad (.inl halign)
  · exact regAt_none_of_bad (.inr hwidth)
  · exact regAt_none_of_high hhigh

/-- A write of CTRL is START exactly when its bit 0 is set (45 R240). -/
theorem writeReg_ctrl (x : Word) (s : State) :
    writeReg .ctrl x s = if x.toNat % 2 = 1 then startRun s else .next s := by
  have hbit : x.getLsbD 0 = true ↔ x.toNat % 2 = 1 := by
    rw [BitVec.getLsbD, Nat.testBit_zero, decide_eq_true_iff]
  simp only [writeReg, hbit]

/-- An address register takes its new low half, less the bits at and above ADDR_W (10 R35). -/
theorem maskAddr_setLow (s : State) (v : Dword) (x : Word) :
    maskAddr s (setLow v x) = BitVec.ofNat 64 ((v.toNat / 2 ^ 32 * 2 ^ 32 + x.toNat) % s.cfg.addrSpace) := by
  rw [maskAddr, setLow_toNat]

/-- An address register takes its new high half, less the bits at and above ADDR_W (10 R36). -/
theorem maskAddr_setHigh (s : State) (v : Dword) (x : Word) :
    maskAddr s (setHigh v x) = BitVec.ofNat 64 ((x.toNat * 2 ^ 32 + v.toNat % 2 ^ 32) % s.cfg.addrSpace) := by
  rw [maskAddr, setHigh_toNat]

/-- Outside a run a writable register takes the value its write has for it (45 R240, 10 R40). -/
theorem exec_regwrite_outside_run {r : Reg} {x : Word} {s t : State} (hrun : s.run ≠ .busy)
    (hwrite : writeReg r x s = .next (if s.run = .busy then s else t)) :
    exec (.regwrite (regOffset r) 32 x) s = .next t := by
  rw [exec_regwrite_regOffset, hwrite, if_neg hrun]

/-- Settles O53: an access outside the window reaches no register; at a register's offset it is that register's write. -/
theorem registerWritesReachTheirRegister : Obligations.RegisterWritesReachTheirRegister := by
  intro s x
  have hctrl := (exec_regwrite_regOffset .ctrl x s).trans (writeReg_ctrl x s)
  refine ⟨fun off width h => exec_regwrite_of_regAt_none (regAt_eq_none_of_outside h) x s, fun hone => ?_, fun hzero => ?_, ?_,
    fun hrun off _ _ => exec_regwrite_busy hrun off 32 x, fun hrun => ⟨?_, ?_, ?_, ?_, ?_, ?_, ?_⟩⟩
  · exact hctrl.trans (if_pos hone)
  · exact hctrl.trans (if_neg (by omega))
  · rintro off (rfl | rfl | rfl | rfl | rfl)
    · exact exec_regwrite_regOffset .status x s
    · exact exec_regwrite_regOffset .outLen x s
    · exact exec_regwrite_regOffset .cursor x s
    · exact exec_regwrite_regOffset .availLo x s
    · exact exec_regwrite_regOffset .availHi x s
  · rw [BitVec.ofNat_toNat]; exact exec_regwrite_outside_run (r := .hdrflag) hrun rfl
  · exact exec_regwrite_outside_run (r := .csize) hrun rfl
  · exact exec_regwrite_outside_run (r := .dsize) hrun rfl
  · rw [← maskAddr_setLow]; exact exec_regwrite_outside_run (r := .pbaseLo) hrun rfl
  · rw [← maskAddr_setHigh]; exact exec_regwrite_outside_run (r := .pbaseHi) hrun rfl
  · rw [← maskAddr_setLow]; exact exec_regwrite_outside_run (r := .obaseLo) hrun rfl
  · rw [← maskAddr_setHigh]; exact exec_regwrite_outside_run (r := .obaseHi) hrun rfl

/-! ### Register reads -/

/-- The low half of a 64-bit register, as arithmetic. -/
theorem lowHalf_eq_ofNat (v : Dword) : v.extractLsb' 0 32 = BitVec.ofNat 32 (v.toNat % 2 ^ 32) := by
  apply BitVec.eq_of_toNat_eq
  simp

/-- The high half of a 64-bit register, as arithmetic. -/
theorem highHalf_eq_ofNat (v : Dword) : v.extractLsb' 32 32 = BitVec.ofNat 32 (v.toNat / 2 ^ 32) := by
  apply BitVec.eq_of_toNat_eq
  rw [BitVec.extractLsb'_toNat, Nat.shiftRight_eq_div_pow, BitVec.toNat_ofNat]

/-- The low half of a signed 64-bit register, as arithmetic on its value. -/
theorem lowHalf_eq_ofInt (v : Dword) : v.extractLsb' 0 32 = BitVec.ofInt 32 v.toInt := by
  apply BitVec.eq_of_toNat_eq
  rw [lowHalf_eq_ofNat, BitVec.toNat_ofNat, BitVec.toNat_ofInt, BitVec.toInt_eq_toNat_cond]
  split <;> omega

/-- The high half of a signed 64-bit register, as arithmetic on its value. -/
theorem highHalf_eq_ofInt (v : Dword) : v.extractLsb' 32 32 = BitVec.ofInt 32 (v.toInt / 2 ^ 32) := by
  apply BitVec.eq_of_toNat_eq
  rw [highHalf_eq_ofNat, BitVec.toNat_ofNat, BitVec.toNat_ofInt, BitVec.toInt_eq_toNat_cond]
  split <;> omega

/-- STATUS as the word of the sum of its fields (10 R31). -/
theorem status_eq_ofNat (s : State) :
    s.status = BitVec.ofNat 32
      (s.err.bits.toNat * 2 ^ 8 + s.ovr.toNat * 2 ^ 3 + s.trunc.toNat * 2 ^ 2 + s.run.bits.toNat) := by
  rw [← status_toNat, BitVec.ofNat_toNat, BitVec.setWidth_eq]

/-- A host read that reaches no register returns 0 (10 R29, 45 R244). -/
theorem exec_regread_of_regAt_none {off width : Nat} (h : regAt off width = none) (s : State) :
    exec (.regread off width) s = .next { s with rdata := 0 } := by
  simp [exec, execRegread, readWindow, h]

/-- A host read at a register's offset returns a value that register is known to have. -/
theorem exec_regread_of_readReg {r : Reg} {s : State} {v : Word} (h : readReg r s = v) :
    exec (.regread (regOffset r) 32) s = .next { s with rdata := v } := by
  rw [exec_regread_regOffset, h]

/-- Settles O54: an access outside the window reads 0; at a register's offset it reads that register, whose halves and fields
are arithmetic on its value. -/
theorem registerReadsReturnTheRegister : Obligations.RegisterReadsReturnTheRegister := by
  intro s
  refine ⟨fun off width h => exec_regread_of_regAt_none (regAt_eq_none_of_outside h) s, ?_, ?_, ?_, ?_, ?_, ?_, ?_, ?_, ?_, ?_,
    ?_, ?_, ?_⟩
  · exact exec_regread_regOffset .ctrl s
  · exact exec_regread_of_readReg (r := .status) (status_eq_ofNat s)
  · exact exec_regread_of_readReg (r := .hdrflag) (BitVec.ofNat_toNat 32 s.hdrflag).symm
  · exact exec_regread_regOffset .csize s
  · exact exec_regread_regOffset .dsize s
  · exact exec_regread_of_readReg (r := .pbaseLo) (lowHalf_eq_ofNat s.pbase)
  · exact exec_regread_of_readReg (r := .pbaseHi) (highHalf_eq_ofNat s.pbase)
  · exact exec_regread_of_readReg (r := .obaseLo) (lowHalf_eq_ofNat s.obase)
  · exact exec_regread_of_readReg (r := .obaseHi) (highHalf_eq_ofNat s.obase)
  · exact exec_regread_regOffset .outLen s
  · exact exec_regread_regOffset .cursor s
  · exact exec_regread_of_readReg (r := .availLo) (lowHalf_eq_ofInt s.avail)
  · exact exec_regread_of_readReg (r := .availHi) (highHalf_eq_ofInt s.avail)

end Sys2Proof.Machine
end

section
/-! The host software on a container (45_host_commands.md R246, R249, R250): the header parse, the store decoder and the dispatch
on the compression type. -/

namespace Sys2Proof.Machine

/-! ### The header parse -/

/-- After the magic the parse is that of the fields (45 R246). -/
theorem parseHeader_of_magic {h : List Byte} (hmagic : h.take 3 = magic) (mask : Config.TypeMask) :
    parseHeader mask h = parseFields (typeMaskByte mask) h :=
  if_neg (not_not_intro hmagic)

/-- Three bytes that are not the magic fail, and nothing after them is looked at (45 R246). -/
theorem parseHeader_of_not_magic {h : List Byte} (hmagic : h.take 3 ≠ magic) (mask : Config.TypeMask) :
    parseHeader mask h = .fail .notEdlContainer :=
  if_pos hmagic

/-- Settles O57: behind the magic the fields come back from their bytes; without it the parse fails. -/
theorem headerParseRecoversTheFields : Obligations.HeaderParseRecoversTheFields := by
  refine ⟨fun mask flag c d more => ?_, fun mask h _ hmagic => parseHeader_of_not_magic hmagic mask⟩
  have hfields := parseFields_sizeBytes (typeMaskByte mask) 0x45 0x44 0x4C flag c d more
  rw [parseHeader_of_magic rfl]
  cases mask <;> simpa [typeMaskByte] using hfields

/-! ### The store decoder -/

/-- As many bytes as the stream has after the header and the header declares (45 R250). -/
theorem storeDecode_length (source : List Byte) (h : Header) :
    (storeDecode source h).length = min (source.length - 12) h.dsize.toNat := by
  simp [storeDecode, Config.headerBytes]

/-- Byte `i` of the decoded output is byte `12 + i` of the container (45 R250). -/
theorem storeDecode_getElem? (source : List Byte) (h : Header) {i : Nat} (hi : i < min (source.length - 12) h.dsize.toNat) :
    (storeDecode source h)[i]? = source[12 + i]? := by
  rw [storeDecode, List.getElem?_take_of_lt hi, List.getElem?_drop]

/-! ### The dispatch -/

/-- A failed header parse is the result (45 R249). -/
theorem decompress_of_fail {mask : Config.TypeMask} {source : List Byte} {e : HostError}
    (hparse : parseHeader mask source = .fail e) (a obase : Nat) (polls : List Nat) (s : State) :
    decompress mask source a obase polls s = .returned (.fail e) s := by
  simp only [decompress, hparse]

/-- Behind a parsed header the type chooses the store decoder, the engine, or the failure (45 R249). -/
theorem decompress_of_ok {mask : Config.TypeMask} {source : List Byte} {h : Header} (hparse : parseHeader mask source = .ok h)
    (a obase : Nat) (polls : List Nat) (s : State) :
    decompress mask source a obase polls s =
      if h.compressionType = 0 then .returned (.ok (storeDecode source h)) s
      else if h.compressionType = 1 then engineRun source h (source.getD 3 0) a obase polls s
      else .returned (.fail .unsupportedCompressionType) s := by
  simp only [decompress, hparse]

/-- Settles O59: the parse's failure, the store decoder's length and bytes, and the three cases of the type. -/
theorem dispatchAndStoreDecode : Obligations.DispatchAndStoreDecode := by
  refine ⟨fun mask source a obase polls s e hparse => decompress_of_fail hparse a obase polls s,
    fun source h => ⟨storeDecode_length source h, fun i hi => storeDecode_getElem? source h hi⟩,
    fun mask source a obase polls s h hparse => ?_⟩
  rw [decompress_of_ok hparse]
  refine ⟨fun hstore => if_pos hstore, fun hengine => ?_, fun hne0 hne1 => ?_⟩
  · have hne0 : h.compressionType ≠ 0 := by rw [hengine]; decide
    rw [if_neg hne0, if_pos hengine]
  · rw [if_neg hne0, if_neg hne1]

end Sys2Proof.Machine
end

section
/-! The reset input (70_reset_and_hazards.md R300): the registers' reset values, STATUS among them, and the memories kept. -/

namespace Sys2Proof.Machine

/-- STATUS of an IDLE engine with no flag and no error set (10 R31, R47). -/
theorem status_eq_zero {s : State} (hrun : s.run = .idle) (htrunc : s.trunc = false) (hovr : s.ovr = false)
    (herr : s.err = .none) : s.status = 0 := by
  apply BitVec.eq_of_toNat_eq
  rw [status_toNat, hrun, htrunc, hovr, herr]
  rfl

/-- Settles O13: the fields are those of `execReset`; reset leaves SRC, OUT, the tainted addresses and the parameters, so
both memories read as before. -/
theorem resetInputClearsEveryRegister : Obligations.ResetInputClearsEveryRegister := by
  intro s
  refine ⟨_, rfl, rfl, ?_, ?_⟩
  · exact status_eq_zero rfl rfl rfl rfl
  · exact sameMemory_of_fields rfl rfl rfl rfl

end Sys2Proof.Machine
end

section
/-! What Build answers (42_table_builder.md R160 to R173): its errors, the range of its tables, its worked examples; and how
TBUILD and Resolve use it (41_block_sequencer.md R136, 43_symbol_decode.md R190, R201). -/

namespace Sys2Proof.Machine

/-! ### Errors of Build -/

/-- With a primary width of at least 8 the depth check never fails, and the capacity check fails exactly when the groups
need more slots than the overflow RAM has (42 R167, R168). -/
theorem build_errors {pb : Nat} (hpb : 8 ≤ pb) (lens : List CodeLen) :
    build pb lens ≠ .error .invalidTableEntry ∧
    (build pb lens = .error .sampleOverflow ↔
      0x1FF < ((groups pb ((canonicalCodes lens).filter fun c => pb ≤ c.len)).map fun g => 2 ^ g.depth).sum) := by
  have hdepth : ∀ g ∈ groups pb ((canonicalCodes lens).filter fun c => pb ≤ c.len), g.depth ≤ 8 := fun g hg =>
    Nat.le_succ_of_le (groups_depth _ hpb hg)
  simpa [build] using allocate_errors (pb := pb) _ 0 _ hdepth (Nat.zero_le _)

/-- Settles O36: the depth of a group is at most 15 less the primary width. -/
theorem buildNeverRaisesInvalidTableEntry : Obligations.BuildNeverRaisesInvalidTableEntry :=
  fun _ lens hpb => (build_errors hpb lens).1

/-- Settles O37: the slot counter of the allocation starts at 0 and ends at the sum. -/
theorem sampleOverflowCountsTheSlots : Obligations.SampleOverflowCountsTheSlots :=
  fun _ lens hpb => (build_errors hpb lens).2

/-- The allocation raises no error but its two (42 R173). -/
theorem allocate_error {pb : Nat} {gs : List Group} {ctr : Nat} {t : CodeTable pb} {e : ErrCode}
    (h : allocate gs ctr t = .error e) : e = .invalidTableEntry ∨ e = .sampleOverflow := by
  induction gs generalizing ctr t with
  | nil => cases h
  | cons g gs ih =>
    rcases allocate_cons g gs ctr t with ⟨-, e'⟩ | ⟨-, -, e'⟩ | ⟨-, -, e'⟩ <;> rw [e'] at h
    · cases h; exact .inl rfl
    · cases h; exact .inr rfl
    · exact ih h

/-- With a primary width of at least 8 Build fails with SampleOverflow only. -/
theorem build_error {pb : Nat} (hpb : 8 ≤ pb) {lens : List CodeLen} {e : ErrCode} (h : build pb lens = .error e) :
    e = .sampleOverflow := by
  rcases allocate_error h with rfl | rfl
  · exact absurd h (build_errors hpb lens).1
  · rfl

/-! ### The range of a built table -/

/-- The direct entry of a canonical code of at most 511 lengths is in range (42 R171). -/
theorem directEntry_ok_of_mem {lens : List CodeLen} (hlen : lens.length ≤ 511) {c : Code} (hc : c ∈ canonicalCodes lens) :
    PrimaryOk (directEntry c) ∧ (entryValue (directEntry c)).toNat ≤ 510 := by
  obtain ⟨⟨hsym, -⟩, hpos, hmax, -⟩ := mem_canonicalCodes hc
  exact directEntry_ok (by omega) hpos hmax

/-- Settles O38: the short codes leave a table in range, and the allocation keeps it in range. -/
theorem builtTablesStayInRange : Obligations.BuiltTablesStayInRange := by
  intro pb lens t hpb hlen hbuild
  refine allocate_ok _ 0 _ t ?_ (fun g hg => groups_depth _ hpb hg) (fun g hg c hc => ?_) hbuild
  · exact foldl_writeShort_ok _ _ (emptyTable_ok pb) fun c hc => (directEntry_ok_of_mem hlen (List.mem_of_mem_filter hc)).1
  · obtain ⟨hmembers, -, -⟩ := mem_groups hg
    rw [hmembers] at hc
    exact (directEntry_ok_of_mem hlen (List.mem_of_mem_filter (List.mem_of_mem_filter hc))).2

/-! ### TBUILD -/

/-- Settles O31: the lengths TBUILD builds from are `codeLens`, and a table that builds is written to the two RAMs. -/
theorem builtTableIsInstalled : Obligations.BuiltTableIsInstalled := by
  intro s lens hlens
  obtain rfl := lengthsAre_iff.1 hlens
  exact ⟨fun t h => by rw [exec, execTbuildL, h, nextTable], fun t h => by rw [exec, execTbuildS, h, nextTable]⟩

/-- Settles O32: a failed build raises its error on the state whose two RAMs hold free values. -/
theorem failedBuildRaisesItsError : Obligations.FailedBuildRaisesItsError := by
  intro s lens e hlens
  obtain rfl := lengthsAre_iff.1 hlens
  refine ⟨fun h => ⟨_, by rw [exec, execTbuildL, h], rfl⟩, fun h => ⟨_, by rw [exec, execTbuildS, h], rfl⟩⟩

/-! ### Worked examples -/

/-- Build answers a table that passes a check. -/
def buildsWith {pb : Nat} (lens : List CodeLen) (p : CodeTable pb → Bool) : Bool :=
  match build pb lens with
  | .ok t => p t
  | .error _ => false

theorem exists_of_buildsWith {pb : Nat} {lens : List CodeLen} {p : CodeTable pb → Bool} (h : buildsWith lens p = true) :
    ∃ t, build pb lens = .ok t ∧ p t = true := by
  unfold buildsWith at h
  split at h
  · exact ⟨_, ‹_›, h⟩
  · cases h

/-- Settles O39: each example is evaluated, and its table's entries compared. -/
theorem builderWorkedExamples : Obligations.BuilderWorkedExamples := by
  refine ⟨?_, ?_, ?_, ?_⟩
  · obtain ⟨t, hbuild, h⟩ := exists_of_buildsWith (pb := 8) (lens := [2, 1, 3, 3]) (p := fun t => decide
      (t.primary[0] = 0x0081 ∧ t.primary[1] = 0x0002 ∧ t.primary[3] = 0x0103 ∧ t.primary[255] = 0x0183)) (by decide +kernel)
    exact ⟨t, hbuild, of_decide_eq_true h⟩
  · obtain ⟨t, hbuild, h⟩ := exists_of_buildsWith (pb := 8) (lens := [1, 9]) (p := fun t => decide
      (t.primary[254] = 0x0001 ∧ t.primary[1] = 0x0010 ∧ t.primary[3] = 0 ∧ t.overflow[0] = 0x0089 ∧ t.overflow[1] = 0))
      (by decide +kernel)
    exact ⟨t, hbuild, of_decide_eq_true h⟩
  · obtain ⟨t, hbuild, h⟩ := exists_of_buildsWith (pb := 8) (lens := [1, 1, 1]) (p := fun t => decide
      (t.primary[0] = 0x0101 ∧ t.primary[1] = 0x0081)) (by decide +kernel)
    exact ⟨t, hbuild, of_decide_eq_true h⟩
  · obtain ⟨t, hbuild, h⟩ := exists_of_buildsWith (pb := 10) (lens := [15, 15]) (p := fun t => decide
      (t.primary[0] = 0x0050 ∧ t.overflow[0] = 0x000F ∧ t.overflow[16] = 0x008F ∧ t.overflow[1] = 0)) (by decide +kernel)
    exact ⟨t, hbuild, of_decide_eq_true h⟩

/-! ### Resolve -/

/-- VALUE as arithmetic on the entry (10 R41). -/
theorem entryValue_eq (e : Entry) : entryValue e = BitVec.ofNat 9 (e.toNat / 128) :=
  BitVec.eq_of_toNat_eq (by simp [entryValue, BitVec.extractLsb'_toNat, Nat.shiftRight_eq_div_pow])

theorem entryValue_toNat (e : Entry) : (entryValue e).toNat = e.toNat / 128 := by
  have := e.isLt
  rw [entryValue_eq, BitVec.toNat_ofNat]
  omega

/-- DEPTH as arithmetic on the entry (10 R41). -/
theorem entryDepth_toNat (e : Entry) : (entryDepth e).toNat = e.toNat / 16 % 8 := by
  simp [entryDepth, BitVec.extractLsb'_toNat, Nat.shiftRight_eq_div_pow]

/-- LEN as arithmetic on the entry (10 R41). -/
theorem entryLen_eq (e : Entry) : entryLen e = BitVec.ofNat 4 (e.toNat % 16) :=
  BitVec.eq_of_toNat_eq (by simp [entryLen, BitVec.extractLsb'_toNat])

theorem entryLen_eq_zero_iff (e : Entry) : entryLen e = 0 ↔ e.toNat % 16 = 0 := by
  rw [entryLen_eq, BitVec.toNat_eq]
  simp

/-- The overflow index as arithmetic on the entry and the window (43 R190). -/
theorem overflowIndex_eq (pb : Nat) (e : Entry) (win : Dword) :
    overflowIndex pb e win = e.toNat / 128 + win.toNat / 2 ^ pb % 2 ^ (e.toNat / 16 % 8) := by
  rw [overflowIndex, entryValue_toNat, entryDepth_toNat, peekAt]

/-- A direct entry answers its own VALUE and LEN (43 R190). -/
theorem resolve_of_direct {pb : Nat} {t : CodeTable pb} {win : Dword} (h : entryLen (primaryEntry t win) ≠ 0) :
    resolve t win = .ok { value := entryValue (primaryEntry t win), len := entryLen (primaryEntry t win) } :=
  if_pos h

/-- An escape answers the VALUE and LEN of the overflow entry it selects (43 R190). -/
theorem resolve_of_escape {pb : Nat} {t : CodeTable pb} {win : Dword} (h : entryLen (primaryEntry t win) = 0) {i : Nat}
    (hi : overflowIndex pb (primaryEntry t win) win = i) (hlt : i < Config.ovfEntries) :
    resolve t win = .ok { value := entryValue t.overflow[i], len := entryLen t.overflow[i] } := by
  subst hi
  simp only [resolve, h, ne_eq, not_true_eq_false, if_false, dif_pos hlt]

/-- An escape past the overflow RAM is the model fault (43 R190). -/
theorem resolve_of_past {pb : Nat} {t : CodeTable pb} {win : Dword} (h : entryLen (primaryEntry t win) = 0)
    (hpast : Config.ovfEntries ≤ overflowIndex pb (primaryEntry t win) win) : resolve t win = .error .overflowIndex := by
  simp only [resolve, h, ne_eq, not_true_eq_false, if_false, dif_neg (Nat.not_lt.2 hpast)]

/-- Settles O40: the three cases of Resolve, with the entry's fields and the index as arithmetic. -/
theorem resolveFollowsTheEscape : Obligations.ResolveFollowsTheEscape := by
  rintro pb t win e rfl
  have hzero := entryLen_eq_zero_iff (primaryEntry t win)
  have hindex := overflowIndex_eq pb (primaryEntry t win) win
  refine ⟨fun h => ?_, fun h => ⟨fun hlt => ?_, fun hpast => ?_⟩⟩
  · rw [resolve_of_direct (mt hzero.1 h), entryValue_eq, entryLen_eq]; rfl
  · rw [resolve_of_escape (hzero.2 h) hindex hlt, entryValue_eq, entryLen_eq]; rfl
  · exact resolve_of_past (hzero.2 h) (by rw [hindex]; exact hpast)

/-- Settles O41: every entry of a cleared table is 0, an escape with base and depth 0 to an entry 0. -/
theorem clearedTableResolvesToZero : Obligations.ClearedTableResolvesToZero := by
  intro pb win
  have hentry : primaryEntry (emptyTable pb) win = 0 := by simp [primaryEntry, emptyTable]
  have hindex : overflowIndex pb (primaryEntry (emptyTable pb) win) win = 0 := by
    rw [overflowIndex_eq, hentry]; simp [Nat.mod_one]
  rw [resolve_of_escape (by rw [hentry]; decide) hindex (by decide)]
  simp [emptyTable, entryValue, entryLen]

end Sys2Proof.Machine
end

section
/-! The element a run fetches, by the row it is: the sequencer state it was read in and the ranges of its operands
(30_encoding.md R82); and a step, by the agent that moves (00_scope.md R9). -/

namespace Sys2Proof.Machine

/-! ### The fetched element -/

/-- What fetching row `i` says of the state: the sequencer state of the opcode table, and where an operand that has a range of
its own comes from. -/
def ReadIn (s : State) : Instr → Prop
  | .btLit | .btTbl => s.seq = .bt
  | .lcnt _ => s.seq = .lcnt
  | .lbyte _ => s.seq = .lbyte
  | .tcnt w _ => s.seq = .tcnt w
  | .len0 w | .len w => s.seq = .tflag w
  | .lenNib w _ => s.seq = .tnib w
  | .symLit _ _ | .symEnd _ => s.seq = .sym
  | .symBref v _ => s.seq = .sym ∧ 0x101 ≤ v.toNat ∧ ∃ win r, resolve s.largeTable win = .ok r ∧ r.value = v
  | .xbLen k x => s.seq = .lextra ∧ x.toNat < 2 ^ k.val ∧ ∃ r, s.lengthRow? s.lidx.toNat = some r ∧ r.extra = k
  | .dsym d _ => s.seq = .dsym ∧ ∃ win r, resolve s.smallTable win = .ok r ∧ r.value = d
  | .xbDist k y => s.seq = .dextra ∧ y.toNat < 2 ^ k.val ∧ ∃ r, s.distRow? s.didx.toNat = some r ∧ r.extra = k
  | .eob0 | .eob1 => s.seq = .eob
  | .tbuildL => s.seq = .tbuild .large
  | .tbuildS => s.seq = .tbuild .small
  | .copy => s.seq = .copy
  | .start | .regwrite _ _ _ | .regread _ _ | .reset => False

/-- The classes of a resolved symbol (43 R192 to R194). -/
theorem symbolInstr_cases (r : Resolved) :
    (r.value.toNat < 0x100 ∧ symbolInstr r = .symLit (r.value.setWidth 8) r.len) ∨
    (r.value.toNat = 0x100 ∧ symbolInstr r = .symEnd r.len) ∨
    (0x101 ≤ r.value.toNat ∧ symbolInstr r = .symBref r.value r.len) := by
  unfold symbolInstr
  simp only [Config.sentinel]
  split
  · exact .inl ⟨‹_›, rfl⟩
  · split
    · exact .inr (.inl ⟨‹_›, rfl⟩)
    · exact .inr (.inr ⟨by omega, rfl⟩)

/-- What a mapped result was mapped from. -/
theorem exists_of_map_ok {ε α β : Type} {f : α → β} {x : Except ε α} {b : β} (h : x.map f = .ok b) :
    ∃ a, x = .ok a ∧ f a = b := by
  cases x with
  | error e => cases h
  | ok a => cases h; exact ⟨a, rfl, rfl⟩

/-- An extra field fits its width (40 R116). -/
theorem peekWord_lt (win : Dword) (k : Nat) : (BitVec.ofNat 32 (peek win k)).toNat < 2 ^ k := by
  rw [BitVec.toNat_ofNat]
  exact (Nat.mod_le _ _).trans_lt (peek_lt win k)

/-- A fetched element is one of the sequencer state's own. -/
theorem readIn_of_fetched {s : State} {i : Instr} (h : fetchInstr s = .ok i) : ReadIn s i := by
  obtain ⟨c, win, hctx, -, hd⟩ := fetchInstr_ok h
  rcases contextOf_cases hctx with ⟨hs, rfl⟩ | ⟨hs, rfl⟩ | ⟨hs, rfl⟩ | ⟨hs, rfl⟩ | ⟨w, hs, rfl⟩ | ⟨w, hs, rfl⟩ | ⟨w, hs, rfl⟩ |
    ⟨w, hs, rfl⟩ | ⟨hs, rfl⟩ | ⟨hs, r, hr, rfl⟩ | ⟨hs, rfl⟩ | ⟨hs, r, hr, rfl⟩ | ⟨hs, rfl⟩ | ⟨hs, rfl⟩
  -- IDLE, BT, LCNT, LBYTE, TCNT, TFLAG, TNIB, TBUILD
  · cases hd
  · cases hd; split <;> exact hs
  · cases hd; exact hs
  · cases hd; exact hs
  · cases hd; exact hs
  · cases hd; split <;> exact hs
  · cases hd; exact hs
  · cases w <;> cases hd <;> exact hs
  -- SYM, LEXTRA, DSYM, DEXTRA
  · obtain ⟨r, hr, rfl⟩ := exists_of_map_ok hd
    rcases symbolInstr_cases r with ⟨-, e⟩ | ⟨-, e⟩ | ⟨hv, e⟩ <;> rw [e]
    · exact hs
    · exact hs
    · exact ⟨hs, hv, win, r, hr, rfl⟩
  · cases hd; exact ⟨hs, peekWord_lt _ _, r, hr, rfl⟩
  · obtain ⟨r, hr, rfl⟩ := exists_of_map_ok hd
    exact ⟨hs, win, r, hr, rfl⟩
  · cases hd; exact ⟨hs, peekWord_lt _ _, r, hr, rfl⟩
  -- COPY, EOB
  · cases hd; exact hs
  · cases hd; split <;> exact hs

/-- The operands a state with a known SEQ has. -/
theorem operandsOk_at {s : State} {q : Seq} (h : s.OperandsOk) (hs : s.seq = q) : ({ s with seq := q }).OperandsOk := by
  subst hs; exact h

/-- Settles O10: the tables and rows of the invariant bound what the sequencer state's element can be. -/
theorem fetchedElementsAreWellFormed : Obligations.FetchedElementsAreWellFormed := by
  intro s i hinv hbusy hfetch
  have hread := readIn_of_fetched hfetch
  obtain ⟨hlarge, hsmall⟩ := hinv.tablesOk hbusy
  have hextra : ∀ {k : Fin 33} {x : Word}, 0 < k.val → x.toNat < 2 ^ k.val → wfExtra k x = true := fun hk hx => by
    simp only [wfExtra, Bool.and_eq_true, decide_eq_true_eq]; exact ⟨hk, hx⟩
  cases i with
  | symBref v l =>
    obtain ⟨-, hlo, win, r, hr, rfl⟩ := hread
    obtain ⟨r', hr', hle⟩ := resolve_ok hlarge win
    obtain rfl : r = r' := Except.ok.inj (hr.symm.trans hr')
    simp only [Instr.wf, Bool.and_eq_true, decide_eq_true_eq]
    omega
  | dsym d l =>
    obtain ⟨-, win, r, hr, rfl⟩ := hread
    obtain ⟨r', hr', hle⟩ := resolve_ok hsmall win
    obtain rfl : r = r' := Except.ok.inj (hr.symm.trans hr')
    simpa only [Instr.wf, decide_eq_true_eq] using hle
  | xbLen k x =>
    obtain ⟨hs, hx, r, hr, rfl⟩ := hread
    obtain ⟨r', hr', hpos⟩ := operandsOk_at hinv.operandsOk hs
    obtain rfl : r = r' := Option.some.inj (hr.symm.trans hr')
    exact hextra hpos hx
  | xbDist k y =>
    obtain ⟨hs, hy, r, hr, rfl⟩ := hread
    obtain ⟨-, r', hr', hpos⟩ := operandsOk_at hinv.operandsOk hs
    obtain rfl : r = r' := Option.some.inj (hr.symm.trans hr')
    exact hextra hpos hy
  | start | regwrite | regread | reset => exact hread.elim
  | btLit | btTbl | lcnt | lbyte | tcnt | len0 | len | lenNib | symLit | symEnd | eob0 | eob1 | tbuildL | tbuildS | copy => rfl

/-! ### A step that answers a next state -/

/-- Everything a step that answers a next state did: nothing, on the turn of an engine that is not BUSY; the element the engine
fetched; the host row of a bus access; or a host memory access. -/
theorem step_next_cases {s t : State} (h : step s = .next t) :
    (s.engineNext ∧ s.run ≠ .busy ∧ t = s.afterTurn) ∨
    (s.engineNext ∧ s.run = .busy ∧ ∃ i, fetchInstr s.afterTurn = .ok i ∧ exec i s.afterTurn = .next t) ∨
    (∃ e rest, s.turns = .bus e :: rest ∧ exec (decodeBus e) s.afterTurn = .next t) ∨
    (∃ a b rest, s.turns = .srcWrite a b :: rest ∧ hostSrcWrite a b s.afterTurn = .next t) ∨
    (∃ a b rest, s.turns = .outWrite a b :: rest ∧ hostOutWrite a b s.afterTurn = .next t) ∨
    (∃ a rest, s.turns = .outRead a :: rest ∧ hostOutRead a s.afterTurn = .next t) := by
  rcases step_cases s with ⟨hn, e⟩ | ⟨b, rest, ht, e⟩ | ⟨a, b, rest, ht, e⟩ | ⟨a, b, rest, ht, e⟩ | ⟨a, rest, ht, e⟩ <;>
    rw [e] at h
  · rcases engineStep_cases s.afterTurn with ⟨hr, e'⟩ | ⟨-, f, -, e'⟩ | ⟨hr, i, hi, e'⟩ <;> rw [e'] at h
    · exact .inl ⟨hn, hr, (Host.Outcome.next.inj h).symm⟩
    · cases h
    · exact .inr (.inl ⟨hn, hr, i, hi, h⟩)
  · exact .inr (.inr (.inl ⟨b, rest, ht, h⟩))
  · exact .inr (.inr (.inr (.inl ⟨a, b, rest, ht, h⟩)))
  · exact .inr (.inr (.inr (.inr (.inl ⟨a, b, rest, ht, h⟩))))
  · exact .inr (.inr (.inr (.inr (.inr ⟨a, rest, ht, h⟩))))

/-- On the engine's turn a next state is the old one, or what the fetched element answers. -/
theorem step_next_engine {s t : State} (hn : s.engineNext) (h : step s = .next t) :
    t = s.afterTurn ∨ ∃ i, fetchInstr s.afterTurn = .ok i ∧ encodeBus i = none ∧ exec i s.afterTurn = .next t := by
  rw [engine_step hn] at h
  rcases engineStep_cases s.afterTurn with ⟨-, e⟩ | ⟨-, f, -, e⟩ | ⟨-, i, hi, e⟩ <;> rw [e] at h
  · exact .inl (Host.Outcome.next.inj h).symm
  · cases h
  · exact .inr ⟨i, hi, encodeBus_of_fetched hi, h⟩

/-- A host write is START, or the register write it says (30 R95, 45 R241). -/
theorem decodeBus_write (off width : Nat) (data : Word) :
    ((off = 0 ∧ width = 32 ∧ data.getLsbD 0 = true) ∧ decodeBus (.write off width data) = .start) ∨
    (¬(off = 0 ∧ width = 32 ∧ data.getLsbD 0 = true) ∧ decodeBus (.write off width data) = .regwrite off width data) := by
  by_cases h : off = 0 ∧ width = 32 ∧ data.getLsbD 0 = true
  · exact .inl ⟨h, if_pos h⟩
  · exact .inr ⟨h, if_neg h⟩

/-- The row a bus access decodes to is a host row (30 R95). -/
theorem encodeBus_decodeBus_ne_none (e : BusAccess) : encodeBus (decodeBus e) ≠ none := by
  cases e with
  | write off width data =>
    rcases decodeBus_write off width data with ⟨-, h⟩ | ⟨-, h⟩ <;> rw [h] <;> simp [encodeBus]
  | read off width => simp [decodeBus, encodeBus]
  | resetInput => simp [decodeBus, encodeBus]

/-- A host write of source memory writes a byte of the one memory or of the source memory, and marks its address. -/
theorem hostSrcWrite_next {a : Nat} {b : Byte} {s t : State} (h : hostSrcWrite a b s = .next t) :
    (s.cfg.oneMemory = true ∧ s.hostWriteRefused a = false ∧ t = taint a { s with out := s.out.write (s.wrap a) b }) ∨
    (s.cfg.oneMemory = false ∧ t = taint a { s with src := s.src.write (s.wrap a) b }) := by
  unfold hostSrcWrite at h
  split at h
  · rename_i hone
    split at h
    · cases h
    · rename_i href
      cases h
      exact .inl ⟨hone, Bool.eq_false_iff.2 href, rfl⟩
  · rename_i hone
    cases h
    exact .inr ⟨Bool.eq_false_iff.2 hone, rfl⟩

/-- A host write of output memory writes a byte of it, and with one memory marks its address. -/
theorem hostOutWrite_next {a : Nat} {b : Byte} {s t : State} (h : hostOutWrite a b s = .next t) :
    s.hostWriteRefused a = false ∧
      ((s.cfg.oneMemory = true ∧ t = taint a { s with out := s.out.write (s.wrap a) b }) ∨
       (s.cfg.oneMemory = false ∧ t = { s with out := s.out.write (s.wrap a) b })) := by
  unfold hostOutWrite at h
  split at h
  · cases h
  · rename_i href
    refine ⟨Bool.eq_false_iff.2 href, ?_⟩
    split at h
    · rename_i hone; cases h; exact .inl ⟨hone, rfl⟩
    · rename_i hone; cases h; exact .inr ⟨Bool.eq_false_iff.2 hone, rfl⟩

/-! ### The engine's own steps -/

/-- Settles O3: the engine step of a machine that is not BUSY is the state itself. -/
theorem idleEngineTakesNoStep : Obligations.IdleEngineTakesNoStep := by
  intro s hrun hn
  rw [engine_step hn]
  exact if_neg hrun

/-- Settles O11: an element leaves the inputs of a run alone, and the turn is used up. -/
theorem engineStepsLeaveTheRunsInputs : Obligations.EngineStepsLeaveTheRunsInputs := by
  intro s t hn hstep
  have hsame : SameInputs s.afterTurn t := by
    rcases step_next_engine hn hstep with rfl | ⟨i, -, hi, hexec⟩
    · simp [SameInputs]
    · exact exec_sameInputs hi hexec
  exact hsame

/-- Settles O12: an element appends at most one byte, and OCUR below DSIZE does not wrap when it counts it. -/
theorem engineStepsWriteOnlyTheNextOutputByte : Obligations.EngineStepsWriteOnlyTheNextOutputByte := by
  intro s t hn hstep
  have happ : AppendsAtMostOne s.afterTurn t := by
    rcases step_next_engine hn hstep with rfl | ⟨i, -, hi, hexec⟩
    · exact ⟨rfl, .inl ⟨rfl, rfl⟩⟩
    · exact exec_appendsAtMostOne hi hexec
  obtain ⟨hcfg, ⟨hocur, hout⟩ | ⟨hlt, hocur, b, hstored⟩⟩ := happ
  · exact .inl ⟨hocur, fun a => by simp [State.outByte?, State.wrap, hcfg, hout]⟩
  · refine .inr ⟨hlt, ?_, b, storedByte_of_fields' hstored rfl rfl rfl rfl⟩
    rw [hocur]
    change s.ocur < s.dsize at hlt
    change (s.ocur + 1).toNat = s.ocur.toNat + 1
    bv_omega

end Sys2Proof.Machine
end

section
/-! The meaning of every element as one effect on the state whose window has moved (40_bit_window.md R115): its bits are read
first, and the rest of the step does not depend on the window. -/

namespace Sys2Proof.Machine

/-! ### The effect of a row -/

/-- XB.LEN after its bits (43 R195). -/
def completeLength (x : Word) (s : State) : State :=
  match s.lengthRow? s.lidx.toNat with
  | none => s
  | some r => { s with copyrem := copyCount r x, seq := .dsym }

/-- XB.DIST after its bits (43 R197). -/
def completeDistance (y : Word) (s : State) : State :=
  match s.distRow? s.didx.toNat with
  | none => s
  | some r => { s with dist := copyDistance r y, seq := .copy }

/-- TBUILD.L as an effect (41 R136). -/
def buildLarge (s : State) : State :=
  match build Config.largePb s.codeLens with
  | .ok t => { s with lp := t.primary, lo := t.overflow, seq := nextTable .large }
  | .error e => raiseErr e { s with lp := freeRam s.draws 0 _, lo := freeRam s.draws 1 _, draws := s.draws + 1 }

/-- TBUILD.S as an effect (41 R136). -/
def buildSmall (s : State) : State :=
  match build Config.smallPb s.codeLens with
  | .ok t => { s with sp := t.primary, so := t.overflow, seq := nextTable .small }
  | .error e => raiseErr e { s with sp := freeRam s.draws 2 _, so := freeRam s.draws 3 _, draws := s.draws + 1 }

/-- What an element does after its bits were read; a host row has no such effect. -/
def effect : Instr → State → State
  | .btLit, s => { s with seq := .lcnt }
  | .btTbl, s => { s with seq := .tcnt .large }
  | .lcnt n, s => { s with litrem := n.setWidth 16, seq := if n = 0 then .eob else .lbyte }
  | .lbyte b, s => appendThen b s countLiteral
  | .tcnt w c, s => if c = 0 then { s with seq := nextTable w } else { s with tcount := c, tidx := 0, seq := .tflag w }
  | .len0 w, s => afterLen w (storeLen 0 s)
  | .len w, s => { s with seq := .tnib w }
  | .lenNib w l, s => afterLen w (storeLen l s)
  | .symLit v _, s => appendThen v s fun u => { u with seq := .sym }
  | .symEnd _, s => { s with seq := .eob }
  | .symBref v _, s => startCopy (v.toNat - Config.copyBaseSym) s
  | .xbLen _ x, s => completeLength x s
  | .dsym d _, s => startDistance d s
  | .xbDist _ y, s => completeDistance y s
  | .eob0, s => { s with seq := .bt }
  | .eob1, s => { s with run := .done, seq := .idle }
  | .tbuildL, s => buildLarge s
  | .tbuildS, s => buildSmall s
  | .copy, s => appendThen (copySource s) s countCopied
  | .start, s | .regwrite _ _ _, s | .regread _ _, s | .reset, s => s

/-- The static row an extra-bits row needs (43 R195, R197). -/
def RowPresent (s : State) : Instr → Prop
  | .xbLen _ _ => s.lengthRow? s.lidx.toNat ≠ none
  | .xbDist _ _ => s.distRow? s.didx.toNat ≠ none
  | _ => True

/-- An element either reads its bits and has its effect, or has no bits and has its effect at once. -/
theorem exec_eq_effect {i : Instr} {s : State} (hi : encodeBus i = none) (hrow : RowPresent s i) :
    exec i s = readThen i.width s (effect i) ∨ (i.width = 0 ∧ exec i s = .next (effect i s)) := by
  cases i with
  | btLit | btTbl | lcnt | tcnt | len0 | len | lenNib | symLit | symEnd | symBref | dsym | eob0 | eob1 => exact .inl rfl
  | lbyte b => exact .inl (execLbyte_eq b s)
  | xbLen k x =>
    obtain ⟨r, hr⟩ := Option.ne_none_iff_exists'.1 hrow
    left
    rw [exec, execXbLen, hr]
    unfold readThen
    cases hu : refill s with
    | error f => rfl
    | ok u =>
      have : (take k.val u).lengthRow? (take k.val u).lidx.toNat = some r := by
        rw [refill_frame hu]; exact hr
      simp only [Instr.width, effect, completeLength, this]
  | xbDist k y =>
    obtain ⟨r, hr⟩ := Option.ne_none_iff_exists'.1 hrow
    left
    rw [exec, execXbDist, hr]
    unfold readThen
    cases hu : refill s with
    | error f => rfl
    | ok u =>
      have : (take k.val u).distRow? (take k.val u).didx.toNat = some r := by
        rw [refill_frame hu]; exact hr
      simp only [Instr.width, effect, completeDistance, this]
  | tbuildL =>
    refine .inr ⟨rfl, ?_⟩
    rw [exec, execTbuildL, effect, buildLarge]
    cases build Config.largePb s.codeLens <;> rfl
  | tbuildS =>
    refine .inr ⟨rfl, ?_⟩
    rw [exec, execTbuildS, effect, buildSmall]
    cases build Config.smallPb s.codeLens <;> rfl
  | copy => exact .inr ⟨rfl, execCopy_eq s⟩
  | start | regwrite | regread | reset => simp [encodeBus] at hi

/-- An extra-bits row that answers a next state found its static row. -/
theorem rowPresent_of_next {i : Instr} {s t : State} (h : exec i s = .next t) : RowPresent s i := by
  cases i with
  | xbLen k x => intro hr; rw [exec, execXbLen, hr] at h; cases h
  | xbDist k y => intro hr; rw [exec, execXbDist, hr] at h; cases h
  | _ => trivial

/-- An element that answers a next state read its bits, or has none, and then had its effect. -/
theorem exec_next {i : Instr} {s t : State} (hi : encodeBus i = none) (h : exec i s = .next t) :
    ∃ w, (TookBits i.width s w ∨ (i.width = 0 ∧ w = s)) ∧ t = effect i (s.withWindow w) := by
  rcases exec_eq_effect hi (rowPresent_of_next h) with e | ⟨hw, e⟩ <;> rw [e] at h
  · obtain ⟨u, hu, rfl⟩ := readThen_next h
    have htook : TookBits i.width s (take i.width u) := ⟨u, hu, rfl⟩
    exact ⟨_, .inl htook, by rw [withWindow_of_tookBits htook]⟩
  · exact ⟨s, .inr ⟨hw, rfl⟩, (Host.Outcome.next.inj h).symm⟩

/-- An element whose window can be refilled and whose static row is there answers a next state. -/
theorem exec_ok {i : Instr} {s : State} (hi : encodeBus i = none) (hrow : RowPresent s i) (h : s.Refillable) :
    ∃ t, exec i s = .next t := by
  rcases exec_eq_effect hi hrow with e | ⟨-, e⟩
  · obtain ⟨u, -, e'⟩ := readThen_ok h i.width (effect i)
    exact ⟨_, e.trans e'⟩
  · exact ⟨_, e⟩

end Sys2Proof.Machine
end

section
/-! Every step keeps the invariant of the machine (Safety.lean): the elements row by row, then the host's rows and memory
accesses. -/

namespace Sys2Proof.Machine

/-! ### Rows that set SEQ or append a byte -/

/-- The sequencer state after a table is one of a run, and needs no operand. -/
theorem nextTable_ne_idle (w : Tbl) : nextTable w ≠ .idle := by cases w <;> decide

theorem operandsOk_nextTable (w : Tbl) (s : State) : ({ s with seq := nextTable w }).OperandsOk := by
  cases w <;> trivial

/-- Counting a literal byte keeps the invariant: LITREM stays at least 1 while more bytes follow (41 R132). -/
theorem countLiteral_inv {s : State} (h : s.Inv) (hb : s.run = .busy) (hl : 1 ≤ s.litrem.toNat) : (countLiteral s).Inv := by
  refine inv_busy h hb ?_ ?_ (h.tablesOk hb) rfl
  · simp only [countLiteral]; split <;> simp
  · by_cases hlast : s.litrem = 1
    · exact operandsOk_seq (q := .eob) (if_pos hlast) trivial
    · refine operandsOk_seq (q := .lbyte) (if_neg hlast) ?_
      change 1 ≤ (s.litrem - 1).toNat
      bv_omega

/-- Counting a copied byte keeps the invariant: COPYREM stays at least 1 while more bytes follow (44 R222). -/
theorem countCopied_inv {s : State} (h : s.Inv) (hb : s.run = .busy) (hc : 1 ≤ s.copyrem.toNat) (hd : 1 ≤ s.dist.toNat) :
    (countCopied s).Inv := by
  refine inv_busy h hb ?_ ?_ (h.tablesOk hb) rfl
  · simp only [countCopied]; split <;> simp
  · by_cases hlast : s.copyrem = 1
    · exact operandsOk_seq (q := .sym) (if_pos hlast) trivial
    · refine operandsOk_seq (q := .copy) (if_neg hlast) ⟨?_, hd⟩
      change 1 ≤ (s.copyrem - 1).toNat
      bv_omega

/-! ### Table builds -/

/-- TBUILD.L installs the table of `codeLens`, or raises the error of its build on other contents of LP and LO. -/
theorem buildLarge_cases (s : State) :
    (∃ t, build 10 s.codeLens = .ok t ∧
      buildLarge s = { s with lp := t.primary, lo := t.overflow, seq := .tcnt .small }) ∨
    (∃ e lp lo d, build 10 s.codeLens = .error e ∧
      buildLarge s = raiseErr e { s with lp := lp, lo := lo, draws := d }) := by
  unfold buildLarge
  cases h : build Config.largePb s.codeLens with
  | ok t => exact .inl ⟨t, rfl, rfl⟩
  | error e => exact .inr ⟨e, _, _, _, rfl, rfl⟩

/-- TBUILD.S installs the table of `codeLens`, or raises the error of its build on other contents of SP and SO. -/
theorem buildSmall_cases (s : State) :
    (∃ t, build 8 s.codeLens = .ok t ∧
      buildSmall s = { s with sp := t.primary, so := t.overflow, seq := .sym }) ∨
    (∃ e sp so d, build 8 s.codeLens = .error e ∧
      buildSmall s = raiseErr e { s with sp := sp, so := so, draws := d }) := by
  unfold buildSmall
  cases h : build Config.smallPb s.codeLens with
  | ok t => exact .inl ⟨t, rfl, rfl⟩
  | error e => exact .inr ⟨e, _, _, _, rfl, rfl⟩

/-- The invariant of a state that is not BUSY does not look at the tables. -/
theorem inv_tables_of_not_busy {s t : State} (h : s.Inv) (hb : s.run ≠ .busy)
    (e : t = { s with lp := t.lp, lo := t.lo, sp := t.sp, so := t.so, draws := t.draws }) : t.Inv := by
  have hrun : t.run ≠ .busy := by rw [e]; exact hb
  refine ⟨?_, ?_, ?_, ?_, fun h' => absurd h' hrun, ?_, fun h' => absurd h' hrun, fun h' => absurd h' hrun⟩
  · rw [e]; exact h.seqOk
  · rw [e]; exact h.flagsOk
  · rw [e]; exact h.memOk
  · rw [e]; exact h.addressRegsOk
  · rw [e]; exact h.operandsOk

/-- TBUILD.L keeps the invariant (41 R136). -/
theorem buildLarge_inv {s : State} (h : s.Inv) (hb : s.run = .busy) : (buildLarge s).Inv := by
  rcases buildLarge_cases s with ⟨t, hbuild, e⟩ | ⟨c, lp, lo, d, hbuild, e⟩ <;> rw [e]
  · have hlarge : TableOk t := builtTablesStayInRange _ _ t (by decide) (codeLens_length s) hbuild
    exact inv_busy h hb (by simp) trivial ⟨hlarge, (h.tablesOk hb).2⟩ rfl
  · obtain rfl := build_error (by decide) hbuild
    exact inv_tables_of_not_busy (inv_raise h (trunc_false h hb) (by decide)) (by simp) rfl

/-- TBUILD.S keeps the invariant (41 R136). -/
theorem buildSmall_inv {s : State} (h : s.Inv) (hb : s.run = .busy) : (buildSmall s).Inv := by
  rcases buildSmall_cases s with ⟨t, hbuild, e⟩ | ⟨c, sp, so, d, hbuild, e⟩ <;> rw [e]
  · have hsmall : TableOk t := builtTablesStayInRange _ _ t (by decide) (codeLens_length s) hbuild
    exact inv_busy h hb (by simp) trivial ⟨(h.tablesOk hb).1, hsmall⟩ rfl
  · obtain rfl := build_error (by decide) hbuild
    exact inv_tables_of_not_busy (inv_raise h (trunc_false h hb) (by decide)) (by simp) rfl

/-! ### The elements -/

/-- The effect of a fetched element keeps the invariant. -/
theorem effect_inv {i : Instr} {s : State} (h : s.Inv) (hb : s.run = .busy) (hi : ReadIn s i) : (effect i s).Inv := by
  have hops := fun {q : Seq} (hs : s.seq = q) => operandsOk_at h.operandsOk hs
  cases i with
  | btLit | btTbl | symEnd | eob0 => exact inv_seq h hb _ (by simp) trivial
  | lcnt n =>
    refine inv_busy h hb (by simp only [effect]; split <;> simp) ?_ (h.tablesOk hb) rfl
    by_cases hn : n = 0
    · exact operandsOk_seq (q := .eob) (if_pos hn) trivial
    · refine operandsOk_seq (q := .lbyte) (if_neg hn) ?_
      change 1 ≤ (n.setWidth 16).toNat
      bv_omega
  | lbyte b => exact inv_append h hb b _ fun ha => countLiteral_inv ha hb (hops hi)
  | tcnt w c =>
    simp only [effect]
    split
    · exact inv_seq h hb _ (nextTable_ne_idle w) (operandsOk_nextTable w s)
    · refine inv_busy h hb (by simp) ?_ (h.tablesOk hb) rfl
      change 0 < c
      bv_omega
  | len0 w => exact afterLen_inv h hb w 0 (hops hi)
  | len w =>
    have hlt : s.tidx < s.tcount := hops (q := .tflag w) hi
    exact inv_seq h hb (.tnib w) (by simp) hlt
  | lenNib w l => exact afterLen_inv h hb w l (hops hi)
  | symLit v l => exact inv_append h hb v (fun u => { u with seq := .sym }) fun ha => inv_seq ha hb .sym (by simp) trivial
  | symBref v l => exact startCopy_inv (by have := v.isLt; simp only [Config.copyBaseSym]; omega) h hb
  | xbLen k x =>
    obtain ⟨-, -, r, hr, -⟩ := hi
    rw [effect, completeLength, hr]
    refine inv_busy h hb (by simp) ?_ (h.tablesOk hb) rfl
    change 3 ≤ (copyCount r x).toNat
    rw [copyCount_toNat]; omega
  | dsym d l => exact startDistance_inv h hb (hops hi.1)
  | xbDist k y =>
    obtain ⟨hs, -, r, hr, -⟩ := hi
    have hcopy : 3 ≤ s.copyrem.toNat := (hops hs).1
    rw [effect, completeDistance, hr]
    refine inv_busy h hb (by simp) ⟨?_, ?_⟩ (h.tablesOk hb) rfl
    · change 1 ≤ s.copyrem.toNat; omega
    · change 1 ≤ (copyDistance r y).toNat
      rw [copyDistance_toNat]; omega
  | eob1 =>
    have herr := err_none h (by rw [hb]; decide)
    exact ⟨by simp [State.SeqOk, effect], ⟨by simp [effect, herr], fun _ => rfl⟩, h.memOk, h.addressRegsOk,
      fun h' => (nomatch h'), trivial, fun h' => (nomatch h'), fun h' => (nomatch h')⟩
  | tbuildL => exact buildLarge_inv h hb
  | tbuildS => exact buildSmall_inv h hb
  | copy => exact inv_append h hb _ _ fun ha => countCopied_inv ha hb (hops hi).1 (hops hi).2
  | start | regwrite | regread | reset => exact hi.elim

/-- Where an element is read does not depend on the window. -/
theorem readIn_withWindow {s w : State} {i : Instr} : ReadIn (s.withWindow w) i ↔ ReadIn s i := by
  cases i <;> rfl

/-- Executing a fetched element keeps the invariant. -/
theorem exec_inv {i : Instr} {s t : State} (h : s.Inv) (hb : s.run = .busy) (hfetch : fetchInstr s = .ok i)
    (e : exec i s = .next t) : t.Inv := by
  obtain ⟨w, -, rfl⟩ := exec_next (encodeBus_of_fetched hfetch) e
  exact effect_inv (inv_withWindow h w) hb (readIn_withWindow.2 (readIn_of_fetched hfetch))

/-! ### The host's memory accesses -/

/-- A host write of source memory keeps the invariant. -/
theorem hostSrcWrite_inv {a : Nat} {b : Byte} {s t : State} (h : s.Inv) (e : hostSrcWrite a b s = .next t) : t.Inv := by
  rcases hostSrcWrite_next e with ⟨-, -, rfl⟩ | ⟨-, rfl⟩
  · exact inv_taint (inv_out h a b) a
  · exact inv_taint (inv_src h a b) a

/-- A host write of output memory keeps the invariant. -/
theorem hostOutWrite_inv {a : Nat} {b : Byte} {s t : State} (h : s.Inv) (e : hostOutWrite a b s = .next t) : t.Inv := by
  rcases hostOutWrite_next e with ⟨-, ⟨-, rfl⟩ | ⟨-, rfl⟩⟩
  · exact inv_taint (inv_out h a b) a
  · exact inv_out h a b

/-- A host read of output memory keeps the invariant. -/
theorem hostOutRead_inv {a : Nat} {s t : State} (h : s.Inv) (e : hostOutRead a s = .next t) : t.Inv := by
  rw [hostOutRead_frame e]
  exact ⟨h.seqOk, h.flagsOk, h.memOk, h.addressRegsOk, h.outputOk, h.operandsOk, h.tablesOk, h.disjointOk⟩

/-- Settles O5: each agent's step, on the state with the turn used up. -/
theorem everyStepKeepsTheInvariant : Obligations.EveryStepKeepsTheInvariant := by
  intro s t hinv hstep
  have hinv' := inv_afterTurn hinv
  rcases step_next_cases hstep with ⟨-, -, rfl⟩ | ⟨-, hb, i, hfetch, hexec⟩ | ⟨e, rest, -, hexec⟩ | ⟨a, b, rest, -, hw⟩ |
    ⟨a, b, rest, -, hw⟩ | ⟨a, rest, -, hr⟩
  · exact hinv'
  · exact exec_inv hinv' hb hfetch hexec
  · exact bus_inv hinv' (encodeBus_decodeBus_ne_none e) hexec
  · exact hostSrcWrite_inv hinv' hw
  · exact hostOutWrite_inv hinv' hw
  · exact hostOutRead_inv hinv' hr

end Sys2Proof.Machine
end

section
/-! What ends a run, what a step leaves of the bit window and the memories, and that no step from a state of the invariants faults
(10_state.md, 40_bit_window.md, 60_exceptions.md). -/

namespace Sys2Proof.Machine

/-! ### The window after a step -/

/-- Settles O25: a row with no bits leaves the window alone, the others read their width. -/
theorem bitposAdvancesByTheWidth : Obligations.BitposAdvancesByTheWidth := by
  intro i s t hi hnw hexec
  rcases exec_window hi hexec with ⟨hzero, -, havail, hcursor, -⟩ | ⟨w, htook, -, havail, hcursor, -⟩
  · rw [State.bitpos, havail, hcursor, hzero]; simp [State.bitpos]
  · rw [State.bitpos, havail, hcursor]
    exact tookBits_bitpos (width_le i) hnw htook

/-- An element's meaning keeps the window invariant. -/
theorem exec_winOk {i : Instr} {s t : State} (hi : encodeBus i = none) (hw : WinOk s) (hnw : s.NoWrap)
    (h : exec i s = .next t) : WinOk t := by
  rcases exec_window hi h with ⟨-, h1, h2, h3, h4, h5⟩ | ⟨w, htook, h1, h2, h3, h4, h5⟩
  · exact winOk_fields hw h1 h2 h3 h4 h5
  · exact winOk_fields (tookBits_winOk (width_le i) hw hnw htook) h1 h2 h3 h4 h5

/-- A START that leaves a run: it was in one already, or has begun one. -/
theorem startRun_busy {s t : State} (h : startRun s = .next t) (hb : t.run = .busy) :
    (s.run = .busy ∧ t = s) ∨ (s.run ≠ .busy ∧ t = { initRun s with seq := .bt, run := .busy }) := by
  rcases startRun_cases s with ⟨hr, e⟩ | ⟨-, -, e⟩ | ⟨-, -, -, e⟩ | ⟨hr, -, -, e⟩ <;> rw [e] at h <;> cases h
  · exact .inl ⟨hr, rfl⟩
  · cases hb
  · exact .inr ⟨hr, rfl⟩

/-- A host row that leaves a run: during one it changes what the host received at most; otherwise it is a START (10 R40). -/
theorem bus_busy {i : Instr} {s t : State} (hi : encodeBus i ≠ none) (h : exec i s = .next t) (hb : t.run = .busy) :
    (s.run = .busy ∧ t = { s with rdata := t.rdata }) ∨
    (s.run ≠ .busy ∧ t = { initRun s with seq := .bt, run := .busy }) := by
  have hstart : startRun s = .next t → (s.run = .busy ∧ t = { s with rdata := t.rdata }) ∨
      (s.run ≠ .busy ∧ t = { initRun s with seq := .bt, run := .busy }) := fun h => by
    rcases startRun_busy h hb with ⟨hr, rfl⟩ | h'
    · exact .inl ⟨hr, rfl⟩
    · exact .inr h'
  cases i with
  | start => exact hstart h
  | regwrite off width x =>
    by_cases hr : s.run = .busy
    · rw [exec_regwrite_busy hr] at h; cases h; exact .inl ⟨hr, rfl⟩
    · cases hreg : regAt off width with
      | none => rw [exec_regwrite_of_regAt_none hreg] at h; cases h; exact absurd hb hr
      | some r =>
        obtain ⟨rfl, rfl⟩ := regAt_eq_some_iff.1 hreg
        rw [exec_regwrite_regOffset] at h
        rcases writeReg_cases r x s with ⟨-, -, e⟩ | ⟨u, e, hu, -⟩ <;> rw [e] at h
        · exact hstart h
        · cases h; rw [hu] at hb; exact absurd hb hr
  | regread off width => cases h; exact .inl ⟨hb, rfl⟩
  | reset => cases h; cases hb
  | _ => simp [encodeBus] at hi

/-- A host write of source memory leaves everything but the memories and the marks. -/
theorem hostSrcWrite_frame {a : Nat} {b : Byte} {s t : State} (h : hostSrcWrite a b s = .next t) :
    t = { s with src := t.src, out := t.out, tainted := t.tainted } := by
  rcases hostSrcWrite_next h with ⟨-, -, rfl⟩ | ⟨-, rfl⟩ <;> rw [taint_frame]

/-- A host write of output memory leaves everything but the memory and the marks. -/
theorem hostOutWrite_frame {a : Nat} {b : Byte} {s t : State} (h : hostOutWrite a b s = .next t) :
    t = { s with out := t.out, tainted := t.tainted } := by
  rcases hostOutWrite_next h with ⟨-, ⟨-, rfl⟩ | ⟨-, rfl⟩⟩
  · rw [taint_frame]
  · rfl

/-- Settles O6: Read keeps the window invariant, START begins with an empty window, and no other step moves it. -/
theorem everyStepKeepsTheWindow : Obligations.EveryStepKeepsTheWindow := by
  intro s t hinv hwin hnw hstep
  rcases step_next_cases hstep with ⟨-, -, rfl⟩ | ⟨-, hb, i, hfetch, hexec⟩ | ⟨e, rest, -, hexec⟩ | ⟨a, b, rest, -, hw⟩ |
    ⟨a, b, rest, -, hw⟩ | ⟨a, rest, -, hr⟩
  · exact hwin
  · exact fun _ => exec_winOk (s := s.afterTurn) (encodeBus_of_fetched hfetch) (hwin hb) hnw hexec
  · intro hb
    rcases bus_busy (encodeBus_decodeBus_ne_none e) hexec hb with ⟨hr, ht⟩ | ⟨-, ht⟩ <;> rw [ht]
    · exact hwin hr
    · exact winOk_zero rfl rfl rfl
  · rw [hostSrcWrite_frame hw]; exact hwin
  · rw [hostOutWrite_frame hw]; exact hwin
  · rw [hostOutRead_frame hr]; exact hwin

/-! ### No faults -/

/-- Every sequencer state finds the row its context needs (43 R194, R196). -/
theorem contextOf_ok {s : State} (h : s.OperandsOk) : ∃ c, contextOf s = .ok c := by
  unfold contextOf
  cases hs : s.seq with
  | lextra =>
    obtain ⟨r, hr, -⟩ := operandsOk_at h hs
    change s.lengthRow? s.lidx.toNat = some r at hr
    exact ⟨.lextra r.extra, by simp only [hr]⟩
  | dextra =>
    obtain ⟨-, r, hr, -⟩ := operandsOk_at h hs
    change s.distRow? s.didx.toNat = some r at hr
    exact ⟨.dextra r.extra, by simp only [hr]⟩
  | _ => exact ⟨_, rfl⟩

/-- The decoder rejects only where no element is read and where a symbol does not resolve (30 R88). -/
theorem decode_error {c : Ctx} {win : Dword} {e : DecodeError} (h : decode c win = .error e) :
    c = .idle ∨ (∃ t, c = .sym t ∧ resolve t win = .error e) ∨ (∃ t, c = .dsym t ∧ resolve t win = .error e) := by
  cases c with
  | idle => exact .inl rfl
  | sym t =>
    cases hr : resolve t win with
    | error e' => simp only [decode, hr, Except.map] at h; cases h; exact .inr (.inl ⟨t, rfl, hr⟩)
    | ok r => simp only [decode, hr, Except.map] at h; cases h
  | dsym t =>
    cases hr : resolve t win with
    | error e' => simp only [decode, hr, Except.map] at h; cases h; exact .inr (.inr ⟨t, rfl, hr⟩)
    | ok r => simp only [decode, hr, Except.map] at h; cases h
  | tbuild w => cases w <;> cases h
  | bt | lcnt | lbyte | tcnt | tflag | tnib | lextra | dextra | copy | eob => cases h

/-- The window an element is decoded from is there whenever Refill does not fault. -/
theorem windowFor_ok {s : State} (h : s.Refillable) : ∃ w, windowFor s = .ok w := by
  unfold windowFor
  split
  · obtain ⟨u, hu⟩ := refill_ok h
    exact ⟨u.acc, by rw [hu]; rfl⟩
  · exact ⟨s.acc, rfl⟩

/-- A run of the invariants fetches an element. -/
theorem fetchInstr_of_inv {s : State} (h : s.Inv) (hb : s.run = .busy) (hr : s.Refillable) : ∃ i, fetchInstr s = .ok i := by
  obtain ⟨c, hc⟩ := contextOf_ok h.operandsOk
  obtain ⟨w, hw⟩ := windowFor_ok hr
  obtain ⟨hlarge, hsmall⟩ := h.tablesOk hb
  have hctx := contextOf_cases hc
  cases hd : decode c w with
  | ok i => exact ⟨i, by simp only [fetchInstr, hc, hw, hd]⟩
  | error e =>
    exfalso
    rcases decode_error hd with rfl | ⟨t, rfl, he⟩ | ⟨t, rfl, he⟩
    · exact h.seqOk.1 hb (by simpa using hctx)
    · obtain ⟨-, rfl⟩ : s.seq = .sym ∧ t = s.largeTable := by simpa using hctx
      obtain ⟨r, hr, -⟩ := resolve_ok hlarge w
      rw [hr] at he; cases he
    · obtain ⟨-, rfl⟩ : s.seq = .dsym ∧ t = s.smallTable := by simpa using hctx
      obtain ⟨r, hr, -⟩ := resolve_ok hsmall w
      rw [hr] at he; cases he

/-- A fetched extra-bits row has its static row. -/
theorem rowPresent_of_readIn {s : State} {i : Instr} (h : ReadIn s i) : RowPresent s i := by
  cases i with
  | xbLen k x => obtain ⟨-, -, r, hr, -⟩ := h; exact Option.ne_none_iff_exists'.2 ⟨r, hr⟩
  | xbDist k y => obtain ⟨-, -, r, hr, -⟩ := h; exact Option.ne_none_iff_exists'.2 ⟨r, hr⟩
  | _ => trivial

/-- A host row never faults (45 R240 to R244). -/
theorem bus_ne_fault {i : Instr} (hi : encodeBus i ≠ none) (s : State) (f : Fault) : exec i s ≠ .fault f := by
  have hstart : startRun s ≠ .fault f := by
    rcases startRun_cases s with ⟨-, e⟩ | ⟨-, -, e⟩ | ⟨-, -, -, e⟩ | ⟨-, -, -, e⟩ <;> rw [e] <;> simp
  cases i with
  | start => exact hstart
  | regwrite off width x =>
    cases hreg : regAt off width with
    | none => rw [exec_regwrite_of_regAt_none hreg]; simp
    | some r =>
      obtain ⟨rfl, rfl⟩ := regAt_eq_some_iff.1 hreg
      rw [exec_regwrite_regOffset]
      rcases writeReg_cases r x s with ⟨-, -, e⟩ | ⟨u, e, -⟩ <;> rw [e]
      · exact hstart
      · simp
  | regread off width => simp [exec, execRegread]
  | reset => simp [exec, execReset]
  | _ => simp [encodeBus] at hi

/-- A host memory access never faults (20 R61, R69, R72, R74). -/
theorem hostSrcWrite_ne_fault (a : Nat) (b : Byte) (s : State) (f : Fault) : hostSrcWrite a b s ≠ .fault f := by
  unfold hostSrcWrite; split
  · split <;> simp
  · simp

theorem hostOutWrite_ne_fault (a : Nat) (b : Byte) (s : State) (f : Fault) : hostOutWrite a b s ≠ .fault f := by
  unfold hostOutWrite; split
  · simp
  · split <;> simp

theorem hostOutRead_ne_fault (a : Nat) (s : State) (f : Fault) : hostOutRead a s ≠ .fault f := by
  rcases hostOutRead_cases a s with ⟨-, e⟩ | ⟨-, e⟩ <;> rw [e] <;> simp

/-- Settles O9: a run of the invariants fetches an element and executes it; the host's rows and accesses have no fault. -/
theorem noStepFaults : Obligations.NoStepFaults := by
  intro s hinv hwin f
  rcases step_cases s with ⟨-, e⟩ | ⟨b, rest, -, e⟩ | ⟨a, b, rest, -, e⟩ | ⟨a, b, rest, -, e⟩ | ⟨a, rest, -, e⟩ <;> rw [e]
  · by_cases hb : s.afterTurn.run = .busy
    · have hrefill : s.afterTurn.Refillable := refillable_of_winOk (s := s) (hwin hb)
      obtain ⟨i, hfetch⟩ := fetchInstr_of_inv (inv_afterTurn hinv) hb hrefill
      obtain ⟨t, hexec⟩ := exec_ok (encodeBus_of_fetched hfetch) (rowPresent_of_readIn (readIn_of_fetched hfetch)) hrefill
      have hstep : engineStep s.afterTurn = exec i s.afterTurn := by simp only [engineStep, hb, if_true, hfetch]
      rw [hstep, hexec]; simp
    · have hstep : engineStep s.afterTurn = .next s.afterTurn := if_neg hb
      rw [hstep]; simp
  · exact bus_ne_fault (encodeBus_decodeBus_ne_none b) _ f
  · exact hostSrcWrite_ne_fault a b _ f
  · exact hostOutWrite_ne_fault a b _ f
  · exact hostOutRead_ne_fault a _ f

/-! ### How a run ends -/

/-- How a run that executes element `i` from `s` may end at `t`. -/
def RunEnd (s t : State) (i : Instr) : Prop :=
  (t.run = .done ∧ t.trunc = false ∧ i = .eob1) ∨
  (t.run = .done ∧ t.trunc = true ∧ t.ocur = s.dsize ∧ ((∃ b, i = .lbyte b) ∨ (∃ v l, i = .symLit v l) ∨ i = .copy)) ∨
  (t.run = .error ∧ t.err = .sampleOverflow ∧ t.trunc = false ∧ (i = .tbuildL ∨ i = .tbuildS)) ∨
  (t.run = .error ∧ t.err = .internalFailure ∧ t.trunc = false ∧
    ((∃ v l, i = .symBref v l ∧ s.cfg.n12 ≤ v.toNat - 0x101) ∨ ∃ d l, i = .dsym d l ∧ s.cfg.n34 ≤ d.toNat))

/-- An Append that ends a run truncates it with OUT_LEN = DSIZE (44 R221). -/
theorem appendThen_ends {b : Byte} {s : State} {rest : State → State} (h : s.Inv) (hb : s.run = .busy)
    (hrest : (rest (appendByte b s)).run = s.run) (hend : (appendThen b s rest).run ≠ .busy) :
    (appendThen b s rest).run = .done ∧ (appendThen b s rest).trunc = true ∧ (appendThen b s rest).ocur = s.dsize := by
  rcases appendThen_cases b s rest with ⟨hfull, e⟩ | ⟨-, e⟩ <;> rw [e] at hend ⊢
  · exact ⟨rfl, rfl, BitVec.le_antisymm (h.outputOk hb) hfull⟩
  · rw [hrest] at hend; exact absurd hb hend

/-- The effect of an element ends a run only by its causes (60 R271, R274). -/
theorem effect_ends {i : Instr} {s : State} (h : s.Inv) (hb : s.run = .busy) (hend : (effect i s).run ≠ .busy) :
    RunEnd s (effect i s) i := by
  have htrunc := trunc_false h hb
  cases i with
  | eob1 => exact .inl ⟨rfl, htrunc, rfl⟩
  | lbyte b =>
    obtain ⟨h1, h2, h3⟩ := appendThen_ends h hb rfl hend
    exact .inr (.inl ⟨h1, h2, h3, .inl ⟨b, rfl⟩⟩)
  | symLit v l =>
    obtain ⟨h1, h2, h3⟩ := appendThen_ends h hb rfl hend
    exact .inr (.inl ⟨h1, h2, h3, .inr (.inl ⟨v, l, rfl⟩)⟩)
  | copy =>
    obtain ⟨h1, h2, h3⟩ := appendThen_ends h hb rfl hend
    exact .inr (.inl ⟨h1, h2, h3, .inr (.inr rfl)⟩)
  | tbuildL =>
    rw [effect] at hend ⊢
    rcases buildLarge_cases s with ⟨t, -, e⟩ | ⟨c, lp, lo, d, hbuild, e⟩ <;> rw [e] at hend ⊢
    · exact absurd hb hend
    · exact .inr (.inr (.inl ⟨rfl, build_error (by decide) hbuild, htrunc, .inl rfl⟩))
  | tbuildS =>
    rw [effect] at hend ⊢
    rcases buildSmall_cases s with ⟨t, -, e⟩ | ⟨c, lp, lo, d, hbuild, e⟩ <;> rw [e] at hend ⊢
    · exact absurd hb hend
    · exact .inr (.inr (.inl ⟨rfl, build_error (by decide) hbuild, htrunc, .inr rfl⟩))
  | symBref v l =>
    rw [effect] at hend ⊢
    cases hr : s.lengthRow? (v.toNat - Config.copyBaseSym) with
    | none =>
      rw [startCopy_of_none hr]
      exact .inr (.inr (.inr ⟨rfl, rfl, htrunc, .inl ⟨v, l, rfl, lengthRow?_eq_none_iff.1 hr⟩⟩))
    | some r => rw [startCopy_of_some hr] at hend; split at hend <;> exact absurd hb hend
  | dsym d l =>
    rw [effect] at hend ⊢
    cases hr : s.distRow? d.toNat with
    | none =>
      rw [startDistance_of_none hr]
      exact .inr (.inr (.inr ⟨rfl, rfl, htrunc, .inr ⟨d, l, rfl, distRow?_eq_none_iff.1 hr⟩⟩))
    | some r => rw [startDistance_of_some hr] at hend; split at hend <;> exact absurd hb hend
  | tcnt w c => rw [effect] at hend; split at hend <;> exact absurd hb hend
  | xbLen k x => rw [effect, completeLength] at hend; split at hend <;> exact absurd hb hend
  | xbDist k x => rw [effect, completeDistance] at hend; split at hend <;> exact absurd hb hend
  | btLit | btTbl | lcnt | len0 | len | lenNib | symEnd | eob0 | start | regwrite | regread | reset => exact absurd hb hend

/-- A host row that ends a run is the reset input (10 R40, 45 R243, 70 R300). -/
theorem bus_ends {e : BusAccess} {s t : State} (hb : s.run = .busy) (h : exec (decodeBus e) s = .next t)
    (hend : t.run ≠ .busy) : t.run = .idle ∧ e = .resetInput := by
  cases e with
  | write off width data =>
    rcases decodeBus_write off width data with ⟨-, hd⟩ | ⟨-, hd⟩ <;> rw [hd] at h
    · rw [exec_start_busy hb] at h; cases h; exact absurd hb hend
    · rw [exec_regwrite_busy hb] at h; cases h; exact absurd hb hend
  | read off width => cases h; exact absurd hb hend
  | resetInput => cases h; exact ⟨rfl, rfl⟩

/-- Settles O8: the engine's step ends a run by the effect of its element, the host's by the reset input only. -/
theorem runsEndOnlyByTheirCauses : Obligations.RunsEndOnlyByTheirCauses := by
  intro s t hinv hbusy hstep hend
  rcases step_next_cases hstep with ⟨-, hr, -⟩ | ⟨hn, -, i, hfetch, hexec⟩ | ⟨e, rest, ht, hexec⟩ | ⟨a, b, rest, -, hw⟩ |
    ⟨a, b, rest, -, hw⟩ | ⟨a, rest, -, hr⟩
  · exact absurd hbusy hr
  · obtain ⟨w, -, rfl⟩ := exec_next (encodeBus_of_fetched hfetch) hexec
    exact .inr ⟨hn, i, hfetch, effect_ends (inv_withWindow (inv_afterTurn hinv) w) hbusy hend⟩
  · obtain ⟨hidle, rfl⟩ := bus_ends (s := s.afterTurn) hbusy hexec hend
    exact .inl ⟨hidle, rest, ht⟩
  · rw [hostSrcWrite_frame hw] at hend; exact absurd hbusy hend
  · rw [hostOutWrite_frame hw] at hend; exact absurd hbusy hend
  · rw [hostOutRead_frame hr] at hend; exact absurd hbusy hend

/-! ### What the rows leave of the memories -/

/-- An element that appends no byte leaves the output memory. -/
theorem effect_out {i : Instr} {s : State} (hbyte : ∀ b, i ≠ .lbyte b) (hlit : ∀ v l, i ≠ .symLit v l) (hcopy : i ≠ .copy) :
    (effect i s).out = s.out := by
  cases i with
  | lbyte b => exact absurd rfl (hbyte b)
  | symLit v l => exact absurd rfl (hlit v l)
  | copy => exact absurd rfl hcopy
  | tcnt w c => rw [effect]; split <;> rfl
  | symBref v l =>
    rw [effect, startCopy]; split
    · rfl
    · split <;> rfl
  | dsym d l =>
    rw [effect, startDistance]; split
    · rfl
    · split <;> rfl
  | xbLen k x => rw [effect, completeLength]; split <;> rfl
  | xbDist k y => rw [effect, completeDistance]; split <;> rfl
  | tbuildL =>
    rw [effect]
    rcases buildLarge_cases s with ⟨t, -, e⟩ | ⟨c, ram, ovf, d, -, e⟩
    · rw [e]
    · rw [e, raiseErr_out]
  | tbuildS =>
    rw [effect]
    rcases buildSmall_cases s with ⟨t, -, e⟩ | ⟨c, ram, ovf, d, -, e⟩
    · rw [e]
    · rw [e, raiseErr_out]
  | btLit | btTbl | lcnt | len0 | len | lenNib | symEnd | eob0 | eob1 | start | regwrite | regread | reset => rfl

/-- A host row leaves both memories; only START, and a write that may be one, moves the marks. -/
theorem bus_memories {i : Instr} {s t : State} (hi : encodeBus i ≠ none) (h : exec i s = .next t) :
    t.src = s.src ∧ t.out = s.out ∧ t.cfg = s.cfg ∧
      (i ≠ .start → (∀ off width x, i ≠ .regwrite off width x) → t.tainted = s.tainted) := by
  cases i with
  | start =>
    obtain ⟨h1, h2, h3⟩ := startRun_memories h
    exact ⟨h1, h2, h3, fun hne => absurd rfl hne⟩
  | regwrite off width x =>
    refine and_assoc.1 (and_assoc.1 ⟨and_assoc.2 ?_, fun _ hne => absurd rfl (hne off width x)⟩)
    cases hreg : regAt off width with
    | none => rw [exec_regwrite_of_regAt_none hreg] at h; cases h; exact ⟨rfl, rfl, rfl⟩
    | some r =>
      obtain ⟨rfl, rfl⟩ := regAt_eq_some_iff.1 hreg
      rw [exec_regwrite_regOffset] at h
      rcases writeReg_cases r x s with ⟨-, -, e⟩ | ⟨u, e, hu, -⟩ <;> rw [e] at h
      · exact startRun_memories h
      · cases h; rw [hu]; exact ⟨rfl, rfl, rfl⟩
  | regread off width => cases h; exact ⟨rfl, rfl, rfl, fun _ _ => rfl⟩
  | reset => cases h; exact ⟨rfl, rfl, rfl, fun _ _ => rfl⟩
  | _ => simp [encodeBus] at hi

/-- Settles O14: the elements by their effect, the host rows by theirs; equal memories, marks and parameters read alike. -/
theorem rowsThatStoreNothingLeaveTheMemories : Obligations.RowsThatStoreNothingLeaveTheMemories := by
  intro i s t hexec hbyte hlit hcopy
  obtain ⟨hsrc, hout, hcfg, hmarks⟩ : t.src = s.src ∧ t.out = s.out ∧ t.cfg = s.cfg ∧
      (i ≠ .start → (∀ off width x, i ≠ .regwrite off width x) → t.tainted = s.tainted) := by
    by_cases hi : encodeBus i = none
    · obtain ⟨-, -, -, -, -, -, -, hsrc, hmarks, hcfg, -⟩ := exec_sameInputs hi hexec
      obtain ⟨w, -, rfl⟩ := exec_next hi hexec
      exact ⟨hsrc, effect_out hbyte hlit hcopy, hcfg, fun _ _ => hmarks⟩
    · exact bus_memories hi hexec
  refine ⟨hsrc, hout, fun a => ?_, fun hstart hwrite => srcByte?_congr hsrc hout (hmarks hstart hwrite) hcfg⟩
  simp [State.outByte?, State.wrap, hout, hcfg]

end Sys2Proof.Machine
end

section
/-! The two memories: which addresses a span holds, when output and payload share one, and what reads and host writes of a byte do
(20_memory.md R61 to R74, 70_reset_and_hazards.md R304). -/

namespace Sys2Proof.Machine

/-! ### Spans of addresses -/

/-- A span holds the addresses that are one of its bytes modulo the address space (20 R67, R69). -/
theorem inSpan_iff {m : Nat} (hm : 0 < m) (base len a : Nat) :
    inSpan m base len a = true ↔ ∃ i, i < len ∧ a ≡ base + i [MOD m] := by
  have hoff : base + (a + (m - base % m)) ≡ a [MOD m] := by
    have hlt := Nat.mod_lt base hm
    have hsum : base + (a + (m - base % m)) = a + m * (base / m + 1) := by
      have := Nat.div_add_mod base m
      rw [Nat.mul_add, Nat.mul_one]; omega
    rw [hsum]
    exact Nat.add_mul_mod_self_left a m _
  rw [inSpan, decide_eq_true_iff]
  constructor
  · intro h
    exact ⟨_, h, hoff.symm.trans (Nat.ModEq.add_left base (Nat.mod_modEq _ m).symm)⟩
  · rintro ⟨i, hi, hmod⟩
    have hi' : a + (m - base % m) ≡ i [MOD m] := Nat.ModEq.add_left_cancel' base (hoff.trans hmod)
    rw [Nat.ModEq] at hi'
    rw [hi']
    exact (Nat.mod_le i m).trans_lt hi

/-- Two spans share an address exactly when the start of one lies in the other. -/
theorem exists_shared_iff (m p q a b : Nat) :
    (∃ i j, i < a ∧ j < b ∧ p + i ≡ q + j [MOD m]) ↔
      (a ≠ 0 ∧ ∃ j, j < b ∧ p ≡ q + j [MOD m]) ∨ (b ≠ 0 ∧ ∃ i, i < a ∧ q ≡ p + i [MOD m]) := by
  constructor
  · rintro ⟨i, j, hi, hj, h⟩
    rcases Nat.le_total i j with hle | hle
    · refine .inl ⟨by omega, j - i, by omega, Nat.ModEq.add_right_cancel' i ?_⟩
      rwa [Nat.add_assoc, Nat.sub_add_cancel hle]
    · refine .inr ⟨by omega, i - j, by omega, Nat.ModEq.add_right_cancel' j ?_⟩
      rw [Nat.add_assoc, Nat.sub_add_cancel hle]
      exact h.symm
  · rintro (⟨ha, j, hj, h⟩ | ⟨hb, i, hi, h⟩)
    · exact ⟨0, j, by omega, hj, h⟩
    · exact ⟨i, 0, hi, by omega, h.symm⟩

/-- The overlap START refuses is a shared address (20 R74(b), log 14). -/
theorem regionsOverlap_iff (s : State) :
    s.regionsOverlap = true ↔
      ∃ i j, i < s.dsize.toNat ∧ j < s.plimit.toNat + 4 ∧ s.wrap (s.obase.toNat + i) = s.wrap (s.pbase.toNat + j) := by
  have hm := addrSpace_pos s.cfg
  have hd : s.dsize ≠ 0 ↔ s.dsize.toNat ≠ 0 := not_congr BitVec.toNat_eq
  have hshared := exists_shared_iff s.cfg.addrSpace s.obase.toNat s.pbase.toNat s.dsize.toNat (s.plimit.toNat + 4)
  rw [State.regionsOverlap, Bool.and_eq_true, decide_eq_true_iff, Bool.or_eq_true, State.inPayloadWindow,
    State.inOutputRegion, inSpan_iff hm, inSpan_iff hm, hd]
  refine Iff.trans ?_ hshared.symm
  constructor
  · rintro ⟨hne, h | h⟩
    · exact .inl ⟨hne, h⟩
    · exact .inr ⟨by omega, h⟩
  · rintro (⟨hne, h⟩ | ⟨-, i, hi, h⟩)
    · exact ⟨hne, .inl h⟩
    · exact ⟨by omega, .inr ⟨i, hi, h⟩⟩

/-- START of a type-1 run outside a run is refused exactly on an overlap (45 R241, 20 R74(b)). -/
theorem startRun_refused_iff {s : State} (hrun : s.run ≠ .busy) (htype : s.hdrflag.toNat % 16 = 1) :
    startRun s = .refused .outputOverlapsSource ↔ (initRun s).regionsOverlap = true := by
  rcases startRun_cases s with ⟨h, -⟩ | ⟨-, h, -⟩ | ⟨-, -, hov, e⟩ | ⟨-, -, hov, e⟩
  · exact absurd h hrun
  · exact absurd ((typeNibble_iff _).2 htype) h
  · simp [e, hov]
  · simp [e, hov]

/-- Settles O19: the start of one span in the other is a shared address. -/
theorem overlapIsASharedAddress : Obligations.OverlapIsASharedAddress := fun s =>
  ⟨regionsOverlap_iff s, fun hrun htype => startRun_refused_iff hrun htype⟩

/-- START of a type-1 run whose regions do not overlap begins it (45 R241). -/
theorem exec_start_of_type1 {s : State} (hrun : s.run ≠ .busy) (htype : s.hdrflag.toNat % 16 = 1)
    (hov : (initRun s).regionsOverlap = false) : exec .start s = .next { initRun s with seq := .bt, run := .busy } := by
  rcases startRun_cases s with ⟨h, -⟩ | ⟨-, h, -⟩ | ⟨-, -, h, -⟩ | ⟨-, -, -, e⟩
  · exact absurd h hrun
  · exact absurd ((typeNibble_iff _).2 htype) h
  · rw [hov] at h; cases h
  · exact e

/-- Settles O50: the latches as arithmetic on CSIZE and HDRFLAG. -/
theorem startBeginsARun : Obligations.StartBeginsARun := by
  intro s hrun htype hov
  have hexec := exec_start_of_type1 hrun htype hov
  refine ⟨_, hexec, ?_, ?_⟩
  · change (payloadLimit s.cfg.csizeMode s.csize).toNat = _
    unfold payloadLimit
    cases s.cfg.csizeMode with
    | payloadOnly => rfl
    | includesHeader =>
      have := s.csize.isLt
      simp only [BitVec.toNat_ofNat, Config.headerBytes]
      omega
  · rw [← bigEndian_bit]; rfl

/-! ### Source and output accesses -/

/-- Settles O18: a source read looks at the wrapped address only. -/
theorem sourceReadsAreImageBytesOrDraws : Obligations.SourceReadsAreImageBytesOrDraws := by
  intro s a
  refine ⟨fun b h => srcRead_some h, fun h => ?_, ?_⟩
  · rw [srcRead, h, drawByte]
  · have hwrap : s.wrap (a % s.cfg.addrSpace) = s.wrap a := Nat.mod_mod _ _
    rw [srcByte?_eq, srcByte?_eq, hwrap]

/-- The turn of the head of the list is used up. -/
theorem afterTurn_of_turns {s : State} {x : Turn} {rest : List Turn} (h : s.turns = x :: rest) :
    s.afterTurn = { s with turns := rest } := by
  rw [State.afterTurn, h, List.tail_cons]

/-- An output read depends on the byte there and on its address (20 R62, R68; log 5). -/
theorem outRead_congr {s u : State} {a : Nat} (hbyte : u.outByte? a = s.outByte? a) (hcfg : u.cfg = s.cfg) :
    outRead a u = outRead a s := by
  simp only [outRead, hbyte, State.wrap, hcfg]

/-- A host read of output outside a run answers the byte there (20 R68, R72(b)). -/
theorem step_outRead {s : State} {a : Nat} {rest : List Turn} (ht : s.turns = .outRead a :: rest) (hr : s.run ≠ .busy) :
    step s = .next { s with turns := rest, mdata := outRead a s } := by
  have hread : outRead a { s with turns := rest } = outRead a s := outRead_of_fields a rfl rfl
  simp only [step, ht, hostOutRead, hr, if_false, hread]

/-- An element leaves CURSOR, or moves it by the payload bytes of one fetch (40 R110, R112). -/
theorem exec_cursor {i : Instr} {s t : State} (hi : encodeBus i = none) (h : exec i s = .next t) :
    t.cursor = s.cursor ∨ t.cursor.toNat = s.cursor.toNat + s.fetchCount := by
  rcases exec_window hi h with ⟨-, -, -, hc, -⟩ | ⟨w, ⟨u, hu, rfl⟩, -, -, hc, -⟩
  · exact .inl hc
  · rw [hc, take_cursor]
    rcases refill_arith hu with ⟨rfl, -⟩ | ⟨-, -, -, -, hcur, -⟩
    · exact .inl rfl
    · exact .inr hcur

/-- Settles O60: reads of output by `step_outRead`, source reads by their frame, fetches by `exec_cursor`. -/
theorem memoryReadsAreIdempotent : Obligations.MemoryReadsAreIdempotent := by
  refine ⟨fun s a rest ht hr => ⟨_, step_outRead ht hr, fun u rest' hu hur hcfg hbyte => ?_⟩, fun s a => srcRead_frame a s,
    fun s t hn hstep => ?_⟩
  · rw [step_outRead hu hur, outRead_congr hbyte hcfg]
  · have hmove : t.cursor = s.cursor ∨ t.cursor.toNat = s.cursor.toNat + min 4 (s.plimit.toNat - s.cursor.toNat) := by
      rcases step_next_engine hn hstep with rfl | ⟨i, -, hi, hexec⟩
      · exact .inl rfl
      · exact exec_cursor (s := s.afterTurn) hi hexec
    refine ⟨?_, hmove⟩
    rcases hmove with h | h
    · rw [h]; exact BitVec.le_refl _
    · rw [BitVec.le_def]; omega

end Sys2Proof.Machine
end

section
/-! The host's writes of memory and what they mark (20_memory.md R72, R74), and that the bit window holds the payload through every
step (40_bit_window.md R110 to R117). -/

namespace Sys2Proof.Machine

/-! ### Host writes -/

/-- A turn of the host on the source memory. -/
theorem step_srcWrite {s : State} {a : Nat} {b : Byte} {rest : List Turn} (ht : s.turns = .srcWrite a b :: rest) :
    step s = hostSrcWrite a b { s with turns := rest } := by
  simp only [step, ht]

/-- A turn of the host on the output memory. -/
theorem step_outWrite {s : State} {a : Nat} {b : Byte} {rest : List Turn} (ht : s.turns = .outWrite a b :: rest) :
    step s = hostOutWrite a b { s with turns := rest } := by
  simp only [step, ht]

/-- Which host writes are refused (70 R304, log 16). -/
theorem hostWriteRefused_iff {s : State} {a : Nat} :
    s.hostWriteRefused a = true ↔ s.run = .busy ∧ s.inOutputRegion (s.wrap a) = true := by
  rw [State.hostWriteRefused, Bool.and_eq_true, decide_eq_true_iff]

/-- With separate memories a host write of source memory is a write of that memory and a mark. -/
theorem hostSrcWrite_of_two {s : State} (h : s.cfg.oneMemory = false) (a : Nat) (b : Byte) :
    hostSrcWrite a b s = .next (taint a { s with src := s.src.write (s.wrap a) b }) := by
  simp only [hostSrcWrite, h, Bool.false_eq_true, if_false]

/-- With one memory a host write of source memory is a host write of output memory (log 9). -/
theorem hostSrcWrite_of_one {s : State} (h : s.cfg.oneMemory = true) (a : Nat) (b : Byte) :
    hostSrcWrite a b s = hostOutWrite a b s := by
  simp only [hostSrcWrite, hostOutWrite, h, if_true]

/-- A host write into the output region of a run is refused (70 R304). -/
theorem hostOutWrite_of_refused {s : State} {a : Nat} (h : s.hostWriteRefused a = true) (b : Byte) :
    hostOutWrite a b s = .refused .hostWroteOutput := if_pos h

/-- Any other host write of output memory is done. -/
theorem hostOutWrite_of_free {s : State} {a : Nat} (h : s.hostWriteRefused a = false) (b : Byte) :
    ∃ t, hostOutWrite a b s = .next t := by
  simp only [hostOutWrite, h, Bool.false_eq_true, if_false]
  split <;> exact ⟨_, rfl⟩

/-- A write of output memory at an address, as the bytes it leaves. -/
theorem outByte?_of_write {s t : State} {a : Nat} {b : Byte} (hout : t.out = s.out.write (s.wrap a) b) (hcfg : t.cfg = s.cfg) :
    t.outByte? a = some b ∧ ∀ a', s.wrap a' ≠ s.wrap a → t.outByte? a' = s.outByte? a' := by
  have hread : ∀ x, t.outByte? x = (s.out.write (s.wrap a) b).read? (s.wrap x) := fun x => by
    simp only [State.outByte?, State.wrap, hout, hcfg]
  exact ⟨by rw [hread, Memory.read?_write_same], fun a' h => by rw [hread, Memory.read?_write_other _ b h, State.outByte?]⟩

/-- A host write of source memory that is done is a source write. -/
theorem hostSrcWrite_sourceWritten {a : Nat} {b : Byte} {s t : State} (h : hostSrcWrite a b s = .next t) :
    SourceWritten s t a b := by
  rcases hostSrcWrite_next h with ⟨hone, -, rfl⟩ | ⟨hone, rfl⟩
  · exact sourceWritten_taint rfl rfl rfl rfl rfl (by simp only [State.srcMem, hone, if_true])
  · exact sourceWritten_taint rfl rfl rfl rfl rfl (by simp only [State.srcMem, hone, Bool.false_eq_true, if_false])

/-- A host write of output memory that is done is a source write with one memory (log 9); with two it leaves the source. -/
theorem hostOutWrite_sourceWritten {a : Nat} {b : Byte} {s t : State} (h : hostOutWrite a b s = .next t) :
    (s.cfg.oneMemory = true ∧ SourceWritten s t a b) ∨
    (s.cfg.oneMemory = false ∧ t = { s with out := s.out.write (s.wrap a) b } ∧ ∀ x, t.srcByte? x = s.srcByte? x) := by
  rcases hostOutWrite_next h with ⟨-, ⟨hone, -⟩ | ⟨hone, rfl⟩⟩
  · exact .inl ⟨hone, hostSrcWrite_sourceWritten (by rw [hostSrcWrite_of_one hone]; exact h)⟩
  · refine .inr ⟨hone, rfl, fun x => ?_⟩
    simp only [State.srcByte?, State.srcMem, State.wrap, hone, Bool.false_eq_true, if_false]

/-- The output byte a host write of output memory leaves. -/
theorem hostOutWrite_outByte? {a : Nat} {b : Byte} {s t : State} (h : hostOutWrite a b s = .next t) :
    t.outByte? a = some b ∧ ∀ a', s.wrap a' ≠ s.wrap a → t.outByte? a' = s.outByte? a' := by
  rcases hostOutWrite_next h with ⟨-, ⟨-, rfl⟩ | ⟨-, rfl⟩⟩
  · exact outByte?_of_write (by rw [taint_frame]) (by rw [taint_frame])
  · exact outByte?_of_write rfl rfl

/-- Settles O21: a write by whether it is refused, a read by whether a run is on. -/
theorem hostOutputAccesses : Obligations.HostOutputAccesses := by
  refine ⟨fun s a b rest ht hr hin => ?_, fun s a b rest ht hfree => ?_, fun s a rest ht hr => ?_,
    fun s a b rest ht hr hbyte => ?_⟩
  · rw [step_outWrite ht]
    exact hostOutWrite_of_refused (s := { s with turns := rest }) (hostWriteRefused_iff.2 ⟨hr, hin⟩) b
  · obtain ⟨t, hw⟩ := hostOutWrite_of_free (s := { s with turns := rest }) (a := a)
      (Bool.eq_false_iff.2 (mt hostWriteRefused_iff.1 hfree)) b
    have hstep : step s = .next t := (step_outWrite ht).trans hw
    obtain ⟨hsame, hother⟩ := hostOutWrite_outByte? hw
    refine ⟨t, hstep, hsame, hother, fun htwo => ?_, fun hone => ?_⟩
    · rcases hostOutWrite_sourceWritten hw with ⟨h, -⟩ | ⟨-, rfl, -⟩
      · rw [show s.cfg.oneMemory = true from h] at htwo; cases htwo
      · rfl
    · rcases hostOutWrite_sourceWritten hw with ⟨-, hwritten⟩ | ⟨h, -⟩
      · exact ⟨hostOutWrite_frame hw, hwritten⟩
      · rw [show s.cfg.oneMemory = false from h] at hone; cases hone
  · simp only [step, ht]
    exact if_pos hr
  · rw [step_outRead ht hr, outRead_of_some hbyte]

/-! ### The marks -/

/-- A marked address is open (20 R74(a), log 15). -/
theorem srcByte?_of_mem {s : State} {a : Nat} (h : s.wrap a ∈ s.tainted) : s.srcByte? a = none := if_pos h

/-- A register write that is not START leaves the marks (45 R240). -/
theorem regwrite_tainted {off width : Nat} {x : Word} {s t : State}
    (hstart : ¬(off = 0 ∧ width = 32 ∧ x.getLsbD 0 = true)) (h : exec (.regwrite off width x) s = .next t) :
    t.tainted = s.tainted := by
  cases hreg : regAt off width with
  | none => rw [exec_regwrite_of_regAt_none hreg] at h; cases h; rfl
  | some r =>
    obtain ⟨rfl, rfl⟩ := regAt_eq_some_iff.1 hreg
    rw [exec_regwrite_regOffset] at h
    rcases writeReg_cases r x s with ⟨rfl, hx, -⟩ | ⟨u, e, hu, -⟩
    · exact absurd ⟨rfl, rfl, hx⟩ hstart
    · rw [e] at h; cases h; rw [hu]

/-- A bus access leaves the marks, or is a START outside a run. -/
theorem bus_tainted {e : BusAccess} {s t : State} (h : exec (decodeBus e) s = .next t) :
    t.tainted = s.tainted ∨ (s.run ≠ .busy ∧ ∃ x, e = .write 0 32 x ∧ x.toNat % 2 = 1) := by
  cases e with
  | write off width x =>
    rcases decodeBus_write off width x with ⟨⟨rfl, rfl, hx⟩, hd⟩ | ⟨hns, hd⟩ <;> rw [hd] at h
    · by_cases hb : s.run = .busy
      · rw [exec_start_busy hb] at h; cases h; exact .inl rfl
      · rw [BitVec.getLsbD, Nat.testBit_zero, decide_eq_true_iff] at hx
        exact .inr ⟨hb, x, rfl, hx⟩
    · exact .inl (regwrite_tainted hns h)
  | read off width => cases h; exact .inl rfl
  | resetInput => cases h; exact .inl rfl

/-- Settles O20: the two forms of a source write; a mark stays through every step but a START outside a run. -/
theorem hostSourceWrites : Obligations.HostSourceWrites := by
  refine ⟨fun s a b rest ht => ⟨fun htwo => ?_, fun hone => ⟨fun hin => ?_, fun hfree => ?_⟩⟩, fun s t a hmark hstep => ?_⟩
  · have hw := hostSrcWrite_of_two (s := { s with turns := rest }) htwo a b
    have hwritten := hostSrcWrite_sourceWritten hw
    exact ⟨_, (step_srcWrite ht).trans hw, by rw [taint_frame], hwritten⟩
  · rw [step_srcWrite ht, hostSrcWrite_of_one (s := { s with turns := rest }) hone]
    exact hostOutWrite_of_refused (s := { s with turns := rest }) (hostWriteRefused_iff.2 hin) b
  · obtain ⟨t, hw⟩ := hostOutWrite_of_free (s := { s with turns := rest }) (a := a)
      (Bool.eq_false_iff.2 (mt hostWriteRefused_iff.1 hfree)) b
    have hstep : step s = .next t := by
      rw [step_srcWrite ht, hostSrcWrite_of_one (s := { s with turns := rest }) hone, hw]
    obtain ⟨hsame, hother⟩ := hostOutWrite_outByte? hw
    rcases hostOutWrite_sourceWritten hw with ⟨-, hwritten⟩ | ⟨h, -⟩
    · exact ⟨t, hstep, hostOutWrite_frame hw, hwritten, hsame, hother⟩
    · rw [show s.cfg.oneMemory = false from h] at hone; cases hone
  · have hkept : t.cfg = s.cfg → s.wrap a ∈ t.tainted → t.wrap a ∈ t.tainted ∧ t.srcByte? a = none := fun hcfg hmem => by
      have hwrap : t.wrap a = s.wrap a := by rw [State.wrap, State.wrap, hcfg]
      have hmem' : t.wrap a ∈ t.tainted := by rwa [hwrap]
      exact ⟨hmem', srcByte?_of_mem hmem'⟩
    rcases step_next_cases hstep with ⟨-, -, rfl⟩ | ⟨-, -, i, hfetch, hexec⟩ | ⟨e, rest, ht, hexec⟩ | ⟨x, b, rest, -, hw⟩ |
      ⟨x, b, rest, -, hw⟩ | ⟨x, rest, -, hr⟩
    · exact .inl (hkept rfl hmark)
    · obtain ⟨-, -, -, -, -, -, -, -, hmarks, hcfg, -⟩ := exec_sameInputs (encodeBus_of_fetched hfetch) hexec
      exact .inl (hkept hcfg (by rw [hmarks]; exact hmark))
    · rcases bus_tainted hexec with hmarks | ⟨hb, y, rfl, hy⟩
      · exact .inl (hkept (bus_memories (encodeBus_decodeBus_ne_none e) hexec).2.2.1 (by rw [hmarks]; exact hmark))
      · exact .inr ⟨hb, y, rest, ht, hy⟩
    · refine .inl (hkept (by rw [hostSrcWrite_frame hw]; rfl) ?_)
      rcases hostSrcWrite_next hw with ⟨-, -, rfl⟩ | ⟨-, rfl⟩ <;> exact mem_taint.2 (.inl hmark)
    · refine .inl (hkept (by rw [hostOutWrite_frame hw]; rfl) ?_)
      rcases hostOutWrite_next hw with ⟨-, ⟨-, rfl⟩ | ⟨-, rfl⟩⟩
      · exact mem_taint.2 (.inl hmark)
      · exact hmark
    · have hframe := hostOutRead_frame hr
      exact .inl (hkept (by rw [hframe]; rfl) (by rw [hframe]; exact hmark))

/-! ### The payload in the window -/

/-- Read(k) leaves the next payload bits in the window (40 R115). -/
theorem tookBits_payloadHeld {k : Nat} {s w : State} (hk : k ≤ 32) (hw : WinOk s) (hn : s.NoWrap) (hp : PayloadHeld s)
    (htook : TookBits k s w) : PayloadHeld w := by
  obtain ⟨u, hu, rfl⟩ := htook
  exact take_payloadHeld hk (refill_noWrap hu hn) (refill_payloadHeld hu hw hp)

/-- No element changes a byte of the payload window of its run: the byte it may store is in the output region, which START
keeps apart (20 R74(b)). -/
theorem exec_payloadByte {i : Instr} {s t : State} (h : s.Inv) (hb : s.run = .busy) (hi : encodeBus i = none)
    (hexec : exec i s = .next t) {j : Nat} (hj : j < s.plimit.toNat + 4) :
    t.srcByte? (s.pbase.toNat + j) = s.srcByte? (s.pbase.toNat + j) := by
  obtain ⟨-, -, -, -, -, -, -, hsrc, hmarks, hcfg, -⟩ := exec_sameInputs hi hexec
  obtain ⟨-, ⟨-, hout⟩ | ⟨hlt, -, b, hstored⟩⟩ := exec_appendsAtMostOne hi hexec
  · exact srcByte?_congr hsrc hout hmarks hcfg _
  · obtain ⟨-, -, hother⟩ := hstored
    refine hother _ (.inl fun hsame => ?_)
    have hover := (regionsOverlap_iff s).2 ⟨s.ocur.toNat, j, hlt, hj, hsame.symm⟩
    rw [h.disjointOk hb] at hover
    cases hover

/-- An element's meaning leaves the next payload bits in the window. -/
theorem exec_payloadHeld {i : Instr} {s t : State} (h : s.Inv) (hb : s.run = .busy) (hi : encodeBus i = none) (hw : WinOk s)
    (hn : s.NoWrap) (hp : PayloadHeld s) (hexec : exec i s = .next t) : PayloadHeld t := by
  obtain ⟨-, -, -, hpbase, -, hplimit, hendian, -⟩ := exec_sameInputs hi hexec
  have hbyte := fun {j : Nat} (hj : j < s.plimit.toNat + 4) => exec_payloadByte h hb hi hexec hj
  rcases exec_window hi hexec with ⟨-, h1, h2, h3, -⟩ | ⟨w, htook, h1, h2, h3, -⟩
  · exact payloadHeld_of_fields hw h1 h2 h3 hplimit hpbase hendian (fun j hj b hx => by rwa [hbyte hj] at hx) hp
  · have hwin := withWindow_of_tookBits htook
    have hwp : w.plimit = s.plimit := by rw [← hwin]; rfl
    have hwb : w.pbase = s.pbase := by rw [← hwin]; rfl
    have hwe : w.endianL = s.endianL := by rw [← hwin]; rfl
    have hws : ∀ x, w.srcByte? x = s.srcByte? x := fun x =>
      srcByte?_congr (by rw [← hwin]; rfl) (by rw [← hwin]; rfl) (by rw [← hwin]; rfl) (by rw [← hwin]; rfl) x
    refine payloadHeld_of_fields (tookBits_winOk (width_le i) hw hn htook) h1 h2 h3 (hplimit.trans hwp.symm)
      (hpbase.trans hwb.symm) (hendian.trans hwe.symm) (fun j hj b hx => ?_) (tookBits_payloadHeld (width_le i) hw hn hp htook)
    rw [hwp] at hj
    rw [hwb] at hx ⊢
    rwa [hws, ← hbyte hj]

/-- A source write during a run defines no byte of the payload window anew: it marks the address there (20 R74(a)). -/
theorem sourceWritten_payloadByte {s t : State} {a : Nat} {b : Byte} (h : SourceWritten s t a b) (hcfg : t.cfg = s.cfg)
    (hb : s.run = .busy) {j : Nat} (hj : j < s.plimit.toNat + 4) {c : Byte}
    (hc : t.srcByte? (s.pbase.toNat + j) = some c) : s.srcByte? (s.pbase.toNat + j) = some c := by
  obtain ⟨hmark, -, -, hother⟩ := h
  by_cases hsame : s.wrap (s.pbase.toNat + j) = s.wrap a
  · have hmem : s.wrap a ∈ t.tainted := hmark.2 (.inr ⟨hb, by rw [← hsame]; exact inPayloadWindow_of_lt hj⟩)
    have hopen : t.srcByte? (s.pbase.toNat + j) = none :=
      srcByte?_of_mem (by rw [State.wrap, hcfg, ← State.wrap, hsame]; exact hmem)
    rw [hopen] at hc; cases hc
  · rwa [← hother _ hsame]

/-- Settles O7: Read moves the window along the payload, START empties it, and no step touches a defined payload byte. -/
theorem windowHoldsThePayloadBits : Obligations.WindowHoldsThePayloadBits := by
  intro s t hinv hwin hnw hpay hstep
  have hkeep : t = { s.afterTurn with src := t.src, out := t.out, tainted := t.tainted } →
      (s.run = .busy → ∀ j, j < s.plimit.toNat + 4 → ∀ c, t.srcByte? (s.pbase.toNat + j) = some c →
        s.srcByte? (s.pbase.toNat + j) = some c) → t.HoldsPayload := fun hf hbyte hb => by
    have hrun : s.run = .busy := by rw [hf] at hb; exact hb
    exact payloadHeld_of_fields (s := s) (hwin hrun) (by rw [hf]; rfl) (by rw [hf]; rfl) (by rw [hf]; rfl) (by rw [hf]; rfl)
      (by rw [hf]; rfl) (by rw [hf]; rfl) (hbyte hrun) (hpay hrun)
  rcases step_next_cases hstep with ⟨-, -, rfl⟩ | ⟨-, hb, i, hfetch, hexec⟩ | ⟨e, rest, -, hexec⟩ | ⟨a, b, rest, -, hw⟩ |
    ⟨a, b, rest, -, hw⟩ | ⟨a, rest, -, hr⟩
  · exact hpay
  · exact fun _ => exec_payloadHeld (s := s.afterTurn) (inv_afterTurn hinv) hb (encodeBus_of_fetched hfetch) (hwin hb) hnw
      (hpay hb) hexec
  · intro hb
    rcases bus_busy (encodeBus_decodeBus_ne_none e) hexec hb with ⟨hr, ht⟩ | ⟨-, ht⟩ <;> rw [ht]
    · exact hpay hr
    · refine ⟨fun _ => rfl, fun i hi => ?_⟩
      change (i : Int) < 0 at hi
      omega
  · have hcfg : t.cfg = s.cfg := by rw [hostSrcWrite_frame hw]; rfl
    exact hkeep (hostSrcWrite_frame hw) fun hb j hj c hc =>
      sourceWritten_payloadByte (s := s.afterTurn) (hostSrcWrite_sourceWritten hw) hcfg hb hj hc
  · have hframe := hostOutWrite_frame hw
    have hcfg : t.cfg = s.cfg := by rw [hframe]; rfl
    have hsrc : t.src = s.src := by rw [hframe]; rfl
    refine hkeep (by rw [hsrc]; exact hframe) fun hb j hj c hc => ?_
    rcases hostOutWrite_sourceWritten hw with ⟨-, hwritten⟩ | ⟨-, -, hsame⟩
    · exact sourceWritten_payloadByte (s := s.afterTurn) hwritten hcfg hb hj hc
    · rw [hsame] at hc; exact hc
  · rw [hostOutRead_frame hr]; exact hpay

end Sys2Proof.Machine
end

section
/-! Refill and Take as arithmetic (40_bit_window.md R110 to R120), and which element a step reads from the window
(30_encoding.md R82, 00_scope.md R9). -/

namespace Sys2Proof.Machine

/-! ### Refill and Take -/

/-- Where Refill does not fetch, as arithmetic (40 R110). -/
theorem fetchIdle_iff (s : State) : s.fetchIdle ↔ 32 < s.avail.toInt ∨ s.plimit ≤ s.cursor :=
  or_congr Iff.rfl (fetchCount_eq_zero_iff s)

/-- The fetched word in the byte order of the run, as arithmetic (40 R111). -/
theorem word32_toNat (b0 b1 b2 b3 : Byte) (big : Bool) :
    (word32 b0 b1 b2 b3 big).toNat =
      if big then b3.toNat + 2 ^ 8 * b2.toNat + 2 ^ 16 * b1.toNat + 2 ^ 24 * b0.toNat
      else b0.toNat + 2 ^ 8 * b1.toNat + 2 ^ 16 * b2.toNat + 2 ^ 24 * b3.toNat := by
  cases big
  · exact append4_toNat b3 b2 b1 b0
  · exact append4_toNat b0 b1 b2 b3

/-- Settles O22: the fetch of `refill_cases`, its bytes by `fetchedWord_spec` and its merge by `merge_toNat`. -/
theorem refillMergesOneWord : Obligations.RefillMergesOneWord := by
  intro s h0 h32 hleft
  have hbusy : ¬ s.fetchIdle := by
    rw [fetchIdle_iff, not_or]
    exact ⟨by omega, BitVec.not_le.2 hleft⟩
  obtain ⟨b0, b1, b2, b3, hword, p0, p1, p2, p3⟩ := fetchedWord_spec s
  have hrefill : refill s = .ok (mergeWord (fetchedWord s).1 s.fetchCount (fetchedWord s).2) := by
    rcases refill_cases s with ⟨h, -⟩ | ⟨-, h, -⟩ | ⟨-, -, -, e⟩
    · exact absurd h hbusy
    · omega
    · exact e
  obtain ⟨h, -⟩ | ⟨-, -, -, havail, hcursor, -⟩ := (refill_arith hrefill).imp_left And.symm
  · exact absurd h hbusy
  refine ⟨b0, b1, b2, b3, _, hrefill, p0, p1, p2, p3, ?_, ?_, hcursor, havail, refill_frame hrefill⟩
  · rw [hword, mergeWord_draws]
  · have hnat := toNat_of_toInt h0
    rw [hword, ← word32_toNat]
    exact merge_toNat s.acc (word32 b0 b1 b2 b3 s.endianL) (a := s.avail.toNat) (by omega)

/-- Settles O23: the first two cases of Refill. -/
theorem refillNoOpAndDeficit : Obligations.RefillNoOpAndDeficit := by
  intro s
  rw [← fetchIdle_iff]
  have hleft : s.cursor < s.plimit ↔ ¬ s.plimit ≤ s.cursor := BitVec.not_le.symm
  rcases refill_cases s with ⟨hidle, e⟩ | ⟨hbusy, hneg, e⟩ | ⟨hbusy, hnonneg, -, e⟩
  · refine ⟨fun _ => e, fun f => ⟨fun h => (by rw [e] at h; cases h), fun ⟨_, hneg, hcur⟩ => ?_⟩⟩
    rcases (fetchIdle_iff s).1 hidle with h | h
    · omega
    · exact absurd h (hleft.1 hcur)
  · rw [fetchIdle_iff, not_or, ← hleft] at hbusy
    refine ⟨fun h => absurd ((fetchIdle_iff s).1 h) (by rw [not_or, ← hleft]; exact hbusy), fun f => ?_⟩
    rw [e, Except.error.injEq, eq_comm]
    exact ⟨fun h => ⟨h, hneg, hbusy.2⟩, And.left⟩
  · refine ⟨fun h => absurd h hbusy, fun f => ⟨fun h => (by rw [e] at h; cases h), fun ⟨_, hneg, _⟩ => ?_⟩⟩
    omega

/-- Settles O24: Take's shift and subtraction as arithmetic; Take(0) sets an OVR that is set already. -/
theorem takeConsumesTheLowBits : Obligations.TakeConsumesTheLowBits := by
  refine ⟨fun s hovr => ?_, fun s k hk hnw => ?_⟩
  · have hflag : ovrAfter s.ovr s.avail = s.ovr := by
      by_cases hneg : s.avail.toInt < 0
      · simp [ovrAfter, hovr hneg]
      · simp [ovrAfter, hneg]
    have havail : s.avail - BitVec.ofNat 64 0 = s.avail := BitVec.sub_zero _
    rw [take, havail, hflag, BitVec.ushiftRight_zero]
  · have havail : (take k s).avail.toInt = s.avail.toInt - k := toInt_sub_of_noWrap hk hnw
    refine ⟨?_, havail, ?_, rfl⟩
    · rw [take_acc, BitVec.toNat_ushiftRight, Nat.shiftRight_eq_div_pow]
    · rw [take_avail] at havail
      rw [take_ovr, ovrAfter, Bool.or_eq_true, decide_eq_true_iff, havail]
      exact or_congr Iff.rfl (by omega)

/-! ### The element a step reads -/

/-- The window of a state that reads bits is the refilled one (40 R110). -/
theorem windowFor_of_readsBits {s u : State} (hs : readsBits s.seq = true) (hu : refill s = .ok u) :
    windowFor s = .ok u.acc := by
  rw [windowFor, if_pos hs, hu]; rfl

/-- On its turn a BUSY engine in a state that reads bits executes what the refilled window decodes to. -/
theorem step_of_decoded {s u : State} {c : Ctx} {i : Instr} (hb : s.run = .busy) (hn : s.engineNext)
    (hs : readsBits s.seq = true) (hc : contextOf s.afterTurn = .ok c) (hu : refill s.afterTurn = .ok u)
    (hd : decode c u.acc = .ok i) : step s = exec i s.afterTurn := by
  rw [engine_step hn]
  exact engineStep_of_decoded hb hc (windowFor_of_readsBits hs hu) hd

/-- On its turn a BUSY engine in a state that reads none executes what its context decodes to. -/
theorem step_of_implicit {s : State} {c : Ctx} {i : Instr} (hb : s.run = .busy) (hn : s.engineNext)
    (hs : readsBits s.seq = false) (hc : contextOf s.afterTurn = .ok c) (hd : decode c s.acc = .ok i) :
    step s = exec i s.afterTurn := by
  have hw : windowFor s.afterTurn = .ok s.acc := if_neg (by rw [afterTurn_seq, hs]; decide)
  rw [engine_step hn]
  exact engineStep_of_decoded hb hc hw hd

/-- Settles O1: the engine's two kinds of turn, and the bus turn, each by its decoder. -/
theorem stepRunsTheDecodedInstruction : Obligations.StepRunsTheDecodedInstruction := by
  refine ⟨fun s u c i hb hn hs hc hu hd => step_of_decoded hb hn hs hc hu hd,
    fun s c i hb hn hs hc hd => step_of_implicit hb hn hs hc hd, fun s e rest ht => ?_⟩
  rw [afterTurn_of_turns ht]
  simp only [step, ht]

/-- A sequencer state that carries no table and no row is its own context. -/
theorem contextOf_afterTurn {s : State} {q : Seq} (hs : s.seq = q) :
    contextOf s.afterTurn = contextOf { s.afterTurn with seq := q } := by
  subst hs; rfl

/-- The context of LEXTRA carries the width of its length row (43 R195). -/
theorem contextOf_lextra {s : State} {r : Config.ExtraRow} (hs : s.seq = .lextra) (hr : s.lengthRow? s.lidx.toNat = some r) :
    contextOf s = .ok (.lextra r.extra) := by
  simp only [contextOf, hs, hr]

/-- The context of DEXTRA carries the width of its distance row (43 R197). -/
theorem contextOf_dextra {s : State} {r : Config.ExtraRow} (hs : s.seq = .dextra) (hr : s.distRow? s.didx.toNat = some r) :
    contextOf s = .ok (.dextra r.extra) := by
  simp only [contextOf, hs, hr]

/-- Bit 0 of the window as arithmetic. -/
theorem getLsbD_zero_iff (win : Dword) : win.getLsbD 0 = true ↔ win.toNat % 2 = 1 := by
  rw [BitVec.getLsbD, Nat.testBit_zero, decide_eq_true_iff]

/-- A field is the operand with its value (30 R81). -/
theorem setWidth_eq_of_toNat {win : Dword} {k : Nat} {n : BitVec k} (h : n.toNat = win.toNat % 2 ^ k) : win.setWidth k = n :=
  BitVec.eq_of_toNat_eq (by rw [BitVec.toNat_setWidth, h])

/-- An extra field is the operand with its value (30 R92). -/
theorem peekWord_eq_of_toNat {win : Dword} {k : Nat} {x : Word} (h : x.toNat = win.toNat % 2 ^ k) :
    BitVec.ofNat 32 (peek win k) = x := by
  rw [peek, ← h, BitVec.ofNat_toNat, BitVec.setWidth_eq]

/-- Settles O2: the context of each sequencer state, and what the refilled window decodes to in it. -/
theorem eachSequencerStateReadsItsElement : Obligations.EachSequencerStateReadsItsElement := by
  intro s hb hn
  have himplicit : ∀ {q : Seq} {c : Ctx} {i : Instr}, s.seq = q → readsBits q = false →
      contextOf { s.afterTurn with seq := q } = .ok c → decode c s.acc = .ok i → step s = exec i s.afterTurn :=
    fun hs hq hc hd => step_of_implicit hb hn (by rw [hs, hq]) (by rw [contextOf_afterTurn hs, hc]) hd
  refine ⟨fun hs => himplicit hs rfl rfl rfl, fun hs => himplicit hs rfl rfl rfl, fun hs => himplicit hs rfl rfl rfl,
    fun u hu => ?_⟩
  have hreads : ∀ {q : Seq} {c : Ctx} {i : Instr}, s.seq = q → readsBits q = true →
      contextOf { s.afterTurn with seq := q } = .ok c → decode c u.acc = .ok i → step s = exec i s.afterTurn :=
    fun hs hq hc hd => step_of_decoded hb hn (by rw [hs, hq]) (by rw [contextOf_afterTurn hs, hc]) hu hd
  have hbit := getLsbD_zero_iff u.acc
  refine ⟨fun hs => hreads hs rfl rfl ?_, fun hs n h => hreads hs rfl rfl ?_, fun hs b h => hreads hs rfl rfl ?_,
    fun w hs c h => hreads hs rfl rfl ?_, fun w hs => hreads hs rfl rfl ?_, fun w hs l h => hreads hs rfl rfl ?_,
    fun hs r hr x h => hreads (c := .lextra r.extra) hs rfl ?_ ?_, fun hs r hr y h => hreads (c := .dextra r.extra) hs rfl ?_ ?_,
    fun hs r hr => hreads hs rfl rfl ?_, fun hs r hr => hreads hs rfl rfl ?_, fun hs => hreads hs rfl rfl ?_⟩
  · simp only [decode, hbit]
  · simp only [decode, setWidth_eq_of_toNat h]
  · simp only [decode, setWidth_eq_of_toNat h]
  · simp only [decode, setWidth_eq_of_toNat h]
  · simp only [decode, hbit]
  · simp only [decode, setWidth_eq_of_toNat h]
  · exact contextOf_lextra rfl hr
  · simp only [decode, peekWord_eq_of_toNat h]
  · exact contextOf_dextra rfl hr
  · simp only [decode, peekWord_eq_of_toNat h]
  · have hsym : resolve ({ s.afterTurn with seq := .sym } : State).largeTable u.acc = .ok r := hr
    simp only [decode, hsym, Except.map, symbolInstr, Config.sentinel]
  · have hsym : resolve ({ s.afterTurn with seq := .dsym } : State).smallTable u.acc = .ok r := hr
    simp only [decode, hsym, Except.map]
  · simp only [decode, hbit]

/-- Settles O4: nothing runs after reset, and every part but the flags, the address registers and the memories is about a run. -/
theorem resetMeetsTheInvariant : Obligations.ResetMeetsTheInvariant := by
  have hidle : State.reset.run ≠ .busy := by decide
  refine ⟨⟨by simp [State.SeqOk, State.reset], by simp [State.FlagsOk, State.reset], reset_memOk,
    ⟨addrSpace_pos _, addrSpace_pos _⟩, fun h => absurd h hidle, trivial, fun h => absurd h hidle, fun h => absurd h hidle⟩,
    fun h => absurd h hidle, fun h => absurd h hidle⟩

end Sys2Proof.Machine
end

section
/-! Decode and encode agree (30_encoding.md R82, R92, R95). -/

namespace Sys2Proof.Machine

/-! ### Fields of a window -/

/-- A window that begins with the bits of a field holds its value. -/
theorem peek_windowOf_fieldBits {k : Nat} (hk : k ≤ 64) {x : Nat} (hx : x < 2 ^ k) (rest : List Bool) :
    peek (windowOf (fieldBits k x) rest) k = x := by
  rw [peek_windowOf hk (fieldBits_length k x), bitsToNat_fieldBits, Nat.mod_eq_of_lt hx]

/-- A field read back from its bits (30 R81). -/
theorem setWidth_windowOf_fieldBits {k : Nat} (hk : k ≤ 64) (n : BitVec k) (rest : List Bool) :
    (windowOf (fieldBits k n.toNat) rest).setWidth k = n :=
  setWidth_eq_of_toNat (peek_windowOf_fieldBits hk n.isLt rest).symm

/-- The first bit of a window. -/
theorem getLsbD_windowOf (b : Bool) (rest : List Bool) : (windowOf [b] rest).getLsbD 0 = b := by
  have hpeek : (windowOf [b] rest).toNat % 2 ^ 1 = b.toNat := by
    have := peek_windowOf (bs := [b]) (k := 1) (by decide) rfl rest
    simpa [peek, bitsToNat] using this
  have hbit := getLsbD_zero_iff (windowOf [b] rest)
  cases b
  · exact Bool.eq_false_iff.2 fun h => by have := hbit.1 h; simp at hpeek; omega
  · exact hbit.2 hpeek

/-- An extra field read back from its bits (30 R92). -/
theorem peekWord_windowOf {k : Fin 33} {x : Word} (h : wfExtra k x = true) (rest : List Bool) :
    BitVec.ofNat 32 (peek (windowOf (fieldBits k.val x.toNat) rest) k.val) = x := by
  simp only [wfExtra, Bool.and_eq_true, decide_eq_true_eq] at h
  rw [peek_windowOf_fieldBits (by omega) h.2, BitVec.ofNat_toNat, BitVec.setWidth_eq]

/-- A row of a fixed layout or an extra-bits row, read in its context from its bits, is decoded to itself. -/
theorem decode_encode {i : Instr} (hwf : i.wf = true) (hi : encodeBus i = none) (hlit : ∀ v l, i ≠ .symLit v l)
    (hend : ∀ l, i ≠ .symEnd l) (hbref : ∀ v l, i ≠ .symBref v l) (hdsym : ∀ d l, i ≠ .dsym d l) (book : CodeBook)
    (tl : CodeTable 10) (ts : CodeTable 8) (rest : List Bool) :
    decode (i.ctx tl ts) (windowOf (encode book i) rest) = .ok i := by
  cases i with
  | btLit | btTbl | len0 w | len w | eob0 | eob1 => simp only [Instr.ctx, encode, decode, getLsbD_windowOf]; rfl
  | lcnt n => simp only [Instr.ctx, encode, decode, setWidth_windowOf_fieldBits (k := 15) (by decide) n]
  | lbyte b => simp only [Instr.ctx, encode, decode, setWidth_windowOf_fieldBits (k := 8) (by decide) b]
  | tcnt w c => simp only [Instr.ctx, encode, decode, setWidth_windowOf_fieldBits (k := 9) (by decide) c]
  | lenNib w l => simp only [Instr.ctx, encode, decode, setWidth_windowOf_fieldBits (k := 4) (by decide) l]
  | xbLen k x => simp only [Instr.ctx, encode, decode, peekWord_windowOf hwf]
  | xbDist k y => simp only [Instr.ctx, encode, decode, peekWord_windowOf hwf]
  | tbuildL | tbuildS | copy => rfl
  | symLit v l => exact absurd rfl (hlit v l)
  | symEnd l => exact absurd rfl (hend l)
  | symBref v l => exact absurd rfl (hbref v l)
  | dsym d l => exact absurd rfl (hdsym d l)
  | start | regwrite | regread | reset => simp [encodeBus] at hi

/-- What the encoding of a row takes of the bitstream, for every row. -/
theorem width_statement (i : Instr) : Sys2Proof.Laws.Width.Statement i := by
  cases i with
  | btLit => exact Sys2Proof.Laws.Width.btLit
  | btTbl => exact Sys2Proof.Laws.Width.btTbl
  | lcnt n => exact Sys2Proof.Laws.Width.lcnt n
  | lbyte b => exact Sys2Proof.Laws.Width.lbyte b
  | tcnt w c => exact Sys2Proof.Laws.Width.tcnt w c
  | len0 w => exact Sys2Proof.Laws.Width.len0 w
  | len w => exact Sys2Proof.Laws.Width.len w
  | lenNib w l => exact Sys2Proof.Laws.Width.lenNib w l
  | symLit v l => exact Sys2Proof.Laws.Width.symLit v l
  | symEnd l => exact Sys2Proof.Laws.Width.symEnd l
  | symBref v l => exact Sys2Proof.Laws.Width.symBref v l
  | xbLen k x => exact Sys2Proof.Laws.Width.xbLen k x
  | dsym d l => exact Sys2Proof.Laws.Width.dsym d l
  | xbDist k y => exact Sys2Proof.Laws.Width.xbDist k y
  | eob0 => exact Sys2Proof.Laws.Width.eob0
  | eob1 => exact Sys2Proof.Laws.Width.eob1
  | tbuildL => exact Sys2Proof.Laws.Width.tbuildL
  | tbuildS => exact Sys2Proof.Laws.Width.tbuildS
  | copy => exact Sys2Proof.Laws.Width.copy
  | start => exact Sys2Proof.Laws.Width.start
  | regwrite off width x => exact Sys2Proof.Laws.Width.regwrite off width x
  | regread off width => exact Sys2Proof.Laws.Width.regread off width
  | reset => exact Sys2Proof.Laws.Width.reset

/-- Settles O16: the decoding by `decode_encode`, widths and host accesses by the rows' `Width` statements. -/
theorem decodeInvertsEncode : Obligations.DecodeInvertsEncode := by
  refine ⟨fun i book tl ts rest hwf hi hlit hend hbref hdsym => ?_, fun i e hwf he => ?_⟩
  · obtain ⟨-, -, hlength⟩ := width_statement i
    exact ⟨decode_encode hwf hi hlit hend hbref hdsym book tl ts rest, hlength hlit hend hbref hdsym book⟩
  · obtain ⟨-, hbus, -⟩ := width_statement i
    exact (hbus e he hwf).2.1

/-- Settles O15: each word is evaluated. -/
theorem sampleWordsDecode : Obligations.SampleWordsDecode := by
  unfold Obligations.SampleWordsDecode
  decide +kernel

end Sys2Proof.Machine
end

section
/-! Canonical codes decode (42_table_builder.md R160 to R171, 43_symbol_decode.md R190): in a built table the slots a code
selects hold the direct entry of its symbol, or escape to overflow slots that do. -/

namespace Sys2Proof.Machine

/-! ### The codes of a set of lengths -/

/-- In a set of lengths that is not over-subscribed no code begins another (42 R163). -/
theorem canonicalCodes_prefixFree {lens : List CodeLen} (h : kraftSum lens ≤ 2 ^ 15) : (canonicalCodes lens).Pairwise NoPrefix := by
  refine assign_prefixFree (sortedSymbols lens) 0 0 (by decide) (fun p hp => ?_) ?_ ?_
  · obtain ⟨-, -, -, hmax⟩ := mem_sortedSymbols.1 hp
    exact ⟨Nat.zero_le _, hmax⟩
  · exact (sortedSymbols_pairwise lens).imp fun h => by omega
  · rw [kraft_sorted]; simpa using h

/-- A present symbol has a code of its length, whose bits are the symbol's (30 R86). -/
theorem exists_code {lens : List CodeLen} {s : Nat} (hs : s < lens.length) (hpresent : lens[s] ≠ 0) :
    ∃ c ∈ canonicalCodes lens, c.sym = s ∧ lens[s] = BitVec.ofNat 4 c.len ∧ symbolBits lens s = fieldBits c.len c.rc := by
  have hmem : (s, (lens[s]).toNat) ∈ sortedSymbols lens := by
    have hmax : (lens[s]).toNat < 2 ^ 4 := (lens[s]).isLt
    have hpos : (lens[s]).toNat ≠ 0 := fun h => hpresent (BitVec.eq_of_toNat_eq h)
    exact mem_sortedSymbols.2 ⟨hs, rfl, Nat.one_le_iff_ne_zero.2 hpos, Nat.le_of_lt_succ hmax⟩
  rw [← canonicalCodes_symbols] at hmem
  obtain ⟨d, hd, hdeq⟩ := List.mem_map.1 hmem
  cases hfind : (canonicalCodes lens).find? (fun c => c.sym = s) with
  | none =>
    have := List.find?_eq_none.1 hfind d hd
    simp only [decide_eq_true_eq] at this
    exact absurd (Prod.mk.inj hdeq).1 this
  | some c =>
    have hc := List.mem_of_find?_eq_some hfind
    have hsym : c.sym = s := by simpa using List.find?_some hfind
    obtain ⟨⟨hcs, hlen⟩, -⟩ := mem_canonicalCodes hc
    subst hsym
    exact ⟨c, hc, rfl, by rw [← hlen, BitVec.ofNat_toNat, BitVec.setWidth_eq], by rw [symbolBits, hfind]⟩

/-- The low bits of a number are `r` exactly when its first `p` of them and the rest are (42 R166). -/
theorem mod_two_pow_eq_iff {p l x r : Nat} (hp : p ≤ l) (hr : r < 2 ^ l) :
    x % 2 ^ l = r ↔ x % 2 ^ p = r % 2 ^ p ∧ x / 2 ^ p % 2 ^ (l - p) = r / 2 ^ p := by
  have hsplit : 2 ^ l = 2 ^ p * 2 ^ (l - p) := by rw [← Nat.pow_add, Nat.add_sub_cancel' hp]
  constructor
  · rintro rfl
    rw [hsplit]
    exact ⟨(Nat.mod_mul_right_mod x _ _).symm, (Nat.mod_mul_right_div_self x _ _).symm⟩
  · rintro ⟨hlow, hhigh⟩
    rw [hsplit, Nat.mod_mul, hlow, hhigh, Nat.mod_add_div]

/-! ### The two kinds of code in a built table -/

section Built

variable {pb : Nat} {lens : List CodeLen} {t : CodeTable pb} {c : Code} {win : Dword}
  (hpb : 8 ≤ pb) (hbuild : build pb lens = .ok t) (hfree : (canonicalCodes lens).Pairwise NoPrefix)
  (hc : c ∈ canonicalCodes lens) (hwin : win.toNat % 2 ^ c.len = c.rc)

include hfree hc hwin in
/-- A window begins with one code only. -/
theorem code_unique {d : Code} (hd : d ∈ canonicalCodes lens) (hdwin : win.toNat % 2 ^ d.len = d.rc) : d = c := by
  by_contra hne
  exact noPrefix_exclusive hfree hd hc hne hdwin hwin

/-- Each group of long codes has leading bits of its own (42 R166). -/
theorem groups_pfx_nodup (pb : Nat) (long : List Code) : ((groups pb long).map (·.pfx)).Nodup := by
  have hpfx : (groups pb long).map (·.pfx) = prefixes pb long := by simp [groups, Function.comp_def]
  rw [hpfx]
  exact prefixes_nodup pb long

include hbuild hfree hc hwin in
/-- A short code's slots hold its direct entry: no other short code selects them, and no long code begins with them
(42 R165). -/
theorem primaryEntry_of_short (hshort : c.len < pb) : primaryEntry t win = directEntry c := by
  have hlt : peek win pb < 2 ^ pb := peek_lt win pb
  have hmod : ∀ {l : Nat}, l ≤ pb → peek win pb % 2 ^ l = win.toNat % 2 ^ l := fun hl =>
    Nat.mod_mod_of_dvd _ (Nat.pow_dvd_pow 2 hl)
  obtain ⟨hkeep, -, -⟩ := allocate_spec _ _ _ _ (groups_pfx_nodup pb _) hbuild
  have hno : ∀ g ∈ groups pb ((canonicalCodes lens).filter fun d => pb ≤ d.len), g.pfx ≠ peek win pb := by
    intro g hg hpfx
    obtain ⟨-, -, hmem⟩ := mem_groups hg
    obtain ⟨d, hd, hdpfx⟩ := mem_prefixes.1 hmem
    simp only [List.mem_filter, decide_eq_true_eq] at hd
    obtain ⟨hd, hlong⟩ := hd
    have hbegins : d.rc % 2 ^ c.len = c.rc := by
      rw [← Nat.mod_mod_of_dvd d.rc (Nat.pow_dvd_pow 2 hshort.le), ← codePrefix, hdpfx, hpfx, hmod hshort.le, hwin]
    have hself : d.rc % 2 ^ d.len = d.rc := Nat.mod_eq_of_lt (mem_canonicalCodes hd).2.2.2
    exact noPrefix_exclusive hfree hc hd (fun h => by subst h; omega) hbegins hself
  rw [primaryEntry, hkeep _ hlt hno, getElem_congr_coll (foldl_writeShort_primary _ _), foldl_fill _ _ _ _ hlt c, if_pos]
  · simp only [List.mem_filter, decide_eq_true_eq, hmod hshort.le]
    exact ⟨⟨hc, hshort⟩, hwin⟩
  · intro d hd hsel
    simp only [List.mem_filter, decide_eq_true_eq] at hd hsel
    exact code_unique hfree hc hwin hd.1 (by rw [← hmod hd.2.le, hsel])

include hpb hbuild hfree hc hwin in
/-- A long code's leading bits escape to its group's sub-table, in which the code's slots hold its direct entry (42 R169, R170). -/
theorem resolve_of_long (hlong : pb ≤ c.len) :
    ∃ e : Entry, e = directEntry c ∧ resolve t win = .ok { value := entryValue e, len := entryLen e } := by
  have hrc : c.rc < 2 ^ c.len := (mem_canonicalCodes hc).2.2.2
  obtain ⟨hpfx, hsuffix⟩ := (mod_two_pow_eq_iff hlong hrc).1 hwin
  have hmem : c ∈ (canonicalCodes lens).filter fun d => pb ≤ d.len := by simp [hc, hlong]
  obtain ⟨g, hg, hgpfx⟩ : ∃ g ∈ groups pb ((canonicalCodes lens).filter fun d => pb ≤ d.len), g.pfx = codePrefix pb c := by
    refine ⟨_, List.mem_map.2 ⟨codePrefix pb c, mem_prefixes.2 ⟨c, hmem, rfl⟩, rfl⟩, rfl⟩
  obtain ⟨hmembers, hdepth, -⟩ := mem_groups hg
  have hdepth7 : g.depth ≤ 7 := groups_depth _ hpb hg
  obtain ⟨-, -, hgroup⟩ := allocate_spec _ _ _ _ (groups_pfx_nodup pb _) hbuild
  obtain ⟨base, -, hcap, -, hescape, hslots⟩ := hgroup g hg
  have hpow := Nat.two_pow_pos g.depth
  have hpeek : peek win pb = g.pfx := by rw [peek, hpfx, hgpfx, codePrefix]
  have hentry : primaryEntry t win = escapeEntry base g.depth := by
    rw [← hescape (hpeek ▸ peek_lt win pb), primaryEntry]
    simp only [hpeek]
  obtain ⟨hvalue, hentryDepth, hlen⟩ := escapeEntry_fields (base := base) (depth := g.depth) (by omega) (by omega)
  have hoff : win.toNat / 2 ^ pb % 2 ^ g.depth < 2 ^ g.depth := Nat.mod_lt _ hpow
  have hindex : overflowIndex pb (primaryEntry t win) win = base + win.toNat / 2 ^ pb % 2 ^ g.depth := by
    rw [hentry, overflowIndex, hvalue, hentryDepth, peekAt]
  have hlt : base + win.toNat / 2 ^ pb % 2 ^ g.depth < Config.ovfEntries := by simp only [Config.ovfEntries]; omega
  refine ⟨_, ?_, resolve_of_escape (by rw [hentry, hlen]) hindex hlt⟩
  -- the slot is selected by the members of the group whose code the window begins with, which is `c` alone
  have hsel : ∀ d ∈ g.members, ((base + win.toNat / 2 ^ pb % 2 ^ g.depth - base) % 2 ^ (d.len - pb) = codeSuffix pb d ↔
      win.toNat % 2 ^ d.len = d.rc) := by
    intro d hd
    have hle : d.len - pb ≤ g.depth := by rw [hdepth]; exact le_groupDepth hd
    rw [hmembers] at hd
    simp only [List.mem_filter, decide_eq_true_eq] at hd
    obtain ⟨⟨hd, hdlong⟩, hdpfx⟩ := hd
    rw [Nat.add_sub_cancel_left, Nat.mod_mod_of_dvd _ (Nat.pow_dvd_pow 2 hle), codeSuffix, Nat.shiftRight_eq_div_pow,
      mod_two_pow_eq_iff hdlong (mem_canonicalCodes hd).2.2.2, ← codePrefix, hdpfx, ← hpeek, peek]
    exact ⟨fun h => ⟨rfl, h⟩, And.right⟩
  obtain ⟨o, ho⟩ := hslots _ hlt (Nat.le_add_right _ _) (by omega)
  have hcg : c ∈ g.members := by rw [hmembers]; simp [hc, hlong, hgpfx]
  rw [ho]
  refine (foldl_fill (fun d x => decide (base ≤ x ∧ x < base + 2 ^ g.depth ∧ (x - base) % 2 ^ (d.len - pb) = codeSuffix pb d))
    g.members o _ hlt c fun d hd hselected => ?_).trans (if_pos ⟨hcg, ?_⟩)
  · obtain ⟨-, -, hdsel⟩ := of_decide_eq_true hselected
    have hdc : d ∈ canonicalCodes lens := by rw [hmembers] at hd; exact List.mem_of_mem_filter (List.mem_of_mem_filter hd)
    exact code_unique hfree hc hwin hdc ((hsel d hd).1 hdsel)
  · exact decide_eq_true ⟨Nat.le_add_right _ _, by omega, (hsel c hcg).2 hwin⟩

end Built

/-- Settles O17: the bits of a symbol are its code's, short or long, and its slots hold its direct entry. -/
theorem canonicalCodesResolveToTheirSymbols : Obligations.CanonicalCodesResolveToTheirSymbols := by
  intro pb lens t s hs rest hpb hcount hkraft hbuild hpresent
  obtain ⟨c, hc, rfl, hlen, hbits⟩ := exists_code hs hpresent
  obtain ⟨⟨hsym, -⟩, hpos, hmax, hrc⟩ := mem_canonicalCodes hc
  have hfree := canonicalCodes_prefixFree hkraft
  have hwin : (windowOf (symbolBits lens c.sym) rest).toNat % 2 ^ c.len = c.rc := by
    rw [hbits]
    exact peek_windowOf_fieldBits (by omega) hrc rest
  rw [hlen]
  rcases Nat.lt_or_ge c.len pb with hshort | hlong
  · exact resolve_direct (by omega) hpos (by omega) (primaryEntry_of_short hbuild hfree hc hwin hshort)
  · obtain ⟨e, rfl, hresolve⟩ := resolve_of_long (by omega) hbuild hfree hc hwin hlong
    obtain ⟨hvalue, hlength⟩ := directEntry_fields (c := c) (by omega) (by omega)
    rw [hresolve, ← hvalue, ← hlength, BitVec.ofNat_toNat, BitVec.ofNat_toNat, BitVec.setWidth_eq, BitVec.setWidth_eq]

end Sys2Proof.Machine
end

section
/-! Runs of the engine alone: the exhausted stream that never ends a run (41_block_sequencer.md R139), and a copy over its own
output (44_copy_engine.md R223). -/

namespace Sys2Proof.Machine

/-- A bit-reading step whose Refill answers `u`. -/
theorem readThen_of_refill {k : Nat} {s u : State} (hu : refill s = .ok u) (rest : State → State) :
    readThen k s rest = .next (rest (take k u)) := by
  rw [readThen, hu]

/-- With no turn left the turn used up is none. -/
theorem afterTurn_of_nil {s : State} (h : s.turns = []) : s.afterTurn = s := by
  cases s; simp_all [State.afterTurn]

/-! ### The exhausted stream -/

/-- The sequencer state of an exhausted run after `k` steps from BT. -/
def exhaustedSeq (k : Nat) : Seq := if k % 3 = 0 then .bt else if k % 3 = 1 then .lcnt else .eob

/-- A run with no payload left, no valid bit set and no turn left, `k` steps after BT. -/
structure Exhausted (k : Nat) (s : State) : Prop where
  busy : s.run = .busy
  turns : s.turns = []
  spent : s.plimit ≤ s.cursor
  empty : s.acc = 0
  seq : s.seq = exhaustedSeq k

/-- On an exhausted stream a row of zeros takes its bits from an empty window, which stays empty. -/
theorem exhausted_step_row {k : Nat} {s : State} (h : Exhausted k s) {c : Ctx} {i : Instr}
    (hreads : readsBits s.seq = true) (hc : contextOf s = .ok c) (hd : decode c 0 = .ok i)
    (hexec : exec i s = readThen i.width s (effect i)) : step s = .next (effect i (take i.width s)) := by
  have hafter := afterTurn_of_nil h.turns
  have hrefill : refill s = .ok s := (refillNoOpAndDeficit s).1 (.inr h.spent)
  have hdec : decode c s.acc = .ok i := by rw [h.empty]; exact hd
  rw [step_of_decoded h.busy (.inl h.turns) hreads (hafter.symm ▸ hc) (hafter.symm ▸ hrefill) hdec, hafter, hexec,
    readThen_of_refill hrefill]

/-- An exhausted run steps to an exhausted run, and writes nothing. -/
theorem exhausted_step {k : Nat} {s : State} (h : Exhausted k s) :
    ∃ t, step s = .next t ∧ Exhausted (k + 1) t ∧ t.ocur = s.ocur ∧ t.out = s.out ∧ t.cursor = s.cursor := by
  have hempty : ∀ w, (take w s).acc = 0 := fun w => by simp [h.empty]
  have hnext : ∀ q w, q = exhaustedSeq (k + 1) → Exhausted (k + 1) { take w s with seq := q } := fun q w hq =>
    ⟨h.busy, h.turns, h.spent, hempty w, hq⟩
  rcases (by omega : k % 3 = 0 ∨ k % 3 = 1 ∨ k % 3 = 2) with hk | hk | hk
  · have hs : s.seq = .bt := by rw [h.seq, exhaustedSeq, if_pos hk]
    have hq : Seq.lcnt = exhaustedSeq (k + 1) := by rw [exhaustedSeq, if_neg (by omega), if_pos (by omega)]
    exact ⟨_, exhausted_step_row h (i := .btLit) (by rw [hs]; rfl) (by rw [contextOf, hs]) rfl rfl, hnext _ 1 hq, rfl, rfl, rfl⟩
  · have hs : s.seq = .lcnt := by rw [h.seq, exhaustedSeq, if_neg (by omega), if_pos hk]
    have hq : Seq.eob = exhaustedSeq (k + 1) := by rw [exhaustedSeq, if_neg (by omega), if_neg (by omega)]
    refine ⟨_, exhausted_step_row h (i := .lcnt 0) (by rw [hs]; rfl) (by rw [contextOf, hs]) rfl rfl, ?_, rfl, rfl, rfl⟩
    exact ⟨h.busy, h.turns, h.spent, hempty 15, hq⟩
  · have hs : s.seq = .eob := by rw [h.seq, exhaustedSeq, if_neg (by omega), if_neg (by omega)]
    have hq : Seq.bt = exhaustedSeq (k + 1) := by rw [exhaustedSeq, if_pos (by omega)]
    exact ⟨_, exhausted_step_row h (i := .eob0) (by rw [hs]; rfl) (by rw [contextOf, hs]) rfl rfl, hnext _ 1 hq, rfl, rfl, rfl⟩

/-- An exhausted run goes on for any number of steps. -/
theorem exhausted_run (n : Nat) : ∀ {k : Nat} {s : State}, Exhausted k s →
    ∃ t, Host.Core.run Sys2Proof.core n s = .next t ∧ Exhausted (k + n) t ∧ t.ocur = s.ocur ∧ t.out = s.out ∧
      t.cursor = s.cursor := by
  induction n with
  | zero => exact fun {k s} h => ⟨s, rfl, h, rfl, rfl, rfl⟩
  | succ n ih =>
    intro k s h
    obtain ⟨u, hstep, hu, hocur, hout, hcursor⟩ := exhausted_step h
    obtain ⟨t, hrun, ht, hocur', hout', hcursor'⟩ := ih hu
    refine ⟨t, (run_next hstep).trans hrun, ?_, hocur'.trans hocur, hout'.trans hout, hcursor'.trans hcursor⟩
    rwa [Nat.add_right_comm] at ht

/-- Settles O34: the sequencer goes through BT, LCNT and EOB, reading a 0 in each. -/
theorem exhaustedStreamRunsForever : Obligations.ExhaustedStreamRunsForever := by
  intro s n hb hseq hturns hspent hempty
  obtain ⟨t, hrun, ht, hocur, hout, hcursor⟩ := exhausted_run n (k := 0) ⟨hb, hturns, hspent, hempty, hseq⟩
  have hs := ht.seq
  rw [Nat.zero_add, exhaustedSeq] at hs
  refine ⟨t, hrun, ht.busy, hocur, hout, hcursor, fun hn => ?_, fun hn => ?_, fun hn => ?_⟩
  · rw [hs, if_pos hn]
  · rw [hs, if_neg (by omega), if_pos hn]
  · rw [hs, if_neg (by omega), if_neg (by omega)]

/-! ### Overlapping copies -/

/-- A copy with `n` bytes to go that fits in the output, over `DIST` bytes that were written. -/
structure Copying (n : Nat) (s : State) : Prop where
  busy : s.run = .busy
  turns : s.turns = []
  seq : s.seq = if n = 0 then .sym else .copy
  left : s.copyrem.toNat = n
  dist_pos : 1 ≤ s.dist.toNat
  dist_le : s.dist.toNat ≤ s.ocur.toNat
  fits : s.ocur.toNat + n ≤ s.dsize.toNat
  noWrap : s.dsize.toNat ≤ s.cfg.addrSpace
  written : ∀ j, j < s.dist.toNat → s.outByte? (s.obase.toNat + (s.ocur.toNat - s.dist.toNat) + j) ≠ none

/-- Output addresses do not wrap onto each other. -/
theorem wrap_obase_injective {s : State} (h : s.dsize.toNat ≤ s.cfg.addrSpace) {i j : Nat} (hi : i < s.dsize.toNat)
    (hj : j < s.dsize.toNat) (hne : i ≠ j) : s.wrap (s.obase.toNat + i) ≠ s.wrap (s.obase.toNat + j) := by
  intro hwrap
  have hmod : i ≡ j [MOD s.cfg.addrSpace] := Nat.ModEq.add_left_cancel' _ hwrap
  rw [Nat.ModEq, Nat.mod_eq_of_lt (by omega), Nat.mod_eq_of_lt (by omega)] at hmod
  exact hne hmod

/-- The state after one byte of a copy. -/
abbrev copied (s : State) : State := countCopied (appendByte (copySource s) s)

/-- One step of a copy appends its byte and counts it. -/
theorem copying_step {n : Nat} {s : State} (h : Copying (n + 1) s) : step s = .next (copied s) := by
  have hafter := afterTurn_of_nil h.turns
  have hs : s.seq = .copy := by rw [h.seq, if_neg (by omega)]
  have hctx : contextOf s.afterTurn = .ok .copy := by rw [hafter, contextOf, hs]
  have hroom : s.ocur < s.dsize := by have := h.fits; rw [BitVec.lt_def]; omega
  rw [step_of_implicit h.busy (.inl h.turns) (by rw [hs]; rfl) hctx rfl, hafter, exec, execCopy_eq, appendThen_of_lt hroom]

/-- The byte of a copy step is the byte DIST back. -/
theorem copied_byte {n : Nat} {s : State} (h : Copying (n + 1) s) :
    (copied s).outByte? (s.obase.toNat + s.ocur.toNat) = s.outByte? (s.obase.toNat + (s.ocur.toNat - s.dist.toNat)) := by
  obtain ⟨b, hb⟩ := Option.ne_none_iff_exists'.1 (h.written 0 h.dist_pos)
  rw [Nat.add_zero] at hb
  rw [hb, ← copySource_of_some h.dist_le hb]
  exact outByte?_appendByte_same (copySource s) s

/-- A copy step leaves the output bytes before it. -/
theorem copied_earlier {n : Nat} {s : State} (h : Copying (n + 1) s) {j : Nat} (hj : j < s.ocur.toNat) :
    (copied s).outByte? (s.obase.toNat + j) = s.outByte? (s.obase.toNat + j) := by
  have hfits := h.fits
  exact outByte?_appendByte_other _ s (wrap_obase_injective h.noWrap (by omega) (by omega) (by omega))

/-- OCUR counts the byte. -/
theorem copied_ocur {n : Nat} {s : State} (h : Copying (n + 1) s) : (copied s).ocur.toNat = s.ocur.toNat + 1 := by
  have hfits := h.fits
  have hlt := s.dsize.isLt
  change (s.ocur + 1).toNat = _
  rw [BitVec.toNat_add]
  simp only [BitVec.ofNat_eq_ofNat, BitVec.toNat_ofNat]
  omega

/-- A copy step leaves a copy with one byte less to go. -/
theorem copying_copied {n : Nat} {s : State} (h : Copying (n + 1) s) : Copying n (copied s) := by
  have hocur := copied_ocur h
  have hleft : s.copyrem.toNat = n + 1 := h.left
  have hdist : (copied s).dist = s.dist := rfl
  have hpos := h.dist_pos
  have hle := h.dist_le
  have hfits := h.fits
  refine ⟨h.busy, h.turns, ?_, ?_, hpos, ?_, ?_, h.noWrap, fun j hj => ?_⟩
  · change (if s.copyrem = 1 then Seq.sym else .copy) = _
    have hlast : s.copyrem = 1 ↔ n = 0 := by rw [BitVec.toNat_eq, hleft]; simp
    simp only [hlast]
  · change (s.copyrem - 1).toNat = n
    bv_omega
  · rw [hocur, hdist]; omega
  · rw [hocur]; change s.ocur.toNat + 1 + n ≤ s.dsize.toNat; omega
  · rw [hdist] at hj
    rw [hocur, hdist]
    change (copied s).outByte? (s.obase.toNat + _ + j) ≠ none
    rcases (by omega : j + 1 < s.dist.toNat ∨ j + 1 = s.dist.toNat) with hlt | hend
    · have hwritten := h.written (j + 1) hlt
      rw [Nat.add_assoc] at hwritten ⊢
      rw [show s.ocur.toNat + 1 - s.dist.toNat + j = s.ocur.toNat - s.dist.toNat + (j + 1) by omega,
        copied_earlier h (by omega)]
      exact hwritten
    · have hwritten := h.written 0 hpos
      rw [Nat.add_assoc, show s.ocur.toNat + 1 - s.dist.toNat + j = s.ocur.toNat by omega, copied_byte h]
      exact hwritten

/-- The byte `i + 1` of a copy is the byte `i` of the copy that is left after one step. -/
theorem copied_period {n : Nat} {s : State} (h : Copying (n + 1) s) (i : Nat) :
    (copied s).outByte? (s.obase.toNat + (s.ocur.toNat + 1 - s.dist.toNat) + i % s.dist.toNat) =
      s.outByte? (s.obase.toNat + (s.ocur.toNat - s.dist.toNat) + (i + 1) % s.dist.toNat) := by
  have hpos := h.dist_pos
  have hle := h.dist_le
  have hmod := Nat.mod_lt i hpos
  rw [Nat.add_assoc, Nat.add_assoc]
  rcases (by omega : i % s.dist.toNat + 1 < s.dist.toNat ∨ i % s.dist.toNat + 1 = s.dist.toNat) with hlt | hend
  · have hsucc : (i + 1) % s.dist.toNat = i % s.dist.toNat + 1 := by
      rw [← Nat.mod_add_mod, Nat.mod_eq_of_lt hlt]
    rw [hsucc, show s.ocur.toNat + 1 - s.dist.toNat + i % s.dist.toNat =
      s.ocur.toNat - s.dist.toNat + (i % s.dist.toNat + 1) by omega, copied_earlier h (by omega)]
  · have hsucc : (i + 1) % s.dist.toNat = 0 := by
      rw [← Nat.mod_add_mod, hend, Nat.mod_self]
    rw [hsucc, Nat.add_zero, show s.ocur.toNat + 1 - s.dist.toNat + i % s.dist.toNat = s.ocur.toNat by omega, copied_byte h,
      Nat.add_zero]

/-- A whole copy, byte by byte (44 R223). -/
theorem copying_run (n : Nat) : ∀ {s : State}, Copying n s →
    ∃ t, Host.Core.run Sys2Proof.core n s = .next t ∧ t.run = .busy ∧ t.seq = .sym ∧ t.ocur.toNat = s.ocur.toNat + n ∧
      (∀ j, j < s.ocur.toNat → t.outByte? (s.obase.toNat + j) = s.outByte? (s.obase.toNat + j)) ∧
      ∀ i, i < n → t.outByte? (s.obase.toNat + s.ocur.toNat + i) =
        s.outByte? (s.obase.toNat + (s.ocur.toNat - s.dist.toNat) + i % s.dist.toNat) := by
  induction n with
  | zero => exact fun {s} h => ⟨s, rfl, h.busy, by rw [h.seq, if_pos rfl], rfl, fun _ _ => rfl, fun i hi => absurd hi (by omega)⟩
  | succ n ih =>
    intro s h
    obtain ⟨t, hrun, hbusy, hseq, hocur, hearlier, hbytes⟩ := ih (copying_copied h)
    have hocur1 := copied_ocur h
    have hobase : (copied s).obase = s.obase := rfl
    have hdist : (copied s).dist = s.dist := rfl
    rw [hocur1, hobase] at hearlier
    rw [hocur1, hobase, hdist] at hbytes
    refine ⟨t, (run_next (copying_step h)).trans hrun, hbusy, hseq, by omega, fun j hj => ?_, fun i hi => ?_⟩
    · rw [hearlier j (by omega), copied_earlier h hj]
    · cases i with
      | zero => rw [Nat.zero_mod, Nat.add_zero, Nat.add_zero, hearlier _ (by omega), copied_byte h]
      | succ i =>
        rw [show s.obase.toNat + s.ocur.toNat + (i + 1) = s.obase.toNat + (s.ocur.toNat + 1) + i by omega,
          hbytes i (by omega), copied_period h]

/-- Settles O49: the premises are a copy with n bytes to go. -/
theorem copyRepeatsWithPeriodDist : Obligations.CopyRepeatsWithPeriodDist := by
  intro n s hb hseq hturns hleft hn hpos hle hfits hwrap hwritten
  obtain ⟨t, hrun, hbusy, hsym, hocur, -, hbytes⟩ :=
    copying_run n (s := s) ⟨hb, hturns, by rw [hseq, if_neg (by omega)], hleft, hpos, hle, hfits, hwrap, hwritten⟩
  exact ⟨t, hrun, hbusy, hsym, hocur, hbytes⟩

end Sys2Proof.Machine
end

section
/-! The container scanner (45_host_commands.md R247, R248): what it passes over, and that what it reports is there. -/

namespace Sys2Proof.Machine

/-! ### One step of the scan -/

/-- A byte that is no `D` after an `E` is consumed, and not tried as an `E` (45 R248). -/
theorem scan_skip_after_E {b : Byte} (h : b ≠ 0x44) (more : List Byte) (p : Nat) :
    scan (0x45 :: b :: more) p = scan more (p + 2) := by
  match more with
  | b2 :: rest => rw [scan, if_neg (by decide), if_pos h]
  | [] => rw [scan_short (by simp), scan_short (by simp)]

/-- A byte that is no `L` after `E D` is consumed (45 R248). -/
theorem scan_skip_after_ED {b : Byte} (h : b ≠ 0x4C) (more : List Byte) (p : Nat) :
    scan (0x45 :: 0x44 :: b :: more) p = scan more (p + 3) := by
  rw [scan, if_neg (by decide), if_neg (by decide), if_pos h]

/-- A magic is parsed at its `E`, and the scan goes on after its `L` (45 R247, R248). -/
theorem scan_magic (more : List Byte) (p : Nat) :
    scan (0x45 :: 0x44 :: 0x4C :: more) p =
      consMatch (parseAtOffset (0x45 :: 0x44 :: 0x4C :: more) p) (scan more (p + 3)) := by
  rw [scan, if_neg (by decide), if_neg (by decide), if_neg (by decide)]

/-- Bytes without an `E` are passed over (45 R248). -/
theorem scan_gap {gap : List Byte} (h : ∀ b ∈ gap, b ≠ 0x45) (more : List Byte) (p : Nat) :
    scan (gap ++ more) p = scan more (p + gap.length) := by
  induction gap generalizing p with
  | nil => rfl
  | cons b gap ih =>
    rw [List.cons_append, scan_skip (h b (by simp)), ih fun x hx => h x (by simp [hx]), List.length_cons, Nat.add_assoc,
      Nat.add_comm 1]

/-! ### What a scan reports -/

/-- Headers that stand in the bytes from stream position `p` on: each at a magic, parsed there, at least three bytes after the
one before it. -/
def Reports (bytes : List Byte) (p : Nat) (hs : List OffsetHeader) : Prop :=
  (∀ h ∈ hs, p ≤ h.offset ∧ (bytes.drop (h.offset - p)).take 3 = [0x45, 0x44, 0x4C] ∧
    parseAtOffset (bytes.drop (h.offset - p)) h.offset = .ok h) ∧
  hs.Pairwise fun h h' => h.offset + 3 ≤ h'.offset

/-- What stands in the bytes after some first ones stands in all of them. -/
theorem Reports.append_left {bytes : List Byte} {p : Nat} {hs : List OffsetHeader} (pre : List Byte)
    (h : Reports bytes (p + pre.length) hs) : Reports (pre ++ bytes) p hs := by
  refine ⟨fun o ho => ?_, h.2⟩
  obtain ⟨hle, hmagic, hparse⟩ := h.1 o ho
  have hdrop : (pre ++ bytes).drop (o.offset - p) = bytes.drop (o.offset - (p + pre.length)) := by
    rw [List.drop_append, List.drop_eq_nil_of_le (by omega), List.nil_append, Nat.sub_sub]
  rw [hdrop]
  exact ⟨by omega, hmagic, hparse⟩

/-- A scan that succeeds reports headers that stand in the stream (45 R247, R248). -/
theorem reports_of_scan (bytes : List Byte) (p : Nat) :
    ∀ hs, scan bytes p = .ok hs → Reports bytes p hs := by
  induction bytes, p using scan.induct with
  | case1 b0 b1 b2 rest p h0 ih =>
    intro hs h
    rw [scan_skip h0] at h
    exact (ih hs h).append_left [b0]
  | case2 b0 b1 b2 rest p h0 h1 ih =>
    intro hs h
    rw [not_not.1 h0, scan_skip_after_E h1] at h
    exact (ih hs h).append_left [b0, b1]
  | case3 b0 b1 b2 rest p h0 h1 h2 ih =>
    intro hs h
    rw [not_not.1 h0, not_not.1 h1, scan_skip_after_ED h2] at h
    exact (ih hs h).append_left [b0, b1, b2]
  | case4 b0 b1 b2 rest p h0 h1 h2 ih =>
    intro hs h
    obtain rfl := not_not.1 h0
    obtain rfl := not_not.1 h1
    obtain rfl := not_not.1 h2
    rw [scan_magic] at h
    obtain ⟨o, os, hparse, hrest, rfl⟩ := consMatch_ok h
    have hoff := parseAtOffset_offset hparse
    have hafter := ih os hrest
    obtain ⟨hall, hpair⟩ := hafter.append_left [0x45, 0x44, 0x4C]
    refine ⟨fun h' hh' => ?_, List.pairwise_cons.2 ⟨fun h' hh' => ?_, hpair⟩⟩
    · rcases List.mem_cons.1 hh' with rfl | hh'
      · rw [hoff, Nat.sub_self, List.drop_zero]
        exact ⟨Nat.le_refl _, rfl, hparse⟩
      · exact hall h' hh'
    · rw [hoff]
      exact (hafter.1 h' hh').1
  | case5 bytes p hshort =>
    intro hs h
    have hlen : bytes.length < 3 := by
      match bytes, hshort with
      | [], _ | [_], _ | [_, _], _ => simp
      | b0 :: b1 :: b2 :: rest, hshort => exact (hshort b0 b1 b2 rest rfl).elim
    rw [scan_short hlen] at h
    cases h
    exact ⟨fun h hh => absurd hh (by simp), .nil⟩

/-! ### Short streams -/

/-- Fewer than three bytes are no container (log 26). -/
theorem parseHeader_of_short {h : List Byte} (hlen : h.length < 3) (mask : Config.TypeMask) :
    parseHeader mask h = .fail .notEdlContainer := by
  refine parseHeader_of_not_magic (fun hmagic => ?_) mask
  have := congrArg List.length hmagic
  simp only [List.length_take, magic, List.length_cons, List.length_nil] at this
  omega

/-- A magic whose header is cut short refuses the scan (log 26). -/
theorem scan_of_short_header {more : List Byte} (hlen : more.length < 9) (p : Nat) :
    scan (0x45 :: 0x44 :: 0x4C :: more) p = .refused .shortHeader := by
  have hparse : parseAtOffset (0x45 :: 0x44 :: 0x4C :: more) p = .refused .shortHeader := by
    rw [parseAtOffset, parseFields_short _ (by simp only [List.length_cons]; omega)]
  rw [scan_magic, hparse, consMatch]

/-- A magic with its header is reported in front of what the scan reports after it (45 R247, R248). -/
theorem scan_of_header {flag : Byte} {c d : Word} {more : List Byte} {p : Nat} {hs : List OffsetHeader}
    (h : scan (flag :: (sizeBytes flag c ++ sizeBytes flag d ++ more)) (p + 3) = .ok hs) :
    scan (0x45 :: 0x44 :: 0x4C :: flag :: (sizeBytes flag c ++ sizeBytes flag d ++ more)) p =
      .ok ({ header := { compressionType := flag &&& 0x0F, big := decide (128 ≤ flag.toNat)
                         csize := BitVec.ofNat 64 c.toNat, dsize := BitVec.ofNat 64 d.toNat }
             offset := p } :: hs) := by
  rw [scan_magic, h, parseAtOffset, parseFields_sizeBytes, consMatch]

/-- Settles O58: the steps of the scan, the short streams, and what a scan that succeeds reports. -/
theorem scannerReportsMagicsInOrder : Obligations.ScannerReportsMagicsInOrder :=
  ⟨fun _ p hlen => scan_short hlen p, fun _ more p hgap => scan_gap hgap more p, fun _ more p hb => scan_skip_after_E hb more p,
    fun _ more p hb => scan_skip_after_ED hb more p, fun _ _ _ _ _ _ h => scan_of_header h,
    fun mask _ hlen => parseHeader_of_short hlen mask,
    fun mask _ hmagic hlen => (parseHeader_of_magic hmagic mask).trans (parseFields_short _ hlen),
    fun _ p hlen => scan_of_short_header hlen p, fun bytes p hs h => reports_of_scan bytes p hs h⟩

end Sys2Proof.Machine
end

section
/-! The host's engine run (45_host_commands.md R251): the register writes of the load, the START that ends them, and what a poll
makes of the run. -/

namespace Sys2Proof.Machine

/-! ### The register writes of the load -/

/-- What a register write outside a run leaves, with 64-bit addresses; the read-only registers and CTRL keep the state. -/
def written (r : Reg) (x : Word) (s : State) : State :=
  match r with
  | .hdrflag => { s with hdrflag := x.setWidth 8 }
  | .csize => { s with csize := x }
  | .dsize => { s with dsize := x }
  | .pbaseLo => { s with pbase := setLow s.pbase x }
  | .pbaseHi => { s with pbase := setHigh s.pbase x }
  | .obaseLo => { s with obase := setLow s.obase x }
  | .obaseHi => { s with obase := setHigh s.obase x }
  | .ctrl | .status | .outLen | .cursor | .availLo | .availHi => s

/-- The host is outside a run, with 64-bit addresses. -/
def Loadable (s : State) : Prop := s.run ≠ .busy ∧ s.cfg.addrW = 64

theorem writeReg_eq_written {r : Reg} {s : State} (h : Loadable s) (hr : r ≠ .ctrl) (x : Word) :
    writeReg r x s = .next (written r x s) := by
  obtain ⟨hrun, hw⟩ := h
  cases r with
  | ctrl => exact absurd rfl hr
  | pbaseLo | pbaseHi | obaseLo | obaseHi => simp only [writeReg, hrun, if_false, written, maskAddr_of_full hw]
  | hdrflag | csize | dsize => simp only [writeReg, hrun, if_false, written]
  | status | outLen | cursor | availLo | availHi => rfl

/-- A register write moves neither STATE nor the parameters. -/
theorem written_loadable {r : Reg} {x : Word} {s : State} (h : Loadable s) : Loadable (written r x s) := by
  cases r <;> exact h

/-- A register write does not look at the turns. -/
theorem written_turns (r : Reg) (x : Word) (s : State) (ts : List Turn) :
    written r x { s with turns := ts } = { written r x s with turns := ts } := by
  cases r <;> rfl

/-- What a list of register writes leaves. -/
def writtenAll : List (Reg × Word) → State → State
  | [], s => s
  | (r, x) :: ws, s => writtenAll ws (written r x s)

theorem writtenAll_turns (ws : List (Reg × Word)) : ∀ (s : State) (ts : List Turn),
    writtenAll ws { s with turns := ts } = { writtenAll ws s with turns := ts } := by
  induction ws with
  | nil => exact fun s ts => rfl
  | cons w ws ih => exact fun s ts => by rw [writtenAll, written_turns, ih, writtenAll]

/-- The turns of a list of register writes. -/
def writeTurns (ws : List (Reg × Word)) : List Turn := ws.map fun w => regWriteTurn w.1 w.2

/-- Register writes as steps of a run. -/
theorem run_writeTurns {ws : List (Reg × Word)} (hws : ∀ w ∈ ws, w.1 ≠ .ctrl) (rest : List Turn) (k : Nat) :
    ∀ {s : State}, Loadable s → s.turns = writeTurns ws ++ rest →
      Host.Core.run Sys2Proof.core (ws.length + k) s =
        Host.Core.run Sys2Proof.core k { writtenAll ws s with turns := rest } := by
  induction ws with
  | nil =>
    intro s _ ht
    rw [List.length_nil, Nat.zero_add, writtenAll]
    congr 1
    cases s; cases ht; rfl
  | cons w ws ih =>
    obtain ⟨r, x⟩ := w
    intro s h ht
    have hr : r ≠ .ctrl := hws (r, x) (by simp)
    have hstep : step s = .next { written r x s with turns := writeTurns ws ++ rest } := by
      rw [step_regWrite (r := r) (x := x) (rest := writeTurns ws ++ rest) hr ht,
        writeReg_eq_written (s := { s with turns := writeTurns ws ++ rest }) h hr, written_turns]
    have hrest := ih (fun w hw => hws w (by simp [hw])) (s := { written r x s with turns := writeTurns ws ++ rest })
      (written_loadable h) rfl
    rw [List.length_cons, Nat.succ_add, run_next hstep, hrest, writtenAll_turns, writtenAll]

/-- Register writes as turns of the host, before a turn that follows. -/
theorem runTurns_writeTurns {ws : List (Reg × Word)} (hws : ∀ w ∈ ws, w.1 ≠ .ctrl) (u : Turn) (rest : List Turn) :
    ∀ {s : State}, Loadable s → runTurns (writeTurns ws ++ u :: rest) s = runTurns (u :: rest) (writtenAll ws s) := by
  induction ws with
  | nil => exact fun {s} _ => rfl
  | cons w ws ih =>
    obtain ⟨r, x⟩ := w
    intro s h
    have hr : r ≠ .ctrl := hws (r, x) (by simp)
    have hstep : step { s with turns := [regWriteTurn r x] } = .next { written r x s with turns := [] } := by
      rw [step_regWriteTurn hr, writeReg_eq_written (s := { s with turns := [] }) h hr, written_turns]
    have hrest := ih (fun w hw => hws w (by simp [hw])) (s := { written r x s with turns := [] }) (written_loadable h)
    rw [writtenAll_turns] at hrest
    exact (runTurns_cons hstep).trans hrest

/-- The register writes of the load, before its START (45 R251). -/
def loadWrites (flag : Byte) (csize dsize : Word) (pbase obase : Dword) : List (Reg × Word) :=
  [(.hdrflag, flag.setWidth 32), (.csize, csize), (.dsize, dsize), (.pbaseLo, pbase.setWidth 32),
    (.pbaseHi, pbase.extractLsb' 32 32), (.obaseLo, obase.setWidth 32), (.obaseHi, obase.extractLsb' 32 32)]

theorem loadTurns_eq (flag : Byte) (csize dsize : Word) (pbase obase : Dword) :
    loadTurns flag csize dsize pbase obase = writeTurns (loadWrites flag csize dsize pbase obase) ++ [regWriteTurn .ctrl 1] :=
  rfl

theorem loadWrites_ne_ctrl {flag : Byte} {csize dsize : Word} {pbase obase : Dword} :
    ∀ w ∈ loadWrites flag csize dsize pbase obase, w.1 ≠ .ctrl := by
  simp [loadWrites]

/-- The two halves of an address register, written one after the other (10 R35, R36). -/
theorem setHigh_setLow (v p : Dword) : setHigh (setLow v (p.setWidth 32)) (p.extractLsb' 32 32) = p := by
  have := p.isLt
  apply BitVec.eq_of_toNat_eq
  rw [setHigh_toNat, setLow_toNat, BitVec.toNat_setWidth, BitVec.extractLsb'_toNat, Nat.shiftRight_eq_div_pow]
  omega

/-- The host registers after the load's writes. -/
theorem writtenAll_loadWrites (flag : Byte) (csize dsize : Word) (pbase obase : Dword) (s : State) :
    writtenAll (loadWrites flag csize dsize pbase obase) s =
      { s with hdrflag := flag, csize := csize, dsize := dsize, pbase := pbase, obase := obase } := by
  have hflag : (flag.setWidth 32).setWidth 8 = flag := BitVec.setWidth_setWidth_of_le flag (by decide)
  simp only [loadWrites, writtenAll, written, setHigh_setLow, hflag]

/-! ### The run the load starts -/

/-- The run the host starts: its registers written, the run state cleared, at the first element. -/
def loadedRun (flag : Byte) (csize dsize : Word) (pbase obase : Dword) (s : State) : State :=
  { initRun { s with hdrflag := flag, csize := csize, dsize := dsize, pbase := pbase, obase := obase } with
    seq := .bt, run := .busy }

/-- Whether the regions overlap depends on the addresses, the two lengths and the parameters. -/
theorem regionsOverlap_congr {s t : State} (hcfg : t.cfg = s.cfg) (hp : t.pbase = s.pbase) (ho : t.obase = s.obase)
    (hd : t.dsize = s.dsize) (hl : t.plimit = s.plimit) : t.regionsOverlap = s.regionsOverlap := by
  simp only [State.regionsOverlap, State.inPayloadWindow, State.inOutputRegion, hcfg, hp, ho, hd, hl]

/-- With CSIZE as the payload length PLIMIT is CSIZE (00 R5(b)). -/
theorem loadedRun_plimit {s : State} (hmode : s.cfg.csizeMode = .payloadOnly) (flag : Byte) (csize dsize : Word)
    (pbase obase : Dword) : (loadedRun flag csize dsize pbase obase s).plimit = csize := by
  change payloadLimit s.cfg.csizeMode csize = csize
  rw [hmode, payloadLimit]

/-- The byte order of the run is bit 7 of its flag (10 R32). -/
theorem loadedRun_endianL (flag : Byte) (csize dsize : Word) (pbase obase : Dword) (s : State) :
    (loadedRun flag csize dsize pbase obase s).endianL = decide (128 ≤ flag.toNat) := bigEndian_bit flag

/-- The run starts with an empty window. -/
theorem loadedRun_window (flag : Byte) (csize dsize : Word) (pbase obase : Dword) (s : State) :
    (loadedRun flag csize dsize pbase obase s).bitpos = 0 ∧ (loadedRun flag csize dsize pbase obase s).WindowOk :=
  ⟨rfl, fun _ => winOk_zero rfl rfl rfl⟩

/-- START behind the load's writes begins the run. -/
theorem exec_start_loaded {s : State} (hrun : s.run ≠ .busy) (hmode : s.cfg.csizeMode = .payloadOnly) {flag : Byte}
    (hflag : flag.toNat % 16 = 1) {csize dsize : Word} {pbase obase : Dword}
    (hov : ({ s with pbase := pbase, obase := obase, dsize := dsize, plimit := csize }).regionsOverlap = false) :
    exec .start { s with hdrflag := flag, csize := csize, dsize := dsize, pbase := pbase, obase := obase } =
      .next (loadedRun flag csize dsize pbase obase s) := by
  refine exec_start_of_type1 (s := { s with hdrflag := flag, csize := csize, dsize := dsize, pbase := pbase, obase := obase })
    hrun hflag ?_
  rw [← hov]
  exact regionsOverlap_congr rfl rfl rfl rfl (loadedRun_plimit hmode flag csize dsize pbase obase)

/-- The host's write of 1 to CTRL is START (45 R241). -/
theorem step_start {s : State} {rest : List Turn} (ht : s.turns = regWriteTurn .ctrl 1 :: rest) :
    step s = exec .start { s with turns := rest } := by
  have hd : decodeBus (.write (regOffset .ctrl) 32 1) = .start := by decide
  simp only [step, ht, regWriteTurn, hd]

/-- The load sequence, step by step (45 R251, log 25). -/
theorem run_loadTurns {s : State} (hrun : s.run ≠ .busy) (haddr : s.cfg.addrW = 64) (hmode : s.cfg.csizeMode = .payloadOnly)
    {flag : Byte} (hflag : flag.toNat % 16 = 1) {csize dsize : Word} {pbase obase : Dword} {rest : List Turn}
    (ht : s.turns = loadTurns flag csize dsize pbase obase ++ rest)
    (hov : ({ s with pbase := pbase, obase := obase, dsize := dsize, plimit := csize }).regionsOverlap = false) :
    Host.Core.run Sys2Proof.core 8 s = .next { loadedRun flag csize dsize pbase obase s with turns := rest } := by
  rw [loadTurns_eq, List.append_assoc] at ht
  have hwrites := run_writeTurns loadWrites_ne_ctrl ([regWriteTurn .ctrl 1] ++ rest) 1 ⟨hrun, haddr⟩ ht
  rw [writtenAll_loadWrites] at hwrites
  have hstart := exec_start_loaded (s := { s with turns := rest }) hrun hmode hflag hov
  have hstep := (step_start (s := { s with
    hdrflag := flag, csize := csize, dsize := dsize, pbase := pbase, obase := obase, turns := _ }) rfl).trans hstart
  exact hwrites.trans (run_next hstep)

/-- The load sequence, turn by turn of the host (45 R251). -/
theorem runTurns_loadTurns {s : State} (hrun : s.run ≠ .busy) (haddr : s.cfg.addrW = 64)
    (hmode : s.cfg.csizeMode = .payloadOnly) {flag : Byte} (hflag : flag.toNat % 16 = 1) {csize dsize : Word}
    {pbase obase : Dword}
    (hov : ({ s with pbase := pbase, obase := obase, dsize := dsize, plimit := csize }).regionsOverlap = false) :
    runTurns (loadTurns flag csize dsize pbase obase) s =
      .next { loadedRun flag csize dsize pbase obase s with turns := [] } := by
  have hstart := exec_start_loaded (s := { s with turns := [] }) hrun hmode hflag hov
  have hstep := (step_start (s := { s with
    hdrflag := flag, csize := csize, dsize := dsize, pbase := pbase, obase := obase,
    turns := [regWriteTurn .ctrl 1] }) rfl).trans hstart
  rw [loadTurns_eq, runTurns_writeTurns loadWrites_ne_ctrl _ _ ⟨hrun, haddr⟩, writtenAll_loadWrites]
  exact runTurns_cons hstep

/-- EngineRun places the container, starts the run over it, and polls (45 R251). -/
theorem engineRun_loads {s : State} {source : List Byte} {h : Header} {flag : Byte} {a obase : Nat} (polls : List Nat)
    (hrun : s.run ≠ .busy) (haddr : s.cfg.addrW = 64) (hmode : s.cfg.csizeMode = .payloadOnly)
    (hflag : flag.toNat % 16 = 1) (hlen : source.length ≤ 2 ^ 64)
    (hov : ({ s with pbase := BitVec.ofNat 64 (a + 12), obase := BitVec.ofNat 64 obase
                     dsize := h.dsize.setWidth 32, plimit := h.csize.setWidth 32 }).regionsOverlap = false) :
    ∃ u : State, u.cfg = s.cfg ∧
      engineRun source h flag a obase polls s = pollLoop obase polls { loadedRun flag (h.csize.setWidth 32)
        (h.dsize.setWidth 32) (BitVec.ofNat 64 (a + 12)) (BitVec.ofNat 64 obase) u with turns := [] } ∧
      (∀ (i : Nat) (hi : i < source.length), u.srcMem.read? (u.wrap (a + i)) = some source[i]) ∧
      (s.cfg.oneMemory = false → u.out = s.out) := by
  have hspace : s.cfg.addrSpace = 2 ^ 64 := by simp [Config.Params.addrSpace, haddr]
  obtain ⟨u, hplace, hframe, hout, hbytes, -⟩ := placeBytes_spec a source hrun (by rw [hspace]; exact hlen)
  have hcfg : u.cfg = s.cfg := by rw [hframe]
  have hov' : ({ u with pbase := BitVec.ofNat 64 (a + 12), obase := BitVec.ofNat 64 obase
                        dsize := h.dsize.setWidth 32, plimit := h.csize.setWidth 32 } : State).regionsOverlap = false := by
    rw [← hov]
    exact regionsOverlap_congr hcfg rfl rfl rfl rfl
  have hload := runTurns_loadTurns (s := u) (flag := flag) (csize := h.csize.setWidth 32) (dsize := h.dsize.setWidth 32)
    (pbase := BitVec.ofNat 64 (a + 12)) (obase := BitVec.ofNat 64 obase) (by rw [hframe]; exact hrun) (by rw [hcfg]; exact haddr)
    (by rw [hcfg]; exact hmode) hflag hov'
  refine ⟨u, hcfg, ?_, fun i hi => ?_, hout⟩
  · rw [engineRun, engineRunTurns, runTurns_append hplace, hload, HostRun.after]
  · rw [State.wrap, hcfg]; exact hbytes i hi

/-! ### Polls -/

/-- The state a poll leaves: the host has read STATUS. -/
def polled (t : State) : State := { t with turns := [], rdata := t.status }

/-- A poll after the engine's steps reads STATUS and goes on with the verdict on it (45 R251). -/
theorem pollLoop_of_none {s t : State} {obase n : Nat} {polls : List Nat}
    (hrun : runTurns (List.replicate n .engine) s = .next t) (hv : pollVerdict t.status = none) :
    pollLoop obase (n :: polls) s = pollLoop obase polls (polled t) := by
  have hread : runTurns [regReadTurn .status] t = .next (polled t) := runTurns_regRead .status t
  rw [pollLoop, runTurns_append hrun, hread, HostRun.after]
  simp only [polled, hv]

theorem pollLoop_of_some {s t : State} {obase n : Nat} {polls : List Nat} {v : HostResult Unit}
    (hrun : runTurns (List.replicate n .engine) s = .next t) (hv : pollVerdict t.status = some v) :
    pollLoop obase (n :: polls) s = runResult obase v (polled t) := by
  have hread : runTurns [regReadTurn .status] t = .next (polled t) := runTurns_regRead .status t
  rw [pollLoop, runTurns_append hrun, hread, HostRun.after]
  simp only [polled, hv]

/-- A run that ended DONE is read back: OUT_LEN bytes at OBASE (45 R251, 44 R227). -/
theorem runResult_ok {t : State} (hrun : t.run ≠ .busy) (obase : Nat) :
    ∃ u : State, u = { t with rdata := u.rdata, mdata := u.mdata, turns := [] } ∧
      runResult obase (.ok ()) (polled t) = .returned (.ok (outputBytes obase t)) u := by
  have hread := runTurns_regRead .outLen (polled t)
  obtain ⟨u, hframe, hback⟩ := readBack_spec t.ocur.toNat obase []
    (s := { polled t with turns := [], rdata := readReg .outLen (polled t) }) hrun rfl
  refine ⟨u, by rw [hframe]; rfl, ?_⟩
  rw [runResult, hread, HostRun.after]
  exact hback

/-- Settles O56: the load by its writes and START, in both forms; a poll by the verdict on STATUS. -/
theorem engineRunLoadsPollsAndReturns : Obligations.EngineRunLoadsPollsAndReturns := by
  refine ⟨fun s flag csize dsize pbase obase rest hrun haddr hmode hflag ht hov => ?_,
    fun s source h flag a obase polls hrun haddr hmode hflag hlen hov => ?_, fun s t obase n polls hturns => ?_,
    fun s obase => rfl⟩
  · obtain ⟨hbitpos, hwindow⟩ := loadedRun_window flag csize dsize pbase obase s
    exact ⟨_, run_loadTurns hrun haddr hmode hflag ht hov, rfl, rfl, rfl, rfl, rfl, rfl, rfl, rfl,
      loadedRun_plimit hmode flag csize dsize pbase obase, loadedRun_endianL flag csize dsize pbase obase s, hbitpos, rfl, rfl,
      rfl, rfl, rfl, rfl, hwindow⟩
  · obtain ⟨u, hcfg, hengine, hbytes, hout⟩ := engineRun_loads polls hrun haddr hmode hflag hlen hov
    obtain ⟨hbitpos, hwindow⟩ := loadedRun_window flag (h.csize.setWidth 32) (h.dsize.setWidth 32)
      (BitVec.ofNat 64 (a + 12)) (BitVec.ofNat 64 obase) u
    exact ⟨_, hengine, rfl, rfl, rfl, rfl, loadedRun_plimit (by rw [hcfg]; exact hmode) _ _ _ _ _, rfl, rfl,
      loadedRun_endianL _ _ _ _ _ _, hbitpos, rfl, hwindow, hbytes, hout⟩
  · by_cases hdone : t.run = .done
    · obtain ⟨u, hframe, hresult⟩ := runResult_ok (t := t) (by simp [hdone]) obase
      have hverdict : pollVerdict t.status = some (.ok ()) := by rw [pollVerdict_status, hdone]
      exact ⟨u, hframe, fun h => by simp [hdone] at h, fun _ => (pollLoop_of_some hturns hverdict).trans hresult,
        fun h => by simp [hdone] at h⟩
    · have hfail {e : HostError} (hv : pollVerdict t.status = some (.fail e)) :
          pollLoop obase (n :: polls) s = .returned (.fail e) (polled t) := pollLoop_of_some hturns hv
      refine ⟨polled t, rfl, fun h => pollLoop_of_none hturns ?_, fun h => absurd h hdone, fun herr => ⟨fun he => hfail ?_,
        fun he => hfail ?_, fun he => hfail ?_, fun he => hfail ?_⟩⟩
      · obtain h | h := h <;> rw [pollVerdict_status, h]
      all_goals rw [pollVerdict_status, herr, he]

end Sys2Proof.Machine
end
